-- ==== Sys2Proof/Word.lean ====
section
/-! DEFINITION. The data widths of the CPU900H: byte, word and long word (rule R7). -/

namespace Sys2Proof

/-- An 8-bit datum, letter B (rule R7). -/
abbrev Byte := BitVec 8

/-- A 16-bit datum, letter W (rule R7). -/
abbrev Word := BitVec 16

/-- A 32-bit datum, letter L, and the width of every address and of `pc` (rules R7, R26, R56). -/
abbrev Long := BitVec 32

end Sys2Proof
end

