-- ==== Sys2Proof/Syntax.lean ====
section
/-! DEFINITION. The instructions of the CPU900H as data: operand sizes, register operands, addressing modes,
condition codes, control registers, and one constructor of `Instr` for each of the 103 rows of
`spec/opcode_table.json` (rule R115). -/

namespace Sys2Proof

/-! ## Operand sizes (rules R7, R82) -/

/-- Operand size, chosen by a size code (rule R82). -/
inductive Size where
  | byte
  | word
  | long
  deriving DecidableEq, Repr

/-- `N`, the operand size in bits (rule R7). -/
abbrev Size.bits : Size → Nat
  | .byte => 8
  | .word => 16
  | .long => 32

/-- `N/8`, the operand size in bytes (rule R7). -/
abbrev Size.bytes : Size → Nat
  | .byte => 1
  | .word => 2
  | .long => 4

/-- The size of a form that allows byte and word only (field `z`, rule R82). -/
inductive BW where
  | byte
  | word
  deriving DecidableEq, Repr

abbrev BW.size : BW → Size
  | .byte => .byte
  | .word => .word

/-- The double width of a dividend (rule R196). -/
abbrev BW.double : BW → Size
  | .byte => .word
  | .word => .long

/-- The size of a form that allows word and long only (EXTZ, EXTS, and field `s` of LDAR, rule R82). -/
inductive WL where
  | word
  | long
  deriving DecidableEq, Repr

abbrev WL.size : WL → Size
  | .word => .word
  | .long => .long

/-! ## Registers (rules R20 to R25) -/

/-- The four names inside a bank (rule R20). -/
inductive Quad where
  | xwa
  | xbc
  | xde
  | xhl
  deriving DecidableEq, Repr

/-- Which bank a register code means: a numbered one, the previous one or the current one (rule R22). -/
inductive BankSel where
  | num (n : BitVec 2)
  | prev
  | cur
  deriving DecidableEq, Repr

/-- A row of the register map that names a register (rule R24); the other rows name none (rule R25). -/
inductive Row where
  | bank (b : BankSel) (q : Quad)
  | xix
  | xiy
  | xiz
  | xsp
  deriving DecidableEq, Repr

/-- An 8-bit register code: a row of the map and a byte offset in it (rule R24). A word register has an even
offset, a long register offset 0 (rule R25, checked by `RegCode.legal`). -/
structure RegCode where
  row : Row
  off : BitVec 2
  deriving DecidableEq, Repr

/-- A 3-bit register code `R` or short `r` (rules R23, R83). -/
abbrev R3 := BitVec 3

/-- The register operand `r`: a 3-bit code in the first byte, or the extension code and an 8-bit code
(rules R84, R85). The two differ in the instruction's length. -/
inductive RegOp where
  | short (k : R3)
  | ext (c : RegCode)
  deriving DecidableEq, Repr

/-- A control register that LDC can name (rule R34). -/
inductive CReg where
  | dmas (n : BitVec 2)
  | dmad (n : BitVec 2)
  | dmac (n : BitVec 2)
  | dmam (n : BitVec 2)
  | intnest
  deriving DecidableEq, Repr

/-- The width of a control register, the only size LDC admits for it (rules R34, R35). -/
abbrev CReg.size : CReg → Size
  | .dmas _ => .long
  | .dmad _ => .long
  | .dmac _ => .word
  | .dmam _ => .byte
  | .intnest => .word

/-! ## Immediates, conditions, addressing modes -/

/-- An immediate `#` of the form's operand size (rule R90). -/
inductive Imm where
  | b (v : Byte)
  | w (v : Word)
  | l (v : Long)
  deriving DecidableEq, Repr

abbrev Imm.size : Imm → Size
  | .b _ => .byte
  | .w _ => .word
  | .l _ => .long

def Imm.value : (i : Imm) → BitVec i.size.bits
  | .b v => v
  | .w v => v
  | .l v => v

/-- An immediate of a form that allows byte and word only (rule R90). -/
inductive ImmBW where
  | b (v : Byte)
  | w (v : Word)
  deriving DecidableEq, Repr

abbrev ImmBW.bw : ImmBW → BW
  | .b _ => .byte
  | .w _ => .word

def ImmBW.value : (i : ImmBW) → BitVec i.bw.size.bits
  | .b v => v
  | .w v => v

/-- The sixteen condition codes, each under the first symbol of its row (rule R96); `t` is code 1000, which has
no symbol. -/
inductive Cond where
  | f
  | lt
  | le
  | ule
  | ov
  | mi
  | z
  | c
  | t
  | ge
  | gt
  | ugt
  | nov
  | pl
  | nz
  | nc
  deriving DecidableEq, Repr

/-- The step of a pre-decrement or post-increment mode; code 11 is "(未定義)" and names none (rule R66). -/
inductive Step where
  | one
  | two
  | four
  deriving DecidableEq, Repr

/-- The memory addressing modes of the mode table (rules R57 to R66, R88). The mode `($+4+d16)` (rule R67) is
spelled by LDAR alone and is part of that instruction. -/
inductive Mode where
  | ind (k : R3)                              -- (R)
  | disp8 (k : R3) (d : Byte)                 -- (R+d8)
  | abs8 (a : Byte)                           -- (#8)
  | abs16 (a : Word)                          -- (#16)
  | abs24 (a : BitVec 24)                     -- (#24)
  | ind32 (r : Row)                           -- (r32)
  | disp16 (r : Row) (d : Word)               -- (r32+d16)
  | index8 (r : Row) (i : RegCode)            -- (r32+r8)
  | index16 (r : Row) (i : RegCode)           -- (r32+r16)
  | preDec (r : Row) (z : Step)               -- (-r32)
  | postInc (r : Row) (z : Step)              -- (r32+)
  deriving DecidableEq, Repr

/-! ## Instructions, one constructor per row of the opcode table, in the table's order -/

/-- An instruction. `R` is a 3-bit register code, `r` (and `rr`, a dividend) a register operand, `m` a memory
operand, `v` an immediate, `d` a displacement, `a` an absolute address, `n` a number field. -/
inductive Instr where
  -- class S
  | halt
  | ei (n : BitVec 3)
  | di
  | ldDir8B (a : Byte) (v : Byte)
  | ldDir8W (a : Byte) (v : Word)
  | incf
  | decf
  | ccf
  | exFF
  | ldf (n : BitVec 3)
  | jp16 (a : Word)
  | jp24 (a : BitVec 24)
  | call16 (a : Word)
  | call24 (a : BitVec 24)
  | calr (d : Word)
  | ldRImmB (R : R3) (v : Byte)
  | ldRImmW (R : R3) (v : Word)
  | ldRImmL (R : R3) (v : Long)
  | jr (cc : Cond) (d : Byte)
  | jrl (cc : Cond) (d : Word)
  -- class REG
  | ldrImm (r : RegOp) (v : Imm)
  | cpl (sz : BW) (r : RegOp)
  | divrImm (rr : RegOp) (v : ImmBW)
  | divsrImm (rr : RegOp) (v : ImmBW)
  | bs1b (r : RegOp)
  | daa (r : RegOp)
  | extz (sz : WL) (r : RegOp)
  | exts (sz : WL) (r : RegOp)
  | djnz (sz : BW) (r : RegOp) (d : Byte)
  | andcf4r (sz : BW) (n : BitVec 4) (r : RegOp)
  | ldcf4r (sz : BW) (n : BitVec 4) (r : RegOp)
  | andcfAr (sz : BW) (r : RegOp)
  | ldcfAr (sz : BW) (r : RegOp)
  | ldcCrR (cr : CReg) (r : RegOp)
  | ldcRCr (r : RegOp) (cr : CReg)
  | chg4r (sz : BW) (n : BitVec 4) (r : RegOp)
  | bit4r (sz : BW) (n : BitVec 4) (r : RegOp)
  | divRr (sz : BW) (R : R3) (r : RegOp)
  | divsRr (sz : BW) (R : R3) (r : RegOp)
  | inc3r (sz : Size) (n : BitVec 3) (r : RegOp)
  | dec3r (sz : Size) (n : BitVec 3) (r : RegOp)
  | addRr (sz : Size) (R : R3) (r : RegOp)
  | ldRr (sz : Size) (R : R3) (r : RegOp)
  | adcRr (sz : Size) (R : R3) (r : RegOp)
  | ldrR (sz : Size) (r : RegOp) (R : R3)
  | ldr3 (sz : Size) (r : RegOp) (n : BitVec 3)
  | exRr (sz : BW) (R : R3) (r : RegOp)
  | andRr (sz : Size) (R : R3) (r : RegOp)
  | addrImm (r : RegOp) (v : Imm)
  | adcrImm (r : RegOp) (v : Imm)
  | andrImm (r : RegOp) (v : Imm)
  | cprImm (r : RegOp) (v : Imm)
  | cpr3 (sz : BW) (r : RegOp) (n : BitVec 3)
  | cpRr (sz : Size) (R : R3) (r : RegOp)
  -- class SRCMEM
  | ldiDE (sz : BW)
  | ldiIX (sz : BW)
  | ldirDE (sz : BW)
  | ldirIX (sz : BW)
  | lddDE (sz : BW)
  | lddIX (sz : BW)
  | lddrDE (sz : BW)
  | lddrIX (sz : BW)
  | cpi (sz : BW) (R : R3)
  | cpir (sz : BW) (R : R3)
  | cpd (sz : BW) (R : R3)
  | cpdr (sz : BW) (R : R3)
  | ldDir16Mem (sz : BW) (a : Word) (m : Mode)
  | ldRMem (sz : Size) (R : R3) (m : Mode)
  | exMemR (sz : BW) (m : Mode) (R : R3)
  | addMemImm (m : Mode) (v : ImmBW)
  | adcMemImm (m : Mode) (v : ImmBW)
  | andMemImm (m : Mode) (v : ImmBW)
  | cpMemImm (m : Mode) (v : ImmBW)
  | divRMem (sz : BW) (R : R3) (m : Mode)
  | divsRMem (sz : BW) (R : R3) (m : Mode)
  | inc3Mem (sz : BW) (n : BitVec 3) (m : Mode)
  | dec3Mem (sz : BW) (n : BitVec 3) (m : Mode)
  | addRMem (sz : Size) (R : R3) (m : Mode)
  | addMemR (sz : Size) (m : Mode) (R : R3)
  | adcRMem (sz : Size) (R : R3) (m : Mode)
  | adcMemR (sz : Size) (m : Mode) (R : R3)
  | andRMem (sz : Size) (R : R3) (m : Mode)
  | andMemR (sz : Size) (m : Mode) (R : R3)
  | cpRMem (sz : Size) (R : R3) (m : Mode)
  | cpMemR (sz : Size) (m : Mode) (R : R3)
  -- class DSTMEM
  | ldMemImmB (m : Mode) (v : Byte)
  | ldMemImmW (m : Mode) (v : Word)
  | ldMemDir16B (m : Mode) (a : Word)
  | ldMemDir16W (m : Mode) (a : Word)
  | ldaW (R : R3) (m : Mode)
  | ldaL (R : R3) (m : Mode)
  | andcfAMem (m : Mode)
  | ldcfAMem (m : Mode)
  | ldMemRB (m : Mode) (R : R3)
  | ldMemRW (m : Mode) (R : R3)
  | ldMemRL (m : Mode) (R : R3)
  | andcf3Mem (n : BitVec 3) (m : Mode)
  | ldcf3Mem (n : BitVec 3) (m : Mode)
  | chg3Mem (n : BitVec 3) (m : Mode)
  | bit3Mem (n : BitVec 3) (m : Mode)
  | jpMem (cc : Cond) (m : Mode)
  | callMem (cc : Cond) (m : Mode)
  | ldar (sz : WL) (R : R3) (d : Word)
  deriving DecidableEq, Repr

end Sys2Proof
end

