-- ==== Sys2Proof/WellFormed.lean ====
section
/-! DEFINITION. Which terms of `Instr` have an encoding: register-code parity (rule R25), the dividend codes of
DIV and DIVS (rules R103, R196), bit numbers on a byte register (rule R234), the modes JP, CALL and LDA admit
(rules R131, R292, R297) and EI against DI (rule R251). Sizes a form does not allow (rule R7), register codes
that name nothing (rule R25), step code 11 (rule R66) and control-register sizes (rule R35) cannot be written. -/

namespace Sys2Proof

/-- A word register has an even code, a long register a multiple of 4 (rule R25). -/
def RegCode.legal (sz : Size) (c : RegCode) : Bool :=
  match sz with
  | .byte => true
  | .word => !c.off.getLsbD 0
  | .long => c.off == 0#2

def RegOp.legal (sz : Size) : RegOp → Bool
  | .short _ => true
  | .ext c => c.legal sz

/-- The word index register has an even code (rule R65). -/
def Mode.legal : Mode → Bool
  | .index16 _ i => i.legal .word
  | _ => true

/-- The mode changes its base register (rule R66). -/
def Mode.steps : Mode → Bool
  | .preDec _ _ => true
  | .postInc _ _ => true
  | _ => false

/-- A 3-bit code that names a dividend `RR`: at byte size only 001, 011, 101 and 111 do (rule R103). -/
def R3.dividend (sz : BW) (k : R3) : Bool :=
  match sz with
  | .byte => k.getLsbD 0
  | .word => true

/-- An operand `rr` that names a dividend (rules R103, R196). -/
def RegOp.dividend (sz : BW) : RegOp → Bool
  | .short k => R3.dividend sz k
  | .ext c => c.legal sz.double

/-- The bit number lies in the operand of BIT or CHG (rule R234). -/
def bitInside (sz : BW) (n : BitVec 4) : Bool :=
  match sz with
  | .byte => n.toNat < 8
  | .word => true

def Instr.wf : Instr → Bool
  | .halt => true
  | .ei n => n != 7#3
  | .di => true
  | .ldDir8B _ _ => true
  | .ldDir8W _ _ => true
  | .incf => true
  | .decf => true
  | .ccf => true
  | .exFF => true
  | .ldf _ => true
  | .jp16 _ => true
  | .jp24 _ => true
  | .call16 _ => true
  | .call24 _ => true
  | .calr _ => true
  | .ldRImmB _ _ => true
  | .ldRImmW _ _ => true
  | .ldRImmL _ _ => true
  | .jr _ _ => true
  | .jrl _ _ => true
  | .ldrImm r v => r.legal v.size
  | .cpl sz r => r.legal sz.size
  | .divrImm rr v => rr.dividend v.bw
  | .divsrImm rr v => rr.dividend v.bw
  | .bs1b r => r.legal .word
  | .daa r => r.legal .byte
  | .extz sz r => r.legal sz.size
  | .exts sz r => r.legal sz.size
  | .djnz sz r _ => r.legal sz.size
  | .andcf4r sz _ r => r.legal sz.size
  | .ldcf4r sz _ r => r.legal sz.size
  | .andcfAr sz r => r.legal sz.size
  | .ldcfAr sz r => r.legal sz.size
  | .ldcCrR cr r => r.legal cr.size
  | .ldcRCr r cr => r.legal cr.size
  | .chg4r sz n r => r.legal sz.size && bitInside sz n
  | .bit4r sz n r => r.legal sz.size && bitInside sz n
  | .divRr sz R r => R3.dividend sz R && r.legal sz.size
  | .divsRr sz R r => R3.dividend sz R && r.legal sz.size
  | .inc3r sz _ r => r.legal sz
  | .dec3r sz _ r => r.legal sz
  | .addRr sz _ r => r.legal sz
  | .ldRr sz _ r => r.legal sz
  | .adcRr sz _ r => r.legal sz
  | .ldrR sz r _ => r.legal sz
  | .ldr3 sz r _ => r.legal sz
  | .exRr sz _ r => r.legal sz.size
  | .andRr sz _ r => r.legal sz
  | .addrImm r v => r.legal v.size
  | .adcrImm r v => r.legal v.size
  | .andrImm r v => r.legal v.size
  | .cprImm r v => r.legal v.size
  | .cpr3 sz r _ => r.legal sz.size
  | .cpRr sz _ r => r.legal sz
  | .ldiDE _ => true
  | .ldiIX _ => true
  | .ldirDE _ => true
  | .ldirIX _ => true
  | .lddDE _ => true
  | .lddIX _ => true
  | .lddrDE _ => true
  | .lddrIX _ => true
  | .cpi _ _ => true
  | .cpir _ _ => true
  | .cpd _ _ => true
  | .cpdr _ _ => true
  | .ldDir16Mem _ _ m => m.legal
  | .ldRMem _ _ m => m.legal
  | .exMemR _ m _ => m.legal
  | .addMemImm m _ => m.legal
  | .adcMemImm m _ => m.legal
  | .andMemImm m _ => m.legal
  | .cpMemImm m _ => m.legal
  | .divRMem sz R m => R3.dividend sz R && m.legal
  | .divsRMem sz R m => R3.dividend sz R && m.legal
  | .inc3Mem _ _ m => m.legal
  | .dec3Mem _ _ m => m.legal
  | .addRMem _ _ m => m.legal
  | .addMemR _ m _ => m.legal
  | .adcRMem _ _ m => m.legal
  | .adcMemR _ m _ => m.legal
  | .andRMem _ _ m => m.legal
  | .andMemR _ m _ => m.legal
  | .cpRMem _ _ m => m.legal
  | .cpMemR _ m _ => m.legal
  | .ldMemImmB m _ => m.legal
  | .ldMemImmW m _ => m.legal
  | .ldMemDir16B m _ => m.legal
  | .ldMemDir16W m _ => m.legal
  | .ldaW _ m => m.legal && !m.steps
  | .ldaL _ m => m.legal && !m.steps
  | .andcfAMem m => m.legal
  | .ldcfAMem m => m.legal
  | .ldMemRB m _ => m.legal
  | .ldMemRW m _ => m.legal
  | .ldMemRL m _ => m.legal
  | .andcf3Mem _ m => m.legal
  | .ldcf3Mem _ m => m.legal
  | .chg3Mem _ m => m.legal
  | .bit3Mem _ m => m.legal
  | .jpMem _ m => m.legal && !m.steps
  | .callMem _ m => m.legal && !m.steps
  | .ldar _ _ _ => true

/-- The instruction has an encoding the spec admits. -/
abbrev WellFormed (i : Instr) : Prop := i.wf = true

end Sys2Proof
end

