-- ==== Sys2Proof/Decode.lean ====
section
/-! DEFINITION. The decoder, total on every byte sequence and refusing by name (rules R80 to R104, R112), and
after it the encoder, written from the same tables. Bytes stand in address order. -/

namespace Sys2Proof

/-! ## Results -/

/-- Why a byte sequence decodes to no instruction (rule R112). -/
inductive DecodeRefusal where
  /-- a slot believed to belong to an instruction that is listed without a page (rules R4, R104) -/
  | listed (mnemonic : String)
  /-- no slot at all -/
  | undefined
  /-- a defined encoding the spec narrows: JP, CALL or LDA with a stepping mode (decision D14) -/
  | notAdmitted
  deriving DecidableEq, Repr

/-- What reading from the front of a byte sequence gives. -/
inductive Parsed (α : Type) where
  /-- a value, and the bytes after it -/
  | ok (a : α) (rest : List Byte)
  /-- the sequence ends inside the instruction -/
  | short
  | refuse (r : DecodeRefusal)
  deriving DecidableEq, Repr

def Parsed.bind {α β : Type} (p : Parsed α) (k : α → List Byte → Parsed β) : Parsed β :=
  match p with
  | .ok a rest => k a rest
  | .short => .short
  | .refuse r => .refuse r

/-! ## Bit fields -/

/-- The high five bits of an opcode byte. -/
def hi5 (b : Byte) : BitVec 5 := b.extractLsb' 3 5

/-- The low three bits of an opcode byte: `R`, `r`, `#3` (rules R83, R91). -/
def lo3 (b : Byte) : BitVec 3 := b.extractLsb' 0 3

/-- The high four bits. -/
def hi4 (b : Byte) : BitVec 4 := b.extractLsb' 4 4

/-- The low four bits: `cc`, `mmmm`, `#4`. -/
def lo4 (b : Byte) : BitVec 4 := b.extractLsb' 0 4

/-- The high six bits of a mode byte, `r32'` (rule R88). -/
def hi6 (b : Byte) : BitVec 6 := b.extractLsb' 2 6

/-- The low two bits of a mode byte or of a register code. -/
def lo2 (b : Byte) : BitVec 2 := b.extractLsb' 0 2

/-! ## Operand bytes, low byte first (rules R52, R89) -/

def takeByte : List Byte → Parsed Byte
  | [] => .short
  | b :: rest => .ok b rest

def takeWord : List Byte → Parsed Word
  | b0 :: b1 :: rest => .ok (b1 ++ b0) rest
  | _ => .short

def take24 : List Byte → Parsed (BitVec 24)
  | b0 :: b1 :: b2 :: rest => .ok (b2 ++ b1 ++ b0) rest
  | _ => .short

def takeLong : List Byte → Parsed Long
  | b0 :: b1 :: b2 :: b3 :: rest => .ok (b3 ++ b2 ++ b1 ++ b0) rest
  | _ => .short

/-- An immediate of the operand size (rule R90). -/
def takeImm (sz : Size) (bs : List Byte) : Parsed Imm :=
  match sz with
  | .byte => (takeByte bs).bind fun v rest => .ok (.b v) rest
  | .word => (takeWord bs).bind fun v rest => .ok (.w v) rest
  | .long => (takeLong bs).bind fun v rest => .ok (.l v) rest

def takeImmBW (sz : BW) (bs : List Byte) : Parsed ImmBW :=
  match sz with
  | .byte => (takeByte bs).bind fun v rest => .ok (.b v) rest
  | .word => (takeWord bs).bind fun v rest => .ok (.w v) rest

/-- A bit number `0000####`; a non-zero upper nibble is refused (rule R92, decision D33). -/
def takeBitNumber (bs : List Byte) : Parsed (BitVec 4) :=
  (takeByte bs).bind fun b rest => if hi4 b = 0#4 then .ok (lo4 b) rest else .refuse .undefined

/-- The operand byte `00000###` of EI and LDF (rules R250, R255, decision D33). -/
def takeNumber3 (bs : List Byte) : Parsed (BitVec 3) :=
  (takeByte bs).bind fun b rest => if hi5 b = 0#5 then .ok (lo3 b) rest else .refuse .undefined

/-! ## Field codes -/

/-- Size code `zz` (rule R82). -/
def sizeOfCode (zz : BitVec 2) : Option Size :=
  match zz with
  | 0#2 => some .byte
  | 1#2 => some .word
  | 2#2 => some .long
  | _ => none

def codeOfSize : Size → BitVec 2
  | .byte => 0#2
  | .word => 1#2
  | .long => 2#2

/-- The size of a form that admits byte and word. -/
def Size.bw : Size → Option BW
  | .byte => some .byte
  | .word => some .word
  | .long => none

/-- The size of a form that admits word and long. -/
def Size.wl : Size → Option WL
  | .byte => none
  | .word => some .word
  | .long => some .long

def quadOfCode (q : BitVec 2) : Quad :=
  match q with
  | 0#2 => .xwa
  | 1#2 => .xbc
  | 2#2 => .xde
  | _ => .xhl

def codeOfQuad : Quad → BitVec 2
  | .xwa => 0#2
  | .xbc => 1#2
  | .xde => 2#2
  | .xhl => 3#2

/-- The row of the register map with upper six code bits `c`; rows 40H to CCH name no register (rules R24,
R25). -/
def rowOfCode (c : BitVec 6) : Option Row :=
  let q := quadOfCode (c.extractLsb' 0 2)
  match c.extractLsb' 2 4 with
  | 0x0#4 => some (.bank (.num 0#2) q)
  | 0x1#4 => some (.bank (.num 1#2) q)
  | 0x2#4 => some (.bank (.num 2#2) q)
  | 0x3#4 => some (.bank (.num 3#2) q)
  | 0xD#4 => some (.bank .prev q)
  | 0xE#4 => some (.bank .cur q)
  | 0xF#4 =>
    match q with
    | .xwa => some .xix
    | .xbc => some .xiy
    | .xde => some .xiz
    | .xhl => some .xsp
  | _ => none

def codeOfRow : Row → BitVec 6
  | .bank (.num n) q => 0b00#2 ++ n ++ codeOfQuad q
  | .bank .prev q => 0b1101#4 ++ codeOfQuad q
  | .bank .cur q => 0b1110#4 ++ codeOfQuad q
  | .xix => 0b111100#6
  | .xiy => 0b111101#6
  | .xiz => 0b111110#6
  | .xsp => 0b111111#6

/-- The 8-bit register code `b` (rule R24). -/
def regOfCode (b : Byte) : Option RegCode := (rowOfCode (hi6 b)).map fun r => ⟨r, lo2 b⟩

def codeOfReg (c : RegCode) : Byte := codeOfRow c.row ++ c.off

/-- Step code `zz` of (-r32) and (r32+); 11 is undefined (rule R66, decision D32). -/
def stepOfCode (zz : BitVec 2) : Option Step :=
  match zz with
  | 0#2 => some .one
  | 1#2 => some .two
  | 2#2 => some .four
  | _ => none

def codeOfStep : Step → BitVec 2
  | .one => 0#2
  | .two => 1#2
  | .four => 2#2

/-- Condition code (rule R96). -/
def condOfCode (c : BitVec 4) : Cond :=
  match c with
  | 0x0#4 => .f
  | 0x1#4 => .lt
  | 0x2#4 => .le
  | 0x3#4 => .ule
  | 0x4#4 => .ov
  | 0x5#4 => .mi
  | 0x6#4 => .z
  | 0x7#4 => .c
  | 0x8#4 => .t
  | 0x9#4 => .ge
  | 0xA#4 => .gt
  | 0xB#4 => .ugt
  | 0xC#4 => .nov
  | 0xD#4 => .pl
  | 0xE#4 => .nz
  | _ => .nc

def codeOfCond : Cond → BitVec 4
  | .f => 0x0#4
  | .lt => 0x1#4
  | .le => 0x2#4
  | .ule => 0x3#4
  | .ov => 0x4#4
  | .mi => 0x5#4
  | .z => 0x6#4
  | .c => 0x7#4
  | .t => 0x8#4
  | .ge => 0x9#4
  | .gt => 0xA#4
  | .ugt => 0xB#4
  | .nov => 0xC#4
  | .pl => 0xD#4
  | .nz => 0xE#4
  | .nc => 0xF#4

/-- The control register with code `b` and width `sz`: the seventeen rows of rule R34 and no other pair
(rule R35, decision D26). -/
def cregOfCode (sz : Size) (b : Byte) : Option CReg :=
  let n := b.extractLsb' 2 2
  match sz, hi4 b, lo2 b with
  | .long, 0x0#4, 0#2 => some (.dmas n)
  | .long, 0x1#4, 0#2 => some (.dmad n)
  | .word, 0x2#4, 0#2 => some (.dmac n)
  | .byte, 0x2#4, 2#2 => some (.dmam n)
  | .word, 0x3#4, 0#2 => if n = 3#2 then some .intnest else none
  | _, _, _ => none

def codeOfCReg : CReg → Byte
  | .dmas n => 0x0#4 ++ n ++ 0#2
  | .dmad n => 0x1#4 ++ n ++ 0#2
  | .dmac n => 0x2#4 ++ n ++ 0#2
  | .dmam n => 0x2#4 ++ n ++ 2#2
  | .intnest => 0x3C#8

def takeCReg (sz : Size) (bs : List Byte) : Parsed CReg :=
  (takeByte bs).bind fun b rest =>
    match cregOfCode sz b with
    | some c => .ok c rest
    | none => .refuse .undefined

/-! ## Register and memory operands -/

/-- The register code byte of the extended form; it must be legal at the form's size (rules R25, R85); it is judged
before the second opcode (log entry 26). -/
def takeReg (sz : Size) (bs : List Byte) : Parsed RegCode :=
  (takeByte bs).bind fun b rest =>
    match regOfCode b with
    | some c => if c.legal sz then .ok c rest else .refuse .undefined
    | none => .refuse .undefined

/-- A long register named by a full code byte: the base `cb` of an indexed mode (rule R65). -/
def takeBase (bs : List Byte) : Parsed Row :=
  (takeReg .long bs).bind fun c rest => .ok c.row rest

/-- The mode byte after mode code 0011 and what follows it (rule R88), judged before the second opcode (log entry 26). -/
def takeMode3 (bs : List Byte) : Parsed Mode :=
  (takeByte bs).bind fun b rest =>
    match lo2 b with
    | 0#2 =>
      match rowOfCode (hi6 b) with
      | some r => .ok (.ind32 r) rest
      | none => .refuse .undefined
    | 1#2 =>
      match rowOfCode (hi6 b) with
      | some r => (takeWord rest).bind fun d rest => .ok (.disp16 r d) rest
      | none => .refuse .undefined
    | 2#2 => .refuse .undefined
    | _ =>
      match hi6 b with
      | 0#6 => (takeBase rest).bind fun r rest => (takeReg .byte rest).bind fun i rest => .ok (.index8 r i) rest
      | 1#6 => (takeBase rest).bind fun r rest => (takeReg .word rest).bind fun i rest => .ok (.index16 r i) rest
      | _ => .refuse .undefined

/-- The mode byte `r32' zz` of (-r32) and (r32+) (rules R66, R88), judged before the second opcode (log entry 26). -/
def takeStepping (mk : Row → Step → Mode) (bs : List Byte) : Parsed Mode :=
  (takeByte bs).bind fun b rest =>
    match rowOfCode (hi6 b), stepOfCode (lo2 b) with
    | some r, some z => .ok (mk r z) rest
    | _, _ => .refuse .undefined

/-- The addressing mode with code bits `m` (bit 6) and `mmmm` (bits 3:0) (rule R88). -/
def takeMode (m : BitVec 1) (mmmm : BitVec 4) (bs : List Byte) : Parsed Mode :=
  if m = 0#1 then
    if mmmm.extractLsb' 3 1 = 0#1 then .ok (.ind (mmmm.extractLsb' 0 3)) bs
    else (takeByte bs).bind fun d rest => .ok (.disp8 (mmmm.extractLsb' 0 3) d) rest
  else
    match mmmm with
    | 0#4 => (takeByte bs).bind fun a rest => .ok (.abs8 a) rest
    | 1#4 => (takeWord bs).bind fun a rest => .ok (.abs16 a) rest
    | 2#4 => (take24 bs).bind fun a rest => .ok (.abs24 a) rest
    | 3#4 => takeMode3 bs
    | 4#4 => takeStepping .preDec bs
    | 5#4 => takeStepping .postInc bs
    | _ => .refuse .undefined

/-! ## Opcode maps -/

/-- Goes on at the size of a form that admits byte and word; a long first byte is refused (rule R7). -/
def atBW (sz : Size) (k : BW → Parsed Instr) : Parsed Instr :=
  match sz.bw with
  | some z => k z
  | none => .refuse .undefined

/-- Goes on at the size of a form that admits word and long. -/
def atWL (sz : Size) (k : WL → Parsed Instr) : Parsed Instr :=
  match sz.wl with
  | some z => k z
  | none => .refuse .undefined

/-- An instruction that must be well formed; the operands it carries are otherwise undefined encodings. -/
def okIf (c : Bool) (i : Instr) (rest : List Byte) : Parsed Instr :=
  if c then .ok i rest else .refuse .undefined

/-- The rotate and shift mnemonics in code order (rule R104). -/
def shiftName (k : BitVec 3) : String :=
  match k with
  | 0#3 => "RLC"
  | 1#3 => "RRC"
  | 2#3 => "RL"
  | 3#3 => "RR"
  | 4#3 => "SLA"
  | 5#3 => "SRA"
  | 6#3 => "SLL"
  | _ => "SRL"

/-- First-byte map of class S (rule R97; the refused slots are named by rule R104). -/
def decodeS (b : Byte) (bs : List Byte) : Parsed Instr :=
  match hi5 b with
  | 0b00000#5 =>
    match lo3 b with
    | 0#3 => .refuse (.listed "NOP")
    | 2#3 => .refuse (.listed "PUSH SR")
    | 3#3 => .refuse (.listed "POP SR")
    | 5#3 => .ok .halt bs
    | 6#3 => (takeNumber3 bs).bind fun n rest => .ok (if n = 7#3 then .di else .ei n) rest
    | 7#3 => .refuse (.listed "RETI")
    | _ => .refuse .undefined
  | 0b00001#5 =>
    match lo3 b with
    | 0#3 => (takeByte bs).bind fun a rest => (takeByte rest).bind fun v rest => .ok (.ldDir8B a v) rest
    | 2#3 => (takeByte bs).bind fun a rest => (takeWord rest).bind fun v rest => .ok (.ldDir8W a v) rest
    | 4#3 => .ok .incf bs
    | 5#3 => .ok .decf bs
    | 6#3 => .refuse (.listed "RET")
    | 7#3 => .refuse (.listed "RETD")
    | _ => .refuse (.listed "PUSH")
  | 0b00010#5 =>
    match lo3 b with
    | 0#3 => .refuse (.listed "RCF")
    | 1#3 => .refuse (.listed "SCF")
    | 2#3 => .ok .ccf bs
    | 3#3 => .refuse (.listed "ZCF")
    | 4#3 => .refuse (.listed "PUSH")
    | 5#3 => .refuse (.listed "POP")
    | 6#3 => .ok .exFF bs
    | _ => (takeNumber3 bs).bind fun n rest => .ok (.ldf n) rest
  | 0b00011#5 =>
    match lo3 b with
    | 0#3 => .refuse (.listed "PUSH")
    | 1#3 => .refuse (.listed "POP")
    | 2#3 => (takeWord bs).bind fun a rest => .ok (.jp16 a) rest
    | 3#3 => (take24 bs).bind fun a rest => .ok (.jp24 a) rest
    | 4#3 => (takeWord bs).bind fun a rest => .ok (.call16 a) rest
    | 5#3 => (take24 bs).bind fun a rest => .ok (.call24 a) rest
    | 6#3 => (takeWord bs).bind fun d rest => .ok (.calr d) rest
    | _ => .refuse .undefined
  | 0b00100#5 => (takeByte bs).bind fun v rest => .ok (.ldRImmB (lo3 b) v) rest
  | 0b00110#5 => (takeWord bs).bind fun v rest => .ok (.ldRImmW (lo3 b) v) rest
  | 0b01000#5 => (takeLong bs).bind fun v rest => .ok (.ldRImmL (lo3 b) v) rest
  | 0b00101#5 => .refuse (.listed "PUSH")
  | 0b00111#5 => .refuse (.listed "PUSH")
  | 0b01001#5 => .refuse (.listed "POP")
  | 0b01011#5 => .refuse (.listed "POP")
  | 0b01100#5 => (takeByte bs).bind fun d rest => .ok (.jr (condOfCode (lo4 b)) d) rest
  | 0b01101#5 => (takeByte bs).bind fun d rest => .ok (.jr (condOfCode (lo4 b)) d) rest
  | 0b01110#5 => (takeWord bs).bind fun d rest => .ok (.jrl (condOfCode (lo4 b)) d) rest
  | 0b01111#5 => (takeWord bs).bind fun d rest => .ok (.jrl (condOfCode (lo4 b)) d) rest
  | _ => .refuse .undefined

/-- Second-opcode map of class REG at size `sz` and register `r` (rule R98; refused slots by rule R104). -/
def decodeReg (sz : Size) (r : RegOp) (b : Byte) (bs : List Byte) : Parsed Instr :=
  let k := lo3 b
  match hi5 b with
  | 0b00000#5 =>
    match k with
    | 3#3 => (takeImm sz bs).bind fun v rest => .ok (.ldrImm r v) rest
    | 4#3 => .refuse (.listed "PUSH")
    | 5#3 => .refuse (.listed "POP")
    | 6#3 => atBW sz fun z => .ok (.cpl z r) bs
    | 7#3 => .refuse (.listed "NEG")
    | _ => .refuse .undefined
  | 0b00001#5 =>
    match k with
    | 0#3 => .refuse (.listed "MUL")
    | 1#3 => .refuse (.listed "MULS")
    | 2#3 => atBW sz fun z => if r.dividend z then (takeImmBW z bs).bind fun v rest => .ok (.divrImm r v) rest
                              else .refuse .undefined
    | 3#3 => atBW sz fun z => if r.dividend z then (takeImmBW z bs).bind fun v rest => .ok (.divsrImm r v) rest
                              else .refuse .undefined
    | 4#3 => .refuse (.listed "LINK")
    | 5#3 => .refuse (.listed "UNLK")
    | 6#3 => .refuse (.listed "BS1F")
    | _ => if sz = .word then .ok (.bs1b r) bs else .refuse .undefined
  | 0b00010#5 =>
    match k with
    | 0#3 => if sz = .byte then .ok (.daa r) bs else .refuse .undefined
    | 2#3 => atWL sz fun z => .ok (.extz z r) bs
    | 3#3 => atWL sz fun z => .ok (.exts z r) bs
    | 4#3 => .refuse (.listed "PAA")
    | 6#3 => .refuse (.listed "MIRR")
    | _ => .refuse .undefined
  | 0b00011#5 =>
    match k with
    | 1#3 => .refuse (.listed "MULA")
    | 4#3 => atBW sz fun z => (takeByte bs).bind fun d rest => .ok (.djnz z r d) rest
    | _ => .refuse .undefined
  | 0b00100#5 =>
    match k with
    | 0#3 => atBW sz fun z => (takeBitNumber bs).bind fun n rest => .ok (.andcf4r z n r) rest
    | 1#3 => .refuse (.listed "ORCF")
    | 2#3 => .refuse (.listed "XORCF")
    | 3#3 => atBW sz fun z => (takeBitNumber bs).bind fun n rest => .ok (.ldcf4r z n r) rest
    | 4#3 => .refuse (.listed "STCF")
    | _ => .refuse .undefined
  | 0b00101#5 =>
    match k with
    | 0#3 => atBW sz fun z => .ok (.andcfAr z r) bs
    | 1#3 => .refuse (.listed "ORCF")
    | 2#3 => .refuse (.listed "XORCF")
    | 3#3 => atBW sz fun z => .ok (.ldcfAr z r) bs
    | 4#3 => .refuse (.listed "STCF")
    | 6#3 => (takeCReg sz bs).bind fun c rest => .ok (.ldcCrR c r) rest
    | 7#3 => (takeCReg sz bs).bind fun c rest => .ok (.ldcRCr r c) rest
    | _ => .refuse .undefined
  | 0b00110#5 =>
    match k with
    | 0#3 => .refuse (.listed "RES")
    | 1#3 => .refuse (.listed "SET")
    | 2#3 => atBW sz fun z => (takeBitNumber bs).bind fun n rest => okIf (bitInside z n) (.chg4r z n r) rest
    | 3#3 => atBW sz fun z => (takeBitNumber bs).bind fun n rest => okIf (bitInside z n) (.bit4r z n r) rest
    | 4#3 => .refuse (.listed "TSET")
    | _ => .refuse .undefined
  | 0b00111#5 =>
    match k with
    | 0#3 => .refuse (.listed "MINC")
    | 1#3 => .refuse (.listed "MINC")
    | 2#3 => .refuse (.listed "MINC")
    | 4#3 => .refuse (.listed "MDEC")
    | 5#3 => .refuse (.listed "MDEC")
    | 6#3 => .refuse (.listed "MDEC")
    | _ => .refuse .undefined
  | 0b01000#5 => .refuse (.listed "MUL")
  | 0b01001#5 => .refuse (.listed "MULS")
  | 0b01010#5 => atBW sz fun z => okIf (R3.dividend z k) (.divRr z k r) bs
  | 0b01011#5 => atBW sz fun z => okIf (R3.dividend z k) (.divsRr z k r) bs
  | 0b01100#5 => .ok (.inc3r sz k r) bs
  | 0b01101#5 => .ok (.dec3r sz k r) bs
  | 0b01110#5 => .refuse (.listed "SCC")
  | 0b01111#5 => .refuse (.listed "SCC")
  | 0b10000#5 => .ok (.addRr sz k r) bs
  | 0b10001#5 => .ok (.ldRr sz k r) bs
  | 0b10010#5 => .ok (.adcRr sz k r) bs
  | 0b10011#5 => .ok (.ldrR sz r k) bs
  | 0b10100#5 => .refuse (.listed "SUB")
  | 0b10101#5 => .ok (.ldr3 sz r k) bs
  | 0b10110#5 => .refuse (.listed "SBC")
  | 0b10111#5 => atBW sz fun z => .ok (.exRr z k r) bs
  | 0b11000#5 => .ok (.andRr sz k r) bs
  | 0b11001#5 =>
    match k with
    | 0#3 => (takeImm sz bs).bind fun v rest => .ok (.addrImm r v) rest
    | 1#3 => (takeImm sz bs).bind fun v rest => .ok (.adcrImm r v) rest
    | 2#3 => .refuse (.listed "SUB")
    | 3#3 => .refuse (.listed "SBC")
    | 4#3 => (takeImm sz bs).bind fun v rest => .ok (.andrImm r v) rest
    | 5#3 => .refuse (.listed "XOR")
    | 6#3 => .refuse (.listed "OR")
    | _ => (takeImm sz bs).bind fun v rest => .ok (.cprImm r v) rest
  | 0b11010#5 => .refuse (.listed "XOR")
  | 0b11011#5 => atBW sz fun z => .ok (.cpr3 z r k) bs
  | 0b11100#5 => .refuse (.listed "OR")
  | 0b11101#5 => .refuse (.listed (shiftName k))
  | 0b11110#5 => .ok (.cpRr sz k r) bs
  | _ => .refuse (.listed (shiftName k))

/-- The block instructions: only the plain indirect modes of rules R102 and R160, byte and word. -/
def decodeBlock (sz : Size) (m : Mode) (k : BitVec 3) (bs : List Byte) : Parsed Instr :=
  atBW sz fun z =>
    match m with
    | .ind R =>
      match k with
      | 0#3 => if R = 3#3 then .ok (.ldiDE z) bs else if R = 5#3 then .ok (.ldiIX z) bs else .refuse .undefined
      | 1#3 => if R = 3#3 then .ok (.ldirDE z) bs else if R = 5#3 then .ok (.ldirIX z) bs else .refuse .undefined
      | 2#3 => if R = 3#3 then .ok (.lddDE z) bs else if R = 5#3 then .ok (.lddIX z) bs else .refuse .undefined
      | 3#3 => if R = 3#3 then .ok (.lddrDE z) bs else if R = 5#3 then .ok (.lddrIX z) bs else .refuse .undefined
      | 4#3 => .ok (.cpi z R) bs
      | 5#3 => .ok (.cpir z R) bs
      | 6#3 => .ok (.cpd z R) bs
      | _ => .ok (.cpdr z R) bs
    | _ => .refuse .undefined

/-- Second-opcode map of class SRCMEM at size `sz` and mode `m` (rule R99; refused slots by rule R104). -/
def decodeSrc (sz : Size) (m : Mode) (b : Byte) (bs : List Byte) : Parsed Instr :=
  let k := lo3 b
  match hi5 b with
  | 0b00000#5 =>
    match k with
    | 4#3 => .refuse (.listed "PUSH")
    | 6#3 => .refuse (.listed "RLD")
    | 7#3 => .refuse (.listed "RRD")
    | _ => .refuse .undefined
  | 0b00010#5 => decodeBlock sz m k bs
  | 0b00011#5 =>
    match k with
    | 1#3 => atBW sz fun z => (takeWord bs).bind fun a rest => .ok (.ldDir16Mem z a m) rest
    | _ => .refuse .undefined
  | 0b00100#5 => .ok (.ldRMem sz k m) bs
  | 0b00110#5 => atBW sz fun z => .ok (.exMemR z m k) bs
  | 0b00111#5 =>
    match k with
    | 0#3 => atBW sz fun z => (takeImmBW z bs).bind fun v rest => .ok (.addMemImm m v) rest
    | 1#3 => atBW sz fun z => (takeImmBW z bs).bind fun v rest => .ok (.adcMemImm m v) rest
    | 2#3 => .refuse (.listed "SUB")
    | 3#3 => .refuse (.listed "SBC")
    | 4#3 => atBW sz fun z => (takeImmBW z bs).bind fun v rest => .ok (.andMemImm m v) rest
    | 5#3 => .refuse (.listed "XOR")
    | 6#3 => .refuse (.listed "OR")
    | _ => atBW sz fun z => (takeImmBW z bs).bind fun v rest => .ok (.cpMemImm m v) rest
  | 0b01000#5 => .refuse (.listed "MUL")
  | 0b01001#5 => .refuse (.listed "MULS")
  | 0b01010#5 => atBW sz fun z => okIf (R3.dividend z k) (.divRMem z k m) bs
  | 0b01011#5 => atBW sz fun z => okIf (R3.dividend z k) (.divsRMem z k m) bs
  | 0b01100#5 => atBW sz fun z => .ok (.inc3Mem z k m) bs
  | 0b01101#5 => atBW sz fun z => .ok (.dec3Mem z k m) bs
  | 0b01111#5 => .refuse (.listed (shiftName k))
  | 0b10000#5 => .ok (.addRMem sz k m) bs
  | 0b10001#5 => .ok (.addMemR sz m k) bs
  | 0b10010#5 => .ok (.adcRMem sz k m) bs
  | 0b10011#5 => .ok (.adcMemR sz m k) bs
  | 0b10100#5 => .refuse (.listed "SUB")
  | 0b10101#5 => .refuse (.listed "SUB")
  | 0b10110#5 => .refuse (.listed "SBC")
  | 0b10111#5 => .refuse (.listed "SBC")
  | 0b11000#5 => .ok (.andRMem sz k m) bs
  | 0b11001#5 => .ok (.andMemR sz m k) bs
  | 0b11010#5 => .refuse (.listed "XOR")
  | 0b11011#5 => .refuse (.listed "XOR")
  | 0b11100#5 => .refuse (.listed "OR")
  | 0b11101#5 => .refuse (.listed "OR")
  | 0b11110#5 => .ok (.cpRMem sz k m) bs
  | 0b11111#5 => .ok (.cpMemR sz m k) bs
  | _ => .refuse .undefined

/-- JP, CALL and LDA do not take a stepping mode (rules R131, R292, R297, decision D14). -/
def ifNotStepping (m : Mode) (p : Parsed Instr) : Parsed Instr :=
  if m.steps then .refuse .notAdmitted else p

/-- Second-opcode map of class DSTMEM at mode `m` (rule R100; refused slots by rule R104, of which the slot
F0H to FFH belongs to first byte B0H, the mode (XWA)). -/
def decodeDst (m : Mode) (b : Byte) (bs : List Byte) : Parsed Instr :=
  let k := lo3 b
  match hi5 b with
  | 0b00000#5 =>
    match k with
    | 0#3 => (takeByte bs).bind fun v rest => .ok (.ldMemImmB m v) rest
    | 2#3 => (takeWord bs).bind fun v rest => .ok (.ldMemImmW m v) rest
    | 4#3 => .refuse (.listed "POP")
    | 6#3 => .refuse (.listed "POP")
    | _ => .refuse .undefined
  | 0b00010#5 =>
    match k with
    | 4#3 => (takeWord bs).bind fun a rest => .ok (.ldMemDir16B m a) rest
    | 6#3 => (takeWord bs).bind fun a rest => .ok (.ldMemDir16W m a) rest
    | _ => .refuse .undefined
  | 0b00100#5 => ifNotStepping m (.ok (.ldaW k m) bs)
  | 0b00101#5 =>
    match k with
    | 0#3 => .ok (.andcfAMem m) bs
    | 1#3 => .refuse (.listed "ORCF")
    | 2#3 => .refuse (.listed "XORCF")
    | 3#3 => .ok (.ldcfAMem m) bs
    | 4#3 => .refuse (.listed "STCF")
    | _ => .refuse .undefined
  | 0b00110#5 => ifNotStepping m (.ok (.ldaL k m) bs)
  | 0b01000#5 => .ok (.ldMemRB m k) bs
  | 0b01010#5 => .ok (.ldMemRW m k) bs
  | 0b01100#5 => .ok (.ldMemRL m k) bs
  | 0b10000#5 => .ok (.andcf3Mem k m) bs
  | 0b10001#5 => .refuse (.listed "ORCF")
  | 0b10010#5 => .refuse (.listed "XORCF")
  | 0b10011#5 => .ok (.ldcf3Mem k m) bs
  | 0b10100#5 => .refuse (.listed "STCF")
  | 0b10101#5 => .refuse (.listed "TSET")
  | 0b10110#5 => .refuse (.listed "RES")
  | 0b10111#5 => .refuse (.listed "SET")
  | 0b11000#5 => .ok (.chg3Mem k m) bs
  | 0b11001#5 => .ok (.bit3Mem k m) bs
  | 0b11010#5 => ifNotStepping m (.ok (.jpMem (condOfCode (lo4 b)) m) bs)
  | 0b11011#5 => ifNotStepping m (.ok (.jpMem (condOfCode (lo4 b)) m) bs)
  | 0b11100#5 => ifNotStepping m (.ok (.callMem (condOfCode (lo4 b)) m) bs)
  | 0b11101#5 => ifNotStepping m (.ok (.callMem (condOfCode (lo4 b)) m) bs)
  | 0b11110#5 => .refuse (if m = .ind 0#3 then .listed "RET" else .undefined)
  | 0b11111#5 => .refuse (if m = .ind 0#3 then .listed "RET" else .undefined)
  | _ => .refuse .undefined

/-- LDAR after its bytes F3H, 13H: the displacement, then `001s0RRR` (rules R88, R132). -/
def decodeLdar (bs : List Byte) : Parsed Instr :=
  (takeWord bs).bind fun d rest =>
    (takeByte rest).bind fun b rest =>
      match hi5 b with
      | 0b00100#5 => .ok (.ldar .word (lo3 b) d) rest
      | 0b00110#5 => .ok (.ldar .long (lo3 b) d) rest
      | _ => .refuse .undefined

/-- A first byte of a memory class with size bits `zz`: SRCMEM for a size, DSTMEM for 11 (rules R81, R86, R87).
After F3H the mode byte 13H belongs to LDAR alone (rule R88). -/
def decodeMem (b : Byte) (bs : List Byte) : Parsed Instr :=
  match sizeOfCode (b.extractLsb' 4 2) with
  | some sz =>
    (takeMode (b.extractLsb' 6 1) (lo4 b) bs).bind fun m rest =>
      (takeByte rest).bind fun op rest => decodeSrc sz m op rest
  | none =>
    if b = 0xF3#8 ∧ bs.head? = some 0x13#8 then decodeLdar bs.tail
    else
      (takeMode (b.extractLsb' 6 1) (lo4 b) bs).bind fun m rest =>
        (takeByte rest).bind fun op rest => decodeDst m op rest

/-- The decoder: the four classes of rule R81. Bytes are judged in address order, so where a register code or a mode byte
is undefined and the second opcode is a listed-only slot, both refusals of rule R112 fit and the undefined encoding is
reported. DESIGN CHOICE, log entry 26. -/
def decode (bytes : List Byte) : Parsed Instr :=
  (takeByte bytes).bind fun b bs =>
    if b.getLsbD 7 = false then decodeS b bs
    else if b.getLsbD 6 = false then decodeMem b bs
    else
      match sizeOfCode (b.extractLsb' 4 2) with
      | some sz =>
        if b.getLsbD 3 then
          (takeByte bs).bind fun op rest => decodeReg sz (.short (lo3 b)) op rest
        else if lo3 b = 7#3 then
          (takeReg sz bs).bind fun c rest => (takeByte rest).bind fun op rest => decodeReg sz (.ext c) op rest
        else decodeMem b bs
      | none =>
        if b.getLsbD 3 then .refuse (.listed "SWI")
        else if lo3 b = 7#3 then .refuse (.listed "LDX")
        else decodeMem b bs

/-! ## The encoder -/

def wordBytes (v : Word) : List Byte := [v.extractLsb' 0 8, v.extractLsb' 8 8]

def bytes24 (v : BitVec 24) : List Byte := [v.extractLsb' 0 8, v.extractLsb' 8 8, v.extractLsb' 16 8]

def longBytes (v : Long) : List Byte :=
  [v.extractLsb' 0 8, v.extractLsb' 8 8, v.extractLsb' 16 8, v.extractLsb' 24 8]

def Imm.bytes : Imm → List Byte
  | .b v => [v]
  | .w v => wordBytes v
  | .l v => longBytes v

def ImmBW.bytes : ImmBW → List Byte
  | .b v => [v]
  | .w v => wordBytes v

/-- First byte, and register code byte in the extended form, of class REG (rules R84, R85). -/
def encodeReg1 (sz : Size) : RegOp → List Byte
  | .short k => [0b11#2 ++ codeOfSize sz ++ 0b1#1 ++ k]
  | .ext c => [0b11#2 ++ codeOfSize sz ++ 0b0111#4, codeOfReg c]

/-- Class REG: first byte, second opcode byte, operand bytes (rule R98). -/
def encodeReg (sz : Size) (r : RegOp) (op : Byte) (operand : List Byte) : List Byte :=
  encodeReg1 sz r ++ op :: operand

/-- Bit 6 and bits 3:0 of the first byte for a mode (rule R88). -/
def modeBits : Mode → BitVec 1 × BitVec 4
  | .ind k => (0#1, 0#1 ++ k)
  | .disp8 k _ => (0#1, 1#1 ++ k)
  | .abs8 _ => (1#1, 0#4)
  | .abs16 _ => (1#1, 1#4)
  | .abs24 _ => (1#1, 2#4)
  | .ind32 _ => (1#1, 3#4)
  | .disp16 _ _ => (1#1, 3#4)
  | .index8 _ _ => (1#1, 3#4)
  | .index16 _ _ => (1#1, 3#4)
  | .preDec _ _ => (1#1, 4#4)
  | .postInc _ _ => (1#1, 5#4)

/-- The extension bytes of a mode (rule R88). -/
def modeExt : Mode → List Byte
  | .ind _ => []
  | .disp8 _ d => [d]
  | .abs8 a => [a]
  | .abs16 a => wordBytes a
  | .abs24 a => bytes24 a
  | .ind32 r => [codeOfRow r ++ 0#2]
  | .disp16 r d => (codeOfRow r ++ 1#2) :: wordBytes d
  | .index8 r i => [0x03#8, codeOfRow r ++ 0#2, codeOfReg i]
  | .index16 r i => [0x07#8, codeOfRow r ++ 0#2, codeOfReg i]
  | .preDec r z => [codeOfRow r ++ codeOfStep z]
  | .postInc r z => [codeOfRow r ++ codeOfStep z]

/-- A memory class: first byte with size bits `zz`, extension bytes, second opcode byte, operand bytes (rules R86,
R87). -/
def encodeMem (zz : BitVec 2) (m : Mode) (op : Byte) (operand : List Byte) : List Byte :=
  ((0b1#1 ++ (modeBits m).1 ++ zz ++ (modeBits m).2) :: modeExt m) ++ op :: operand

def encodeSrc (sz : Size) (m : Mode) (op : Byte) (operand : List Byte) : List Byte :=
  encodeMem (codeOfSize sz) m op operand

def encodeDst (m : Mode) (op : Byte) (operand : List Byte) : List Byte := encodeMem 0b11#2 m op operand

/-- A block instruction: a plain indirect first byte and the second opcode byte (rules R102, R160). -/
def encodeBlock (sz : BW) (R : R3) (op : Byte) : List Byte := encodeSrc sz.size (.ind R) op []

/-- The words of an instruction, from the encoding tables of rules R97 to R103. -/
def encode : Instr → List Byte
  | .halt => [0x05#8]
  | .ei n => [0x06#8, 0#5 ++ n]
  | .di => [0x06#8, 0x07#8]
  | .ldDir8B a v => [0x08#8, a, v]
  | .ldDir8W a v => 0x0A#8 :: a :: wordBytes v
  | .incf => [0x0C#8]
  | .decf => [0x0D#8]
  | .ccf => [0x12#8]
  | .exFF => [0x16#8]
  | .ldf n => [0x17#8, 0#5 ++ n]
  | .jp16 a => 0x1A#8 :: wordBytes a
  | .jp24 a => 0x1B#8 :: bytes24 a
  | .call16 a => 0x1C#8 :: wordBytes a
  | .call24 a => 0x1D#8 :: bytes24 a
  | .calr d => 0x1E#8 :: wordBytes d
  | .ldRImmB R v => [0b00100#5 ++ R, v]
  | .ldRImmW R v => (0b00110#5 ++ R) :: wordBytes v
  | .ldRImmL R v => (0b01000#5 ++ R) :: longBytes v
  | .jr cc d => [0b0110#4 ++ codeOfCond cc, d]
  | .jrl cc d => (0b0111#4 ++ codeOfCond cc) :: wordBytes d
  | .ldrImm r v => encodeReg v.size r 0x03#8 v.bytes
  | .cpl sz r => encodeReg sz.size r 0x06#8 []
  | .divrImm rr v => encodeReg v.bw.size rr 0x0A#8 v.bytes
  | .divsrImm rr v => encodeReg v.bw.size rr 0x0B#8 v.bytes
  | .bs1b r => encodeReg .word r 0x0F#8 []
  | .daa r => encodeReg .byte r 0x10#8 []
  | .extz sz r => encodeReg sz.size r 0x12#8 []
  | .exts sz r => encodeReg sz.size r 0x13#8 []
  | .djnz sz r d => encodeReg sz.size r 0x1C#8 [d]
  | .andcf4r sz n r => encodeReg sz.size r 0x20#8 [0#4 ++ n]
  | .ldcf4r sz n r => encodeReg sz.size r 0x23#8 [0#4 ++ n]
  | .andcfAr sz r => encodeReg sz.size r 0x28#8 []
  | .ldcfAr sz r => encodeReg sz.size r 0x2B#8 []
  | .ldcCrR cr r => encodeReg cr.size r 0x2E#8 [codeOfCReg cr]
  | .ldcRCr r cr => encodeReg cr.size r 0x2F#8 [codeOfCReg cr]
  | .chg4r sz n r => encodeReg sz.size r 0x32#8 [0#4 ++ n]
  | .bit4r sz n r => encodeReg sz.size r 0x33#8 [0#4 ++ n]
  | .divRr sz R r => encodeReg sz.size r (0b01010#5 ++ R) []
  | .divsRr sz R r => encodeReg sz.size r (0b01011#5 ++ R) []
  | .inc3r sz n r => encodeReg sz r (0b01100#5 ++ n) []
  | .dec3r sz n r => encodeReg sz r (0b01101#5 ++ n) []
  | .addRr sz R r => encodeReg sz r (0b10000#5 ++ R) []
  | .ldRr sz R r => encodeReg sz r (0b10001#5 ++ R) []
  | .adcRr sz R r => encodeReg sz r (0b10010#5 ++ R) []
  | .ldrR sz r R => encodeReg sz r (0b10011#5 ++ R) []
  | .ldr3 sz r n => encodeReg sz r (0b10101#5 ++ n) []
  | .exRr sz R r => encodeReg sz.size r (0b10111#5 ++ R) []
  | .andRr sz R r => encodeReg sz r (0b11000#5 ++ R) []
  | .addrImm r v => encodeReg v.size r 0xC8#8 v.bytes
  | .adcrImm r v => encodeReg v.size r 0xC9#8 v.bytes
  | .andrImm r v => encodeReg v.size r 0xCC#8 v.bytes
  | .cprImm r v => encodeReg v.size r 0xCF#8 v.bytes
  | .cpr3 sz r n => encodeReg sz.size r (0b11011#5 ++ n) []
  | .cpRr sz R r => encodeReg sz r (0b11110#5 ++ R) []
  | .ldiDE sz => encodeBlock sz 3#3 0x10#8
  | .ldiIX sz => encodeBlock sz 5#3 0x10#8
  | .ldirDE sz => encodeBlock sz 3#3 0x11#8
  | .ldirIX sz => encodeBlock sz 5#3 0x11#8
  | .lddDE sz => encodeBlock sz 3#3 0x12#8
  | .lddIX sz => encodeBlock sz 5#3 0x12#8
  | .lddrDE sz => encodeBlock sz 3#3 0x13#8
  | .lddrIX sz => encodeBlock sz 5#3 0x13#8
  | .cpi sz R => encodeBlock sz R 0x14#8
  | .cpir sz R => encodeBlock sz R 0x15#8
  | .cpd sz R => encodeBlock sz R 0x16#8
  | .cpdr sz R => encodeBlock sz R 0x17#8
  | .ldDir16Mem sz a m => encodeSrc sz.size m 0x19#8 (wordBytes a)
  | .ldRMem sz R m => encodeSrc sz m (0b00100#5 ++ R) []
  | .exMemR sz m R => encodeSrc sz.size m (0b00110#5 ++ R) []
  | .addMemImm m v => encodeSrc v.bw.size m 0x38#8 v.bytes
  | .adcMemImm m v => encodeSrc v.bw.size m 0x39#8 v.bytes
  | .andMemImm m v => encodeSrc v.bw.size m 0x3C#8 v.bytes
  | .cpMemImm m v => encodeSrc v.bw.size m 0x3F#8 v.bytes
  | .divRMem sz R m => encodeSrc sz.size m (0b01010#5 ++ R) []
  | .divsRMem sz R m => encodeSrc sz.size m (0b01011#5 ++ R) []
  | .inc3Mem sz n m => encodeSrc sz.size m (0b01100#5 ++ n) []
  | .dec3Mem sz n m => encodeSrc sz.size m (0b01101#5 ++ n) []
  | .addRMem sz R m => encodeSrc sz m (0b10000#5 ++ R) []
  | .addMemR sz m R => encodeSrc sz m (0b10001#5 ++ R) []
  | .adcRMem sz R m => encodeSrc sz m (0b10010#5 ++ R) []
  | .adcMemR sz m R => encodeSrc sz m (0b10011#5 ++ R) []
  | .andRMem sz R m => encodeSrc sz m (0b11000#5 ++ R) []
  | .andMemR sz m R => encodeSrc sz m (0b11001#5 ++ R) []
  | .cpRMem sz R m => encodeSrc sz m (0b11110#5 ++ R) []
  | .cpMemR sz m R => encodeSrc sz m (0b11111#5 ++ R) []
  | .ldMemImmB m v => encodeDst m 0x00#8 [v]
  | .ldMemImmW m v => encodeDst m 0x02#8 (wordBytes v)
  | .ldMemDir16B m a => encodeDst m 0x14#8 (wordBytes a)
  | .ldMemDir16W m a => encodeDst m 0x16#8 (wordBytes a)
  | .ldaW R m => encodeDst m (0b00100#5 ++ R) []
  | .ldaL R m => encodeDst m (0b00110#5 ++ R) []
  | .andcfAMem m => encodeDst m 0x28#8 []
  | .ldcfAMem m => encodeDst m 0x2B#8 []
  | .ldMemRB m R => encodeDst m (0b01000#5 ++ R) []
  | .ldMemRW m R => encodeDst m (0b01010#5 ++ R) []
  | .ldMemRL m R => encodeDst m (0b01100#5 ++ R) []
  | .andcf3Mem n m => encodeDst m (0b10000#5 ++ n) []
  | .ldcf3Mem n m => encodeDst m (0b10011#5 ++ n) []
  | .chg3Mem n m => encodeDst m (0b11000#5 ++ n) []
  | .bit3Mem n m => encodeDst m (0b11001#5 ++ n) []
  | .jpMem cc m => encodeDst m (0b1101#4 ++ codeOfCond cc) []
  | .callMem cc m => encodeDst m (0b1110#4 ++ codeOfCond cc) []
  | .ldar sz R d =>
    [0xF3#8, 0x13#8] ++ wordBytes d ++
      [(match sz with | .word => 0b00100#5 | .long => 0b00110#5) ++ R]

/-! ## The opcode table's numbering -/

/-- The longest instruction (rule R101). -/
def maxLength : Nat := 7

/-- The bytes, in address order, of a word `w` of `nbits` bits numbered as `opcode_table.json` numbers its rows:
the first byte in the high-order position (rule R115). The 24 bits of the LDAR row are its bytes 1, 2 and 5, so
its displacement stands between them. Every byte after the given ones is 0, up to the longest instruction.
DEDUCED, log entry 15. -/
def tableBytes (nbits w : Nat) : List Byte :=
  let n := nbits / 8
  let given := (List.range n).map fun i => BitVec.ofNat 8 (w >>> (8 * (n - 1 - i)))
  let laid := match given with
    | [0xF3#8, 0x13#8, op] => [0xF3#8, 0x13#8, 0#8, 0#8, op]
    | _ => given
  laid ++ List.replicate (maxLength - laid.length) 0#8

/-- The instruction the decoder reads from such a word. -/
def decodeTableWord (nbits w : Nat) : Option Instr :=
  match decode (tableBytes nbits w) with
  | .ok i _ => some i
  | _ => none

end Sys2Proof
end

