-- ==== Sys2Proof/Config.lean ====
section
/-! DEFINITION. What the manual leaves open: the undefined value `UNDEF` (rule R10, decision D10) and the
named start values of the open parameter `RESET_STATE` (rules R38, R340, R341, decision D19). The open parameter
`INTERRUPT_ENTRY`, `Config.interruptEntry`, speaks of states and stands after them in Machine/State.lean. -/

namespace Sys2Proof

/-- The `k`-th undefined value ("不定") a run draws. It has no body: nothing can evaluate it, so a claim that
depends on one is provable only if it holds for every value (rule R10, decision D10; log entry 1). A draw of
fewer than 32 bits keeps the low bits. -/
opaque Config.undef : Nat → Long

/-- `pc` after reset. DESIGN CHOICE, log entry 3: the source gives no entry point (rule R341). -/
def Config.resetPc : Long := 0x1000#32

/-- XSP after reset. PRESUMED, log entry 4: the family's value, which rule R38 quotes for reference. -/
def Config.resetXsp : Long := 0x100#32

/-- `SR.IFF` after reset. PRESUMED, log entry 4: the family's value, which rule R38 quotes for reference. -/
def Config.resetIff : BitVec 3 := 7#3

/-- `SR.RFP` after reset. PRESUMED, log entry 4: the family's value, which rule R38 quotes for reference. -/
def Config.resetRfp : BitVec 2 := 0#2

/-- The open parameter `ADDR_BITS` in the reset state. PRESUMED, log entry 6: the family's 24 (rules R5, R56). -/
def Config.resetAddrBits : Nat := 24

end Sys2Proof
end

