-- ==== Sys2Proof/Machine/State.lean ====
section
/-! DEFINITION. The machine's state as plain data, the ways a step can stop, and the state after reset
(10_state.md, 20_memory.md R53 to R77, 60_exceptions.md R321, R335, 70_reset_and_hazards.md R340). -/

namespace Sys2Proof.Machine

/-- The four registers of one bank (rule R20). -/
structure Bank where
  xwa : Long
  xbc : Long
  xde : Long
  xhl : Long
  deriving DecidableEq, Repr, Inhabited

/-- The twenty general registers (rule R20). -/
structure Regs where
  bank0 : Bank
  bank1 : Bank
  bank2 : Bank
  bank3 : Bank
  xix : Long
  xiy : Long
  xiz : Long
  xsp : Long
  deriving DecidableEq, Repr, Inhabited

/-- The place of one 32-bit general register: what a row of the register map means once the bank is known
(rules R20, R22). -/
inductive Place where
  | bank (n : BitVec 2) (q : Quad)
  | xix
  | xiy
  | xiz
  | xsp
  deriving DecidableEq, Repr

/-- The six flags of F, or of F' (rules R28, R30). -/
structure Flags where
  s : Bool
  z : Bool
  h : Bool
  v : Bool
  n : Bool
  c : Bool
  deriving DecidableEq, Repr, Inhabited

/-- The control registers (rule R34). -/
structure CtrlRegs where
  dmas0 : Long
  dmas1 : Long
  dmas2 : Long
  dmas3 : Long
  dmad0 : Long
  dmad1 : Long
  dmad2 : Long
  dmad3 : Long
  dmac0 : Word
  dmac1 : Word
  dmac2 : Word
  dmac3 : Word
  dmam0 : Byte
  dmam1 : Byte
  dmam2 : Byte
  dmam3 : Byte
  intnest : Word
  deriving DecidableEq, Repr, Inhabited

/-- A range of addresses. -/
structure Region where
  base : Nat
  size : Nat
  deriving DecidableEq, Repr

/-- What a launch fixes for a run: the spec's open parameters `ADDR_BITS`, the addresses that exist, and the program
text (rules R5, R56, R69, R77; log entries 6, 7, 8). No step changes it. -/
structure Launch where
  addrBits : Nat
  present : List Region
  text : List Region
  deriving DecidableEq, Repr

/-- Memory: the bytes that hold a value, addresses strictly rising. An unlisted address holds no value
(rule R39; log entry 7). -/
abbrev Memory := List Host.Cell

/-- The canonical form: addresses strictly rising and inside the 32-bit address space. No entry can equal what an
unlisted address reads as, since that is no value. -/
abbrev Memory.wf (m : Memory) : Prop :=
  m.Pairwise (fun a b => a.1 < b.1) ∧ ∀ c ∈ m, c.1 < 2 ^ 32

/-- An interrupt request: the source that raises it, by a number, and its request level (rules R321, R322). Every
3-bit level is a request, the undescribed level 0 too. DESIGN CHOICE, log entry 12. -/
structure Request where
  source : Nat
  level : BitVec 3
  deriving DecidableEq, Repr, Inhabited

/-- The machine's state. -/
structure State where
  /-- general registers (rule R20) -/
  regs : Regs
  /-- program counter (rule R26) -/
  pc : Long
  /-- flag register F (rule R28) -/
  f : Flags
  /-- back flag register F' (rule R30) -/
  fAlt : Flags
  /-- SR.IFF, the interrupt mask (rule R31) -/
  iff : BitVec 3
  /-- SR.RFP<1:0>; RFP2 is fixed at 0 (rule R31) and read through `State.rfp3` -/
  rfp : BitVec 2
  /-- control registers (rule R34) -/
  cr : CtrlRegs
  /-- halted by HALT (rule R37) -/
  halted : Bool
  /-- the interrupt requests that stand pending; the environment's (rules R37, R321; log entry 12) -/
  pending : List Request
  /-- memory (rule R50) -/
  mem : Memory
  /-- open parameters a launch fixes -/
  launch : Launch
  /-- the model's own: how many undefined values have been drawn (rule R10; log entry 1) -/
  draws : Nat
  deriving DecidableEq, Repr

/-- What an interrupt entry makes of the machine: new register contents, and the bytes it stores, in order. It can
change neither a control register, since nothing but LDC changes one (rules R35, R328, decision D28), nor what the
launch fixes (log entry 24). -/
structure EntryEffect where
  regs : Regs
  pc : Long
  f : Flags
  fAlt : Flags
  iff : BitVec 3
  rfp : BitVec 2
  /-- the requests that stand pending after the entry: how one is cleared is not in the source (rule R321) -/
  pending : List Request
  /-- the bytes stored, such as a saved `pc`, each with its address -/
  stores : List (Long × Byte)
  deriving DecidableEq, Repr, Inhabited

/-- What has no step in the spec: the agent is stuck (rule R346). -/
inductive Fault where
  /-- Raised by a load or store of an address the launch memory does not hold (rule R69). Safe. -/
  | noMemory
  /-- Raised by a load or fetch of a byte that holds no value (rule R39). Safe. -/
  | noValue
  /-- Raised by a fetch outside the program text (rule R346). Safe. -/
  | outsideText
  deriving DecidableEq, Repr

/-- What the spec refuses to give a meaning (rule R112). All are safe: nothing can be claimed of the run after it. -/
inductive Refusal where
  /-- Raised by `exec` for an instruction that has no meaning in the model. Safe. -/
  | notModelled (mnemonic : String)
  /-- Raised by fetch on a slot of an instruction that is listed without a page (rules R104, R112). Safe. -/
  | listedNotSpecified (mnemonic : String)
  /-- Raised by fetch, and by a meaning on an operand the spec refuses, for an undefined encoding (rule R112). Safe. -/
  | undefinedEncoding
  /-- Raised by fetch and by JP, CALL and LDA for a mode that steps its base register (rule R112, decision D14).
  Safe. -/
  | notAdmitted
  /-- Raised by a store into program text (rules R77, R112). Safe. -/
  | storeIntoText
  /-- Raised by an access whose address has a bit at or above `ADDR_BITS` (rule R56). Safe. -/
  | aboveAddrBits
  deriving DecidableEq, Repr

/-- The state after reset. The source states no reset value (rules R38, R340); `halted` is false as rule R38 derives.
Every other value is named in log entries 1 to 8 and 12. -/
def State.reset : State :=
  { regs := {
      bank0 := ⟨0#32, 0#32, 0#32, 0#32⟩
      bank1 := ⟨0#32, 0#32, 0#32, 0#32⟩
      bank2 := ⟨0#32, 0#32, 0#32, 0#32⟩
      bank3 := ⟨0#32, 0#32, 0#32, 0#32⟩
      xix := 0#32
      xiy := 0#32
      xiz := 0#32
      xsp := Config.resetXsp }
    pc := Config.resetPc
    f := ⟨false, false, false, false, false, false⟩
    fAlt := ⟨false, false, false, false, false, false⟩
    iff := Config.resetIff
    rfp := Config.resetRfp
    cr := {
      dmas0 := 0#32, dmas1 := 0#32, dmas2 := 0#32, dmas3 := 0#32
      dmad0 := 0#32, dmad1 := 0#32, dmad2 := 0#32, dmad3 := 0#32
      dmac0 := 0#16, dmac1 := 0#16, dmac2 := 0#16, dmac3 := 0#16
      dmam0 := 0#8, dmam1 := 0#8, dmam2 := 0#8, dmam3 := 0#8
      intnest := 0#16 }
    halted := false
    pending := []
    mem := []
    launch := { addrBits := Config.resetAddrBits, present := [⟨0, 2 ^ Config.resetAddrBits⟩], text := [] }
    draws := 0 }

end Sys2Proof.Machine

namespace Sys2Proof

/-- The open parameter `INTERRUPT_ENTRY` of (state, source, level). It has no body: the source describes no entry, so a
claim about one must hold for every entry (rules R5, R325, decision D17; log entry 24). -/
opaque Config.interruptEntry : Machine.State → Nat → BitVec 3 → Machine.EntryEffect

end Sys2Proof
end

