-- ==== Sys2Proof/Machine/Ops.lean ====
section
/-! DEFINITION. The named operations over registers, memory and `pc` that every meaning is made of: sequencing,
general registers (rules R21 to R25), control registers (R34, R35), memory (R53 to R56, R69, R77), undefined
values (R10), the end of an instruction (R27), the stack (R78), and the acceptance and entry of an interrupt (R322 to
R325). The source defines no synchronous exception (R320), so no instruction has an exception entry, and its one
return instruction, RETI, has no page (R326). -/

namespace Sys2Proof.Machine

/-! ## Sequencing -/

/-- A value, or the reason the step stops. -/
abbrev Res (α : Type) := Host.Outcome α Fault Refusal

/-- Goes on with the value; a stop stays a stop. -/
def andThen {α β : Type} (r : Res α) (k : α → Res β) : Res β :=
  match r with
  | .next a => k a
  | .fault e => .fault e
  | .refused e => .refused e

/-! ## General registers -/

def Bank.get (b : Bank) : Quad → Long
  | .xwa => b.xwa
  | .xbc => b.xbc
  | .xde => b.xde
  | .xhl => b.xhl

def Bank.set (b : Bank) (q : Quad) (v : Long) : Bank :=
  match q with
  | .xwa => { b with xwa := v }
  | .xbc => { b with xbc := v }
  | .xde => { b with xde := v }
  | .xhl => { b with xhl := v }

/-- Bank `n` (rule R20). -/
def Regs.bank (r : Regs) (n : BitVec 2) : Bank :=
  match n with
  | 0#2 => r.bank0
  | 1#2 => r.bank1
  | 2#2 => r.bank2
  | _ => r.bank3

def Regs.setBank (r : Regs) (n : BitVec 2) (b : Bank) : Regs :=
  match n with
  | 0#2 => { r with bank0 := b }
  | 1#2 => { r with bank1 := b }
  | 2#2 => { r with bank2 := b }
  | _ => { r with bank3 := b }

/-- The 32-bit register at a place. -/
def Regs.get (r : Regs) : Place → Long
  | .bank n q => (r.bank n).get q
  | .xix => r.xix
  | .xiy => r.xiy
  | .xiz => r.xiz
  | .xsp => r.xsp

def Regs.set (r : Regs) (p : Place) (v : Long) : Regs :=
  match p with
  | .bank n q => r.setBank n ((r.bank n).set q v)
  | .xix => { r with xix := v }
  | .xiy => { r with xiy := v }
  | .xiz => { r with xiz := v }
  | .xsp => { r with xsp := v }

/-- SR.RFP<2:0>, whose bit 2 always reads 0 (rule R31). -/
def State.rfp3 (s : State) : BitVec 3 := 0#1 ++ s.rfp

/-- Writes SR.RFP; a write to bit 2 is ignored (rule R31). -/
def setRfp (v : BitVec 3) (s : State) : State := { s with rfp := v.extractLsb' 0 2 }

/-- The bank a register name means (rules R22, R32; previous bank by decision D6). -/
def bankNumber (s : State) : BankSel → BitVec 2
  | .num n => n
  | .prev => s.rfp - 1#2
  | .cur => s.rfp

/-- The register that a row of the map means in this state (rule R24). -/
def placeOf (s : State) : Row → Place
  | .bank b q => .bank (bankNumber s b) q
  | .xix => .xix
  | .xiy => .xiy
  | .xiz => .xiz
  | .xsp => .xsp

/-- The part of size `sz` at byte offset `off` of a 32-bit register; offset 0 is the least significant byte
(rule R21, decision D5). A word uses offset bit 1 only, a long none (rule R25). -/
def getPart (sz : Size) (off : BitVec 2) (v : Long) : BitVec sz.bits :=
  match sz with
  | .byte => v.extractLsb' (8 * off.toNat) 8
  | .word => v.extractLsb' (16 * (off.toNat / 2)) 16
  | .long => v

/-- `v` with one byte replaced. -/
def setByte (off : BitVec 2) (v : Long) (x : Byte) : Long :=
  match off with
  | 0#2 => v.extractLsb' 8 24 ++ x
  | 1#2 => v.extractLsb' 16 16 ++ x ++ v.extractLsb' 0 8
  | 2#2 => v.extractLsb' 24 8 ++ x ++ v.extractLsb' 0 16
  | _ => x ++ v.extractLsb' 0 24

/-- `v` with one word replaced. -/
def setWord (off : BitVec 2) (v : Long) (x : Word) : Long :=
  match off with
  | 0#2 => v.extractLsb' 16 16 ++ x
  | 1#2 => v.extractLsb' 16 16 ++ x
  | _ => x ++ v.extractLsb' 0 16

/-- `v` with the part of size `sz` at `off` replaced, the other bits unchanged (rule R21). -/
def setPart (sz : Size) (off : BitVec 2) (v : Long) (x : BitVec sz.bits) : Long :=
  match sz with
  | .byte => setByte off v x
  | .word => setWord off v x
  | .long => x

/-- `reg_N(c)` (rules R10, R24). -/
def readReg (sz : Size) (c : RegCode) (s : State) : BitVec sz.bits :=
  getPart sz c.off (s.regs.get (placeOf s c.row))

/-- `reg_N(c) <- x` (rules R10, R24). -/
def writeReg (sz : Size) (c : RegCode) (x : BitVec sz.bits) (s : State) : State :=
  { s with regs := s.regs.set (placeOf s c.row) (setPart sz c.off (s.regs.get (placeOf s c.row)) x) }

/-- The 8-bit code of the 3-bit code `k` at a size (rule R23). -/
def code3 (sz : Size) (k : R3) : RegCode :=
  match sz with
  | .byte => ⟨.bank .cur (quadOfCode (k.extractLsb' 1 2)), if k.getLsbD 0 then 0#2 else 1#2⟩
  | _ =>
    match k with
    | 0#3 => ⟨.bank .cur .xwa, 0#2⟩
    | 1#3 => ⟨.bank .cur .xbc, 0#2⟩
    | 2#3 => ⟨.bank .cur .xde, 0#2⟩
    | 3#3 => ⟨.bank .cur .xhl, 0#2⟩
    | 4#3 => ⟨.xix, 0#2⟩
    | 5#3 => ⟨.xiy, 0#2⟩
    | 6#3 => ⟨.xiz, 0#2⟩
    | _ => ⟨.xsp, 0#2⟩

/-- The 8-bit code an operand `r` means (rules R84, R85). -/
def codeOf (sz : Size) : RegOp → RegCode
  | .short k => code3 sz k
  | .ext c => c

/-- `R_N(k)` (rule R10). -/
def readR (sz : Size) (k : R3) (s : State) : BitVec sz.bits := readReg sz (code3 sz k) s

/-- `R_N(k) <- x` (rule R10). -/
def writeR (sz : Size) (k : R3) (x : BitVec sz.bits) (s : State) : State := writeReg sz (code3 sz k) x s

/-- The value of an operand `r`. -/
def readOp (sz : Size) (r : RegOp) (s : State) : BitVec sz.bits := readReg sz (codeOf sz r) s

def writeOp (sz : Size) (r : RegOp) (x : BitVec sz.bits) (s : State) : State := writeReg sz (codeOf sz r) x s

/-- The long register of a row: `reg_32(r32' << 2)` (rule R63). -/
def readRow (r : Row) (s : State) : Long := readReg .long ⟨r, 0#2⟩ s

def writeRow (r : Row) (x : Long) (s : State) : State := writeReg .long ⟨r, 0#2⟩ x s

/-- The current bank's A (byte) or WA (word) (rules R22, R23). -/
def codeA : RegCode := ⟨.bank .cur .xwa, 0#2⟩

/-- The current bank's BC, the counter of the block instructions (rules R22, R150). -/
def codeBC : RegCode := ⟨.bank .cur .xbc, 0#2⟩

/-! ## Control registers (rules R34, R35): plain storage -/

def readCr (c : CReg) (r : CtrlRegs) : BitVec c.size.bits :=
  match c with
  | .dmas 0#2 => r.dmas0
  | .dmas 1#2 => r.dmas1
  | .dmas 2#2 => r.dmas2
  | .dmas _ => r.dmas3
  | .dmad 0#2 => r.dmad0
  | .dmad 1#2 => r.dmad1
  | .dmad 2#2 => r.dmad2
  | .dmad _ => r.dmad3
  | .dmac 0#2 => r.dmac0
  | .dmac 1#2 => r.dmac1
  | .dmac 2#2 => r.dmac2
  | .dmac _ => r.dmac3
  | .dmam 0#2 => r.dmam0
  | .dmam 1#2 => r.dmam1
  | .dmam 2#2 => r.dmam2
  | .dmam _ => r.dmam3
  | .intnest => r.intnest

def writeCr (c : CReg) (x : BitVec c.size.bits) (r : CtrlRegs) : CtrlRegs :=
  match c with
  | .dmas 0#2 => { r with dmas0 := x }
  | .dmas 1#2 => { r with dmas1 := x }
  | .dmas 2#2 => { r with dmas2 := x }
  | .dmas _ => { r with dmas3 := x }
  | .dmad 0#2 => { r with dmad0 := x }
  | .dmad 1#2 => { r with dmad1 := x }
  | .dmad 2#2 => { r with dmad2 := x }
  | .dmad _ => { r with dmad3 := x }
  | .dmac 0#2 => { r with dmac0 := x }
  | .dmac 1#2 => { r with dmac1 := x }
  | .dmac 2#2 => { r with dmac2 := x }
  | .dmac _ => { r with dmac3 := x }
  | .dmam 0#2 => { r with dmam0 := x }
  | .dmam 1#2 => { r with dmam1 := x }
  | .dmam 2#2 => { r with dmam2 := x }
  | .dmam _ => { r with dmam3 := x }
  | .intnest => { r with intnest := x }

/-! ## Memory -/

/-- The byte at an address, if one is listed. -/
def Memory.read (m : Memory) (a : Nat) : Option Byte :=
  match m with
  | [] => none
  | c :: rest => if a = c.1 then some c.2 else Memory.read rest a

/-- Sets the byte at an address, keeping the addresses strictly rising. -/
def Memory.write (m : Memory) (a : Nat) (b : Byte) : Memory :=
  match m with
  | [] => [(a, b)]
  | c :: rest =>
    if a < c.1 then (a, b) :: c :: rest
    else if a = c.1 then (a, b) :: rest
    else c :: Memory.write rest a b

def Region.has (r : Region) (a : Nat) : Bool := r.base ≤ a && a < r.base + r.size

/-- The launch memory holds the address (rule R69). -/
def Launch.has (l : Launch) (a : Nat) : Bool := l.present.any (·.has a)

/-- The address belongs to the program text (rule R77). -/
def Launch.inText (l : Launch) (a : Nat) : Bool := l.text.any (·.has a)

/-- Goes on when the address reaches memory: refused when a bit at or above `ADDR_BITS` is set (rule R56), stuck when
the launch memory does not hold it (rule R69). -/
def atAddress {α : Type} (a : Long) (s : State) (k : Res α) : Res α :=
  if 2 ^ s.launch.addrBits ≤ a.toNat then .refused .aboveAddrBits
  else if s.launch.has a.toNat then k
  else .fault .noMemory

/-- Reads one byte; a byte without a value is a fault (rule R39). -/
def loadByte (a : Long) (s : State) : Res Byte :=
  atAddress a s
    (match s.mem.read a.toNat with
     | some b => .next b
     | none => .fault .noValue)

/-- Writes one byte; a store into program text is refused (rule R77). -/
def storeByte (a : Long) (b : Byte) (s : State) : Res State :=
  atAddress a s
    (if s.launch.inText a.toNat then .refused .storeIntoText
     else .next { s with mem := s.mem.write a.toNat b })

/-- `MemRead(a, N/8)`: little-endian, any alignment, addresses modulo 2^32 (rules R53, R54). -/
def load (sz : Size) (a : Long) (s : State) : Res (BitVec sz.bits) :=
  match sz with
  | .byte => loadByte a s
  | .word =>
    andThen (loadByte a s) fun b0 => andThen (loadByte (a + 1#32) s) fun b1 => .next (b1 ++ b0)
  | .long =>
    andThen (loadByte a s) fun b0 => andThen (loadByte (a + 1#32) s) fun b1 =>
      andThen (loadByte (a + 2#32) s) fun b2 => andThen (loadByte (a + 3#32) s) fun b3 =>
        .next (b3 ++ b2 ++ b1 ++ b0)

/-- Byte `i` of a value, byte 0 the least significant. -/
def byteOf {n : Nat} (v : BitVec n) (i : Nat) : Byte := v.extractLsb' (8 * i) 8

/-- `MemWrite(a, N/8, v)`: little-endian, any alignment, addresses modulo 2^32 (rules R53, R54). -/
def store (sz : Size) (a : Long) (v : BitVec sz.bits) (s : State) : Res State :=
  match sz with
  | .byte => storeByte a v s
  | .word => andThen (storeByte a (byteOf v 0) s) fun s => storeByte (a + 1#32) (byteOf v 1) s
  | .long =>
    andThen (storeByte a (byteOf v 0) s) fun s =>
      andThen (storeByte (a + 1#32) (byteOf v 1) s) fun s =>
        andThen (storeByte (a + 2#32) (byteOf v 2) s) fun s => storeByte (a + 3#32) (byteOf v 3) s

/-! ## Undefined values (rule R10, decision D10; log entry 1) -/

/-- The `k`-th next undefined value, `N` bits. -/
def undefVal (n k : Nat) (s : State) : BitVec n := (Config.undef (s.draws + k)).setWidth n

/-- The `k`-th next undefined value as one bit. -/
def undefBit (k : Nat) (s : State) : Bool := (Config.undef (s.draws + k)).getLsbD 0

/-- Moves past `k` draws. -/
def drawn (k : Nat) (s : State) : State := { s with draws := s.draws + k }

/-! ## The end of an instruction -/

/-- `pc <- $ + len` (rule R27). No operation before it changes `pc`, so `s.pc` is `$`. -/
def advance (len : Nat) (s : State) : State := { s with pc := s.pc + BitVec.ofNat 32 len }

/-- `pc <- target` (rule R27). -/
def jumpTo (target : Long) (s : State) : State := { s with pc := target }

/-- `XSP <- XSP - 4 ; MemWrite(XSP, 4, v)` (rule R78). -/
def pushLong (v : Long) (s : State) : Res State :=
  let sp := readRow .xsp s - 4#32
  store .long sp v (writeRow .xsp sp s)

/-! ## Interrupts -/

/-- A pending request is accepted when its level is at least SR.IFF (rule R322). A request of level 0, which the rule
leaves undescribed, is accepted by the same test when SR.IFF is 0. DESIGN CHOICE, log entry 12. -/
def acceptable (s : State) (r : Request) : Bool := s.iff ≤ r.level

/-- Some pending request is accepted. -/
def interruptAccepted (s : State) : Bool := s.pending.any (acceptable s)

/-- The request a step accepts, if it accepts one. Among several the source gives no order beyond the mask, so a free
value chooses (rules R322, R327). DESIGN CHOICE, log entry 25. -/
def acceptedRequest (s : State) : Option Request :=
  match s.pending.filter (acceptable s) with
  | [] => none
  | r :: rest => some ((r :: rest).getD ((undefVal 32 0 s).toNat % (rest.length + 1)) r)

/-- Stores bytes one after another. -/
def storeAll : List (Long × Byte) → State → Res State
  | [], s => .next s
  | c :: rest, s => andThen (storeByte c.1 c.2 s) (storeAll rest)

/-- Interrupt entry: the effect of the open parameter `INTERRUPT_ENTRY`, its stores made like every other store. It
clears `halted` and keeps every control register, INTNEST too (rules R325, R328, R335, decisions D17, D28; log entry
24). -/
def takeInterrupt (r : Request) (s : State) : Res State :=
  let e := Config.interruptEntry s r.source r.level
  andThen (storeAll e.stores s) fun t =>
    .next (drawn 1 { t with
      regs := e.regs, pc := e.pc, f := e.f, fAlt := e.fAlt, iff := e.iff, rfp := e.rfp
      halted := false, pending := e.pending })

end Sys2Proof.Machine
end

