-- ==== Sys2Proof/Machine/Flags.lean ====
section
/-! DEFINITION. Every flag computation: `add_N`, `sub_N` and parity (rules R10, R11), the flag rules of ADD, ADC, CP,
INC, DEC and AND (R161 to R164, R186, R218), the condition codes (R96), decimal adjustment (R192), division
(R196, R200), and the bit tests (R229, R233, R234). -/

namespace Sys2Proof.Machine

/-! ## Addition and subtraction (rule R11) -/

/-- A result with its flag values. -/
structure Alu (n : Nat) where
  res : BitVec n
  s : Bool
  z : Bool
  h : Bool
  v : Bool
  c : Bool
  deriving DecidableEq, Repr

/-- `add_N(a, b, c)` (rule R11; V by decision D30). -/
def addN {n : Nat} (a b : BitVec n) (c : Bool) : Alu n :=
  let full := a.toNat + b.toNat + c.toNat
  let res := BitVec.ofNat n full
  { res := res
    s := res.msb
    z := res == 0
    h := 0xF < a.toNat % 16 + b.toNat % 16 + c.toNat
    v := a.msb == b.msb && res.msb != a.msb
    c := 2 ^ n ≤ full }

/-- `sub_N(a, b, c)` (rule R11; V by decision D30). -/
def subN {n : Nat} (a b : BitVec n) (c : Bool) : Alu n :=
  let full : Int := (a.toNat : Int) - b.toNat - c.toNat
  let res := BitVec.ofInt n full
  { res := res
    s := res.msb
    z := res == 0
    h := a.toNat % 16 < b.toNat % 16 + c.toNat
    v := a.msb != b.msb && res.msb != a.msb
    c := full < 0 }

/-- Number of 1 bits among the low `k` bits. -/
def onesBelow {n : Nat} (v : BitVec n) : Nat → Nat
  | 0 => 0
  | k + 1 => (v.getLsbD k).toNat + onesBelow v k

/-- `parity_even_N(v)` (rule R10). -/
def parityEven {n : Nat} (v : BitVec n) : Bool := onesBelow v n % 2 == 0

/-- The flags of ADD, ADC and CP; at long size H is undefined (rules R161, R162, R163). `sub` is the new N. -/
def arithFlags (sz : Size) (o : Alu sz.bits) (sub : Bool) (s : State) : State :=
  if sz = .long then
    drawn 1 { s with f := ⟨o.s, o.z, undefBit 0 s, o.v, sub, o.c⟩ }
  else { s with f := ⟨o.s, o.z, o.h, o.v, sub, o.c⟩ }

/-- The flags of INC and DEC: C is unchanged (rules R186 to R189). -/
def countFlags {n : Nat} (o : Alu n) (sub : Bool) (s : State) : State :=
  { s with f := ⟨o.s, o.z, o.h, o.v, sub, s.f.c⟩ }

/-- The flags of AND; at long size V is undefined (rule R218). -/
def andFlags (sz : Size) (res : BitVec sz.bits) (s : State) : State :=
  if sz = .long then
    drawn 1 { s with f := ⟨res.msb, res == 0, true, undefBit 0 s, false, false⟩ }
  else { s with f := ⟨res.msb, res == 0, true, parityEven res, false, false⟩ }

/-- A two-operand operation: result and the state with its flags. -/
abbrev BinOp := (sz : Size) → BitVec sz.bits → BitVec sz.bits → State → BitVec sz.bits × State

/-- The ADD operation (rule R161). -/
def addOp : BinOp := fun sz a b s => ((addN a b false).res, arithFlags sz (addN a b false) false s)

/-- The ADC operation, with F.C read before any flag is written (rule R162). -/
def adcOp : BinOp := fun sz a b s => ((addN a b s.f.c).res, arithFlags sz (addN a b s.f.c) false s)

/-- The AND operation (rule R218). -/
def andOp : BinOp := fun sz a b s => (a &&& b, andFlags sz (a &&& b) s)

/-- The CP operation, which writes flags only (rule R163). -/
def cpOp (sz : Size) (a b : BitVec sz.bits) (s : State) : State := arithFlags sz (subN a b false) true s

/-- The count of INC and DEC: field 0 means 8 (rule R164). -/
def countOf (k : BitVec 3) : Nat := if k = 0#3 then 8 else k.toNat

/-! ## Condition codes (rule R96) -/

/-- `cond(cc)` on the flags. -/
def condTrue (cc : Cond) (f : Flags) : Bool :=
  match cc with
  | .f => false
  | .lt => f.s ^^ f.v
  | .le => f.z || (f.s ^^ f.v)
  | .ule => f.c || f.z
  | .ov => f.v
  | .mi => f.s
  | .z => f.z
  | .c => f.c
  | .t => true
  | .ge => !(f.s ^^ f.v)
  | .gt => !(f.z || (f.s ^^ f.v))
  | .ugt => !(f.c || f.z)
  | .nov => !f.v
  | .pl => !f.s
  | .nz => !f.z
  | .nc => !f.c

/-! ## Decimal adjustment (rule R192) -/

/-- A row of the DAA table: N and C before, range of the upper nibble, H before, range of the lower nibble, the number
added, C after. -/
structure DaaRow where
  n : Bool
  c : Bool
  uLo : Nat
  uHi : Nat
  h : Bool
  lLo : Nat
  lHi : Nat
  added : Byte
  cAfter : Bool
  deriving DecidableEq, Repr

/-- The thirteen rows (rule R192; C after on the N = 1 rows by conflict C7). -/
def daaTable : List DaaRow :=
  [ ⟨false, false, 0, 9, false, 0, 9, 0x00#8, false⟩,
    ⟨false, false, 0, 8, false, 10, 15, 0x06#8, false⟩,
    ⟨false, false, 0, 9, true, 0, 3, 0x06#8, false⟩,
    ⟨false, false, 10, 15, false, 0, 9, 0x60#8, true⟩,
    ⟨false, false, 9, 15, false, 10, 15, 0x66#8, true⟩,
    ⟨false, false, 10, 15, true, 0, 3, 0x66#8, true⟩,
    ⟨false, true, 0, 2, false, 0, 9, 0x60#8, true⟩,
    ⟨false, true, 0, 2, false, 10, 15, 0x66#8, true⟩,
    ⟨false, true, 0, 3, true, 0, 3, 0x66#8, true⟩,
    ⟨true, false, 0, 9, false, 0, 9, 0x00#8, false⟩,
    ⟨true, false, 0, 8, true, 6, 15, 0xFA#8, false⟩,
    ⟨true, true, 7, 15, false, 0, 9, 0xA0#8, true⟩,
    ⟨true, true, 6, 15, true, 6, 15, 0x9A#8, true⟩ ]

/-- The row matches the flags and the two nibbles of `d`. -/
def DaaRow.matches (r : DaaRow) (f : Flags) (d : Byte) : Bool :=
  let hi := d.toNat / 16
  let lo := d.toNat % 16
  r.n == f.n && r.c == f.c && r.h == f.h && r.uLo ≤ hi && hi ≤ r.uHi && r.lLo ≤ lo && lo ≤ r.lHi

/-- DAA: the new byte and the state with its flags. Outside the table every output is undefined, and H is undefined on
the rows with N = 1 (rule R192, decision D22). -/
def daaOp (d : Byte) (s : State) : Byte × State :=
  match daaTable.find? (·.matches s.f d) with
  | some r =>
    let res := d + r.added
    let f : Flags := { s.f with s := res.msb, z := res == 0, v := parityEven res, c := r.cAfter }
    if s.f.n then (res, drawn 1 { s with f := { f with h := undefBit 0 s } })
    else (res, { s with f := { f with h := 0xF < d.toNat % 16 + r.added.toNat % 16 } })
  | none =>
    ( undefVal 8 0 s,
      drawn 6 { s with f := { s.f with s := undefBit 1 s, z := undefBit 2 s, h := undefBit 3 s,
                                       v := undefBit 4 s, c := undefBit 5 s } } )

/-! ## Division (rules R196, R200) -/

/-- Unsigned: quotient and remainder, or nothing on a zero divisor or a quotient of more than `n` bits. -/
def divU (n a d : Nat) : Option (Nat × Nat) :=
  if d = 0 ∨ 2 ^ n ≤ a / d then none else some (a / d, a - a / d * d)

/-- Signed, the quotient rounded toward zero; nothing on a zero divisor or a quotient outside the signed range of `n`
bits (decision D36). -/
def divS (n : Nat) (a d : Int) : Option (Int × Int) :=
  let q := a.tdiv d
  if d = 0 ∨ q < -2 ^ (n - 1) ∨ 2 ^ (n - 1) - 1 < q then none else some (q, a - q * d)

/-- Remainder in the upper half, quotient in the lower. -/
def packDiv (sz : BW) (m q : Int) : BitVec sz.double.bits :=
  match sz with
  | .byte => BitVec.ofInt 8 m ++ BitVec.ofInt 8 q
  | .word => BitVec.ofInt 16 m ++ BitVec.ofInt 16 q

/-- The quotient and remainder of a division, by signedness. -/
def quotient (sz : BW) (signed : Bool) (a : BitVec sz.double.bits) (d : BitVec sz.size.bits) : Option (Int × Int) :=
  if signed then divS sz.size.bits a.toInt d.toInt
  else (divU sz.size.bits a.toNat d.toNat).map fun p => ((p.1 : Int), (p.2 : Int))

/-- Divides the register `c` of double width by `d`: V tells whether the result is undefined, and no other flag
changes (rules R196, R200). -/
def divide (sz : BW) (signed : Bool) (c : RegCode) (d : BitVec sz.size.bits) (s : State) : State :=
  match quotient sz signed (readReg sz.double c s) d with
  | some (q, m) => writeReg sz.double c (packDiv sz m q) { s with f := { s.f with v := false } }
  | none =>
    writeReg sz.double c (undefVal sz.double.bits 0 s) (drawn 1 { s with f := { s.f with v := true } })

/-! ## Bits -/

/-- The largest index below `k` of a 1 bit (rule R233). -/
def topOne {n : Nat} (v : BitVec n) : Nat → Option Nat
  | 0 => none
  | k + 1 => if v.getLsbD k then some k else topOne v k

/-- Writes C from bit `num` of `v`: LDCF with `keep` false, ANDCF with `keep` true. Outside the operand C is undefined
(rule R234). -/
def carryFromBit (sz : Size) (v : BitVec sz.bits) (num : Nat) (keep : Bool) (s : State) : State :=
  if num < sz.bits then
    { s with f := { s.f with c := if keep then s.f.c && v.getLsbD num else v.getLsbD num } }
  else drawn 1 { s with f := { s.f with c := undefBit 0 s } }

/-- The flags of BIT: Z is the inverse of the tested bit, S and V are undefined (rules R229, R230). -/
def bitFlags {n : Nat} (v : BitVec n) (num : Nat) (s : State) : State :=
  drawn 2 { s with f := { s.f with z := !v.getLsbD num, h := true, n := false,
                                   s := undefBit 0 s, v := undefBit 1 s } }

end Sys2Proof.Machine
end

