-- ==== Sys2Proof/Machine/Operands.lean ====
section
/-! DEFINITION. Effective addresses with their register side effects (rules R57 to R68), and the length of an
instruction from its operands (rule R101). -/

namespace Sys2Proof.Machine

/-- Sign extension to 32 bits (rules R59, R64, R65, R93). -/
def sext32 {n : Nat} (v : BitVec n) : Long := v.signExtend 32

/-- Zero extension to 32 bits (rules R60 to R62). -/
def zext32 {n : Nat} (v : BitVec n) : Long := v.setWidth 32

/-- The step of a stepping mode, whatever the operand size (rule R66). -/
def stepSize : Step → Long
  | .one => 1#32
  | .two => 2#32
  | .four => 4#32

/-- `EA(mode)` (rules R58 to R66), modulo 2^32. -/
def eaAddr (m : Mode) (s : State) : Long :=
  match m with
  | .ind k => readR .long k s
  | .disp8 k d => readR .long k s + sext32 d
  | .abs8 a => zext32 a
  | .abs16 a => zext32 a
  | .abs24 a => zext32 a
  | .ind32 r => readRow r s
  | .disp16 r d => readRow r s + sext32 d
  | .index8 r i => readRow r s + sext32 (readReg .byte i s)
  | .index16 r i => readRow r s + sext32 (readReg .word i s)
  | .preDec r z => readRow r s - stepSize z
  | .postInc r _ => readRow r s

/-- The state after `EA(mode)`: the base register of (-r32) and (r32+) is stepped, and only then are the instruction's
operands read (rules R66, R68; log entry 10). -/
def eaState (m : Mode) (s : State) : State :=
  match m with
  | .preDec r z => writeRow r (readRow r s - stepSize z) s
  | .postInc r z => writeRow r (readRow r s + stepSize z) s
  | _ => s

/-- Number of extension bytes of a mode (rule R88, column "count"). -/
def extCount : Mode → Nat
  | .ind _ => 0
  | .disp8 _ _ => 1
  | .abs8 _ => 1
  | .abs16 _ => 2
  | .abs24 _ => 3
  | .ind32 _ => 1
  | .disp16 _ _ => 3
  | .index8 _ _ => 3
  | .index16 _ _ => 3
  | .preDec _ _ => 1
  | .postInc _ _ => 1

/-- Length of a class REG instruction with `n` operand bytes (rule R101). -/
def regLen (r : RegOp) (n : Nat) : Nat :=
  match r with
  | .short _ => 2 + n
  | .ext _ => 3 + n

/-- Length of a memory class instruction with `n` operand bytes (rule R101). -/
def memLen (m : Mode) (n : Nat) : Nat := 1 + extCount m + 1 + n

end Sys2Proof.Machine
end

