-- ==== Sys2Proof/Machine/Shapes.lean ====
section
/-! DEFINITION. The shapes that several instructions share: where the operands of a form come from and where its
result goes. Each meaning of a family file is one line over a shape. Every memory form computes the effective
address and its side effect first, reads operands after it, and writes results last (rule R68). -/

namespace Sys2Proof.Machine

/-! ## Two operands, one result -/

/-- `R <- R op r`. -/
def opRr (op : BinOp) (sz : Size) (R : R3) (r : RegOp) (s : State) : Res State :=
  let p := op sz (readR sz R s) (readOp sz r s) s
  .next (advance (regLen r 0) (writeR sz R p.1 p.2))

/-- `r <- r op #`. -/
def oprImm (op : BinOp) (r : RegOp) (v : Imm) (s : State) : Res State :=
  let p := op v.size (readOp v.size r s) v.value s
  .next (advance (regLen r v.size.bytes) (writeOp v.size r p.1 p.2))

/-- `R <- R op (mem)`. -/
def opRMem (op : BinOp) (sz : Size) (R : R3) (m : Mode) (s : State) : Res State :=
  let s1 := eaState m s
  andThen (load sz (eaAddr m s) s1) fun b =>
    let p := op sz (readR sz R s1) b s1
    .next (advance (memLen m 0) (writeR sz R p.1 p.2))

/-- `(mem) <- (mem) op b`, where `b` is read after the effective address and `n` operand bytes follow the opcode. -/
def opMem (op : BinOp) (sz : Size) (m : Mode) (b : State → BitVec sz.bits) (n : Nat) (s : State) : Res State :=
  let s1 := eaState m s
  andThen (load sz (eaAddr m s) s1) fun a =>
    let p := op sz a (b s1) s1
    andThen (store sz (eaAddr m s) p.1 p.2) fun s2 => .next (advance (memLen m n) s2)

/-! ## Compare -/

/-- Compares two values read after the effective address of `m`; the first or the second is `(mem)`. -/
def cpMem (sz : Size) (m : Mode) (flags : BitVec sz.bits → State → State) (n : Nat) (s : State) : Res State :=
  let s1 := eaState m s
  andThen (load sz (eaAddr m s) s1) fun v => .next (advance (memLen m n) (flags v s1))

/-! ## Stores -/

/-- `(mem) <- v`, where `v` is read after the effective address. -/
def storeMem (sz : Size) (m : Mode) (v : State → BitVec sz.bits) (n : Nat) (s : State) : Res State :=
  let s1 := eaState m s
  andThen (store sz (eaAddr m s) (v s1) s1) fun s2 => .next (advance (memLen m n) s2)

/-- `(mem) <- (#16)`: the effective address first, then the read (rule R130). -/
def moveFromDirect (sz : Size) (m : Mode) (a : Word) (s : State) : Res State :=
  let s1 := eaState m s
  andThen (load sz (zext32 a) s1) fun v =>
    andThen (store sz (eaAddr m s) v s1) fun s2 => .next (advance (memLen m 2) s2)

/-! ## Bytes of memory, for the bit forms -/

/-- Reads the byte `(mem)` and changes the state by it. -/
def withMemByte (m : Mode) (k : Byte → State → State) (s : State) : Res State :=
  let s1 := eaState m s
  andThen (load .byte (eaAddr m s) s1) fun v => .next (advance (memLen m 0) (k v s1))

/-! ## Addresses as values -/

/-- LDA, JP and CALL do not admit a mode that steps its base register (decision D14). -/
def ifPlain (m : Mode) (k : Res State) : Res State := if m.steps then .refused .notAdmitted else k

/-! ## Division -/

/-- A code that names no dividend is an undefined encoding (rules R103, R196). -/
def withDividend (sz : BW) (c : RegCode) (k : Res State) : Res State :=
  if c.legal sz.double then k else .refused .undefinedEncoding

/-- `DIV RR, r` and `DIVS RR, r`. -/
def divideRr (signed : Bool) (sz : BW) (R : R3) (r : RegOp) (s : State) : Res State :=
  let c := code3 sz.size R
  withDividend sz c (.next (advance (regLen r 0) (divide sz signed c (readOp sz.size r s) s)))

/-- `DIV rr, #` and `DIVS rr, #`. -/
def dividerImm (signed : Bool) (rr : RegOp) (v : ImmBW) (s : State) : Res State :=
  let c := codeOf v.bw.size rr
  withDividend v.bw c (.next (advance (regLen rr v.bw.size.bytes) (divide v.bw signed c v.value s)))

/-- `DIV RR, (mem)` and `DIVS RR, (mem)`. -/
def divideRMem (signed : Bool) (sz : BW) (R : R3) (m : Mode) (s : State) : Res State :=
  let c := code3 sz.size R
  let s1 := eaState m s
  withDividend sz c
    (andThen (load sz.size (eaAddr m s) s1) fun d => .next (advance (memLen m 0) (divide sz signed c d s1)))

/-! ## Block instructions (rules R150, R159) -/

/-- Pointer step: the operand size in bytes, up or down (rule R150, decision D11). -/
def blockStep (sz : BW) (down : Bool) : Long :=
  let n := BitVec.ofNat 32 sz.size.bytes
  if down then 0#32 - n else n

/-- BC after the decrement. -/
def countDown (s : State) : State := writeReg .word codeBC (readReg .word codeBC s - 1#16) s

/-- BC is not zero. -/
def counting (s : State) : Bool := readReg .word codeBC s != 0#16

/-- One element of LDI, LDIR, LDD and LDDR, but for `pc` (rule R151). -/
def transferElement (sz : BW) (dst src : Row) (down : Bool) (s : State) : Res State :=
  let d := readRow dst s
  let p := readRow src s
  andThen (load sz.size p s) fun v =>
    andThen (store sz.size d v s) fun s1 =>
      let s2 := countDown (writeRow src (p + blockStep sz down) (writeRow dst (d + blockStep sz down) s1))
      .next { s2 with f := { s2.f with h := false, n := false, v := counting s2 } }

/-- One element of CPI, CPIR, CPD and CPDR, but for `pc`: read, compare, step the pointer, count
(rule R155, decision D13). -/
def searchElement (sz : BW) (R : R3) (down : Bool) (s : State) : Res State :=
  let p := readR .long R s
  andThen (load sz.size p s) fun v =>
    let o := subN (readReg sz.size codeA s) v false
    let s2 := countDown (writeR .long R (p + blockStep sz down) s)
    .next { s2 with f := { s2.f with s := o.s, z := o.z, h := o.h, v := counting s2, n := true } }

/-- Stays at the instruction while `again` holds, else goes past its two bytes (rule R159). -/
def repeatWhile (again : State → Bool) (s : State) : State := if again s then s else advance 2 s

end Sys2Proof.Machine
end

