-- ==== Sys2Proof/Machine/Arithmetic.lean ====
section
/-! DEFINITION. Family 4, ADD, ADC, CP, INC, DEC, EXTZ, EXTS, DAA, DIV and DIVS (44_arithmetic.md). -/

namespace Sys2Proof.Machine

/-! ## ADD (rule R161) -/

/-- `ADD R, r` (rule R170). -/
def execAddRr (sz : Size) (R : R3) (r : RegOp) (s : State) : Res State := opRr addOp sz R r s

/-- `ADD r, #` (rule R171). -/
def execAddrImm (r : RegOp) (v : Imm) (s : State) : Res State := oprImm addOp r v s

/-- `ADD R, (mem)` (rule R172). -/
def execAddRMem (sz : Size) (R : R3) (m : Mode) (s : State) : Res State := opRMem addOp sz R m s

/-- `ADD (mem), R` (rule R173). -/
def execAddMemR (sz : Size) (m : Mode) (R : R3) (s : State) : Res State := opMem addOp sz m (readR sz R) 0 s

/-- `ADD<W> (mem), #` (rule R174). -/
def execAddMemImm (m : Mode) (v : ImmBW) (s : State) : Res State :=
  opMem addOp v.bw.size m (fun _ => v.value) v.bw.size.bytes s

/-! ## ADC (rule R162) -/

/-- `ADC R, r` (rule R175). -/
def execAdcRr (sz : Size) (R : R3) (r : RegOp) (s : State) : Res State := opRr adcOp sz R r s

/-- `ADC r, #` (rule R176). -/
def execAdcrImm (r : RegOp) (v : Imm) (s : State) : Res State := oprImm adcOp r v s

/-- `ADC R, (mem)` (rule R177). -/
def execAdcRMem (sz : Size) (R : R3) (m : Mode) (s : State) : Res State := opRMem adcOp sz R m s

/-- `ADC (mem), R` (rule R178). -/
def execAdcMemR (sz : Size) (m : Mode) (R : R3) (s : State) : Res State := opMem adcOp sz m (readR sz R) 0 s

/-- `ADC<W> (mem), #` (rule R179). -/
def execAdcMemImm (m : Mode) (v : ImmBW) (s : State) : Res State :=
  opMem adcOp v.bw.size m (fun _ => v.value) v.bw.size.bytes s

/-! ## CP (rule R163) -/

/-- `CP R, r` (rule R180). -/
def execCpRr (sz : Size) (R : R3) (r : RegOp) (s : State) : Res State :=
  .next (advance (regLen r 0) (cpOp sz (readR sz R s) (readOp sz r s) s))

/-- `CP r, #3`, the number 0 to 7 (rule R181). -/
def execCpr3 (sz : BW) (r : RegOp) (n : BitVec 3) (s : State) : Res State :=
  .next (advance (regLen r 0) (cpOp sz.size (readOp sz.size r s) (n.setWidth sz.size.bits) s))

/-- `CP r, #` (rule R182). -/
def execCprImm (r : RegOp) (v : Imm) (s : State) : Res State :=
  .next (advance (regLen r v.size.bytes) (cpOp v.size (readOp v.size r s) v.value s))

/-- `CP R, (mem)` (rule R183). -/
def execCpRMem (sz : Size) (R : R3) (m : Mode) (s : State) : Res State :=
  cpMem sz m (fun v s1 => cpOp sz (readR sz R s1) v s1) 0 s

/-- `CP (mem), R` (rule R184). -/
def execCpMemR (sz : Size) (m : Mode) (R : R3) (s : State) : Res State :=
  cpMem sz m (fun v s1 => cpOp sz v (readR sz R s1) s1) 0 s

/-- `CP<W> (mem), #` (rule R185). -/
def execCpMemImm (m : Mode) (v : ImmBW) (s : State) : Res State :=
  cpMem v.bw.size m (fun a s1 => cpOp v.bw.size a v.value s1) v.bw.size.bytes s

/-! ## INC and DEC (rule R164) -/

/-- Flags of the register forms: byte size only (rules R186, R188). -/
def countFlagsReg (sz : Size) (o : Alu sz.bits) (sub : Bool) (s : State) : State :=
  if sz = .byte then countFlags o sub s else s

/-- `INC #3, r` (rule R186). -/
def execInc3r (sz : Size) (n : BitVec 3) (r : RegOp) (s : State) : Res State :=
  let o := addN (readOp sz r s) (BitVec.ofNat sz.bits (countOf n)) false
  .next (advance (regLen r 0) (countFlagsReg sz o false (writeOp sz r o.res s)))

/-- `DEC #3, r` (rule R188). -/
def execDec3r (sz : Size) (n : BitVec 3) (r : RegOp) (s : State) : Res State :=
  let o := subN (readOp sz r s) (BitVec.ofNat sz.bits (countOf n)) false
  .next (advance (regLen r 0) (countFlagsReg sz o true (writeOp sz r o.res s)))

/-- `INC<W> #3, (mem)` (rule R187). -/
def execInc3Mem (sz : BW) (n : BitVec 3) (m : Mode) (s : State) : Res State :=
  opMem (fun _ a b s => ((addN a b false).res, countFlags (addN a b false) false s)) sz.size m
    (fun _ => BitVec.ofNat sz.size.bits (countOf n)) 0 s

/-- `DEC<W> #3, (mem)` (rule R189). -/
def execDec3Mem (sz : BW) (n : BitVec 3) (m : Mode) (s : State) : Res State :=
  opMem (fun _ a b s => ((subN a b false).res, countFlags (subN a b false) true s)) sz.size m
    (fun _ => BitVec.ofNat sz.size.bits (countOf n)) 0 s

/-! ## EXTZ and EXTS -/

/-- The lower half zero-extended (rule R190). -/
def zeroUpper (sz : WL) (v : BitVec sz.size.bits) : BitVec sz.size.bits :=
  match sz with
  | .word => (v.extractLsb' 0 8).setWidth 16
  | .long => (v.extractLsb' 0 16).setWidth 32

/-- The lower half sign-extended (rule R191). -/
def signUpper (sz : WL) (v : BitVec sz.size.bits) : BitVec sz.size.bits :=
  match sz with
  | .word => (v.extractLsb' 0 8).signExtend 16
  | .long => (v.extractLsb' 0 16).signExtend 32

/-- `EXTZ r` (rule R190). -/
def execExtz (sz : WL) (r : RegOp) (s : State) : Res State :=
  .next (advance (regLen r 0) (writeOp sz.size r (zeroUpper sz (readOp sz.size r s)) s))

/-- `EXTS r` (rule R191). -/
def execExts (sz : WL) (r : RegOp) (s : State) : Res State :=
  .next (advance (regLen r 0) (writeOp sz.size r (signUpper sz (readOp sz.size r s)) s))

/-- `DAA r` (rule R192; the opcode byte by log entry 16). -/
def execDaa (r : RegOp) (s : State) : Res State :=
  let p := daaOp (readOp .byte r s) s
  .next (advance (regLen r 0) (writeOp .byte r p.1 p.2))

/-! ## DIV and DIVS (rules R196, R200) -/

/-- `DIV RR, r` (rule R193). -/
def execDivRr (sz : BW) (R : R3) (r : RegOp) (s : State) : Res State := divideRr false sz R r s

/-- `DIV rr, #` (rule R194). -/
def execDivrImm (rr : RegOp) (v : ImmBW) (s : State) : Res State := dividerImm false rr v s

/-- `DIV RR, (mem)` (rule R195). -/
def execDivRMem (sz : BW) (R : R3) (m : Mode) (s : State) : Res State := divideRMem false sz R m s

/-- `DIVS RR, r` (rule R197). -/
def execDivsRr (sz : BW) (R : R3) (r : RegOp) (s : State) : Res State := divideRr true sz R r s

/-- `DIVS rr, #` (rule R198). -/
def execDivsrImm (rr : RegOp) (v : ImmBW) (s : State) : Res State := dividerImm true rr v s

/-- `DIVS RR, (mem)` (rule R199). -/
def execDivsRMem (sz : BW) (R : R3) (m : Mode) (s : State) : Res State := divideRMem true sz R m s

end Sys2Proof.Machine
end

