-- ==== Sys2Proof/Machine/Bit.lean ====
section
/-! DEFINITION. Family 6, LDCF, ANDCF, CCF, BIT, CHG and BS1B (46_bit.md). -/

namespace Sys2Proof.Machine

/-- `num = A[3:0]` (rule R234). -/
def numberInA (s : State) : Nat := ((readReg .byte codeA s).extractLsb' 0 4).toNat

/-- `LDCF #4, r` (rule R220). -/
def execLdcf4r (sz : BW) (n : BitVec 4) (r : RegOp) (s : State) : Res State :=
  .next (advance (regLen r 1) (carryFromBit sz.size (readOp sz.size r s) n.toNat false s))

/-- `LDCF A, r` (rule R221). -/
def execLdcfAr (sz : BW) (r : RegOp) (s : State) : Res State :=
  .next (advance (regLen r 0) (carryFromBit sz.size (readOp sz.size r s) (numberInA s) false s))

/-- `LDCF #3, (mem)` (rule R222). -/
def execLdcf3Mem (n : BitVec 3) (m : Mode) (s : State) : Res State :=
  withMemByte m (fun v s1 => carryFromBit .byte v n.toNat false s1) s

/-- `LDCF A, (mem)` (rule R223). -/
def execLdcfAMem (m : Mode) (s : State) : Res State :=
  withMemByte m (fun v s1 => carryFromBit .byte v (numberInA s1) false s1) s

/-- `ANDCF #4, r` (rule R224). -/
def execAndcf4r (sz : BW) (n : BitVec 4) (r : RegOp) (s : State) : Res State :=
  .next (advance (regLen r 1) (carryFromBit sz.size (readOp sz.size r s) n.toNat true s))

/-- `ANDCF A, r` (rule R225). -/
def execAndcfAr (sz : BW) (r : RegOp) (s : State) : Res State :=
  .next (advance (regLen r 0) (carryFromBit sz.size (readOp sz.size r s) (numberInA s) true s))

/-- `ANDCF #3, (mem)` (rule R226). -/
def execAndcf3Mem (n : BitVec 3) (m : Mode) (s : State) : Res State :=
  withMemByte m (fun v s1 => carryFromBit .byte v n.toNat true s1) s

/-- `ANDCF A, (mem)` (rule R227). -/
def execAndcfAMem (m : Mode) (s : State) : Res State :=
  withMemByte m (fun v s1 => carryFromBit .byte v (numberInA s1) true s1) s

/-- `CCF` (rule R228). -/
def execCcf (s : State) : Res State :=
  .next (advance 1 (drawn 1 { s with f := { s.f with c := !s.f.c, n := false, h := undefBit 0 s } }))

/-- `BIT #4, r`; a bit number outside a byte register is refused (rules R229, R234, decision D23). -/
def execBit4r (sz : BW) (n : BitVec 4) (r : RegOp) (s : State) : Res State :=
  if bitInside sz n then .next (advance (regLen r 1) (bitFlags (readOp sz.size r s) n.toNat s))
  else .refused .undefinedEncoding

/-- `BIT #3, (mem)` (rule R230). -/
def execBit3Mem (n : BitVec 3) (m : Mode) (s : State) : Res State :=
  withMemByte m (fun v s1 => bitFlags v n.toNat s1) s

/-- `CHG #4, r`; a bit number outside a byte register is refused (rules R231, R234, decision D23). -/
def execChg4r (sz : BW) (n : BitVec 4) (r : RegOp) (s : State) : Res State :=
  if bitInside sz n then
    .next (advance (regLen r 1)
      (writeOp sz.size r (readOp sz.size r s ^^^ BitVec.ofNat sz.size.bits (2 ^ n.toNat)) s))
  else .refused .undefinedEncoding

/-- `CHG #3, (mem)` (rule R232). -/
def execChg3Mem (n : BitVec 3) (m : Mode) (s : State) : Res State :=
  let s1 := eaState m s
  andThen (load .byte (eaAddr m s) s1) fun v =>
    andThen (store .byte (eaAddr m s) (v ^^^ BitVec.ofNat 8 (2 ^ n.toNat)) s1) fun s2 =>
      .next (advance (memLen m 0) s2)

/-- `BS1B A, r`; with no 1 bit A is undefined and V is 1 (rule R233). -/
def execBs1b (r : RegOp) (s : State) : Res State :=
  let s1 :=
    match topOne (readOp .word r s) 16 with
    | some i => writeReg .byte codeA (BitVec.ofNat 8 i) { s with f := { s.f with v := false } }
    | none => writeReg .byte codeA (undefVal 8 0 s) (drawn 1 { s with f := { s.f with v := true } })
  .next (advance (regLen r 0) s1)

end Sys2Proof.Machine
end

