-- ==== Sys2Proof/Machine/Block.lean ====
section
/-! DEFINITION. Family 3, block transfer and block search (43_block.md). One element is one step (R159). -/

namespace Sys2Proof.Machine

/-- `LDI<W> (XDE+), (XHL+)` (rule R151). -/
def execLdiDE (sz : BW) (s : State) : Res State :=
  andThen (transferElement sz (.bank .cur .xde) (.bank .cur .xhl) false s) fun s => .next (advance 2 s)

/-- `LDI<W> (XIX+), (XIY+)` (rule R151). -/
def execLdiIX (sz : BW) (s : State) : Res State :=
  andThen (transferElement sz .xix .xiy false s) fun s => .next (advance 2 s)

/-- `LDIR<W> (XDE+), (XHL+)` (rule R152). -/
def execLdirDE (sz : BW) (s : State) : Res State :=
  andThen (transferElement sz (.bank .cur .xde) (.bank .cur .xhl) false s) fun s => .next (repeatWhile counting s)

/-- `LDIR<W> (XIX+), (XIY+)` (rule R152). -/
def execLdirIX (sz : BW) (s : State) : Res State :=
  andThen (transferElement sz .xix .xiy false s) fun s => .next (repeatWhile counting s)

/-- `LDD<W> (XDE-), (XHL-)` (rule R153). -/
def execLddDE (sz : BW) (s : State) : Res State :=
  andThen (transferElement sz (.bank .cur .xde) (.bank .cur .xhl) true s) fun s => .next (advance 2 s)

/-- `LDD<W> (XIX-), (XIY-)` (rule R153). -/
def execLddIX (sz : BW) (s : State) : Res State :=
  andThen (transferElement sz .xix .xiy true s) fun s => .next (advance 2 s)

/-- `LDDR<W> (XDE-), (XHL-)` (rule R154). -/
def execLddrDE (sz : BW) (s : State) : Res State :=
  andThen (transferElement sz (.bank .cur .xde) (.bank .cur .xhl) true s) fun s => .next (repeatWhile counting s)

/-- `LDDR<W> (XIX-), (XIY-)` (rule R154). -/
def execLddrIX (sz : BW) (s : State) : Res State :=
  andThen (transferElement sz .xix .xiy true s) fun s => .next (repeatWhile counting s)

/-- No match yet and BC not zero (rules R156, R158). -/
def searching (s : State) : Bool := !s.f.z && counting s

/-- `CPI A/WA, (R+)` (rule R155). -/
def execCpi (sz : BW) (R : R3) (s : State) : Res State :=
  andThen (searchElement sz R false s) fun s => .next (advance 2 s)

/-- `CPIR A/WA, (R+)` (rule R156). -/
def execCpir (sz : BW) (R : R3) (s : State) : Res State :=
  andThen (searchElement sz R false s) fun s => .next (repeatWhile searching s)

/-- `CPD A/WA, (R-)` (rule R157). -/
def execCpd (sz : BW) (R : R3) (s : State) : Res State :=
  andThen (searchElement sz R true s) fun s => .next (advance 2 s)

/-- `CPDR A/WA, (R-)` (rule R158). -/
def execCpdr (sz : BW) (R : R3) (s : State) : Res State :=
  andThen (searchElement sz R true s) fun s => .next (repeatWhile searching s)

end Sys2Proof.Machine
end

