-- ==== Sys2Proof/Machine/Control.lean ====
section
/-! DEFINITION. Family 7, EI, DI, LDC, HALT, LDF, INCF and DECF (47_cpu_control.md). None is privileged and none
changes a flag. -/

namespace Sys2Proof.Machine

/-- `EI #3` (rule R250). -/
def execEi (n : BitVec 3) (s : State) : Res State := .next (advance 2 { s with iff := n })

/-- `DI` (rule R251). -/
def execDi (s : State) : Res State := .next (advance 2 { s with iff := 7#3 })

/-- `LDC cr, r` at the size of the control register (rules R35, R252). -/
def execLdcCrR (cr : CReg) (r : RegOp) (s : State) : Res State :=
  .next (advance (regLen r 1) { s with cr := writeCr cr (readOp cr.size r s) s.cr })

/-- `LDC r, cr` at the size of the control register (rules R35, R253). -/
def execLdcRCr (r : RegOp) (cr : CReg) (s : State) : Res State :=
  .next (advance (regLen r 1) (writeOp cr.size r (readCr cr s.cr) s))

/-- `HALT`: `pc` already past the instruction (rule R254). -/
def execHalt (s : State) : Res State := .next { advance 1 s with halted := true }

/-- `LDF #3`; RFP2 is fixed at 0, so 4 to 7 are masked (rule R255, decision D16; log entry 11). -/
def execLdf (n : BitVec 3) (s : State) : Res State := .next (advance 2 (setRfp n s))

/-- `INCF` (rule R256). -/
def execIncf (s : State) : Res State := .next (advance 1 (setRfp (s.rfp3 + 1#3) s))

/-- `DECF` (rule R257). -/
def execDecf (s : State) : Res State := .next (advance 1 (setRfp (s.rfp3 - 1#3) s))

end Sys2Proof.Machine
end

