-- ==== Sys2Proof/Machine/Exchange.lean ====
section
/-! DEFINITION. Family 2, EX (42_exchange.md). -/

namespace Sys2Proof.Machine

/-- `EX F, F'` (rule R140). -/
def execExFF (s : State) : Res State := .next (advance 1 { s with f := s.fAlt, fAlt := s.f })

/-- `EX R, r`: both read, then each written (rule R141). -/
def execExRr (sz : BW) (R : R3) (r : RegOp) (s : State) : Res State :=
  let a := readR sz.size R s
  let b := readOp sz.size r s
  .next (advance (regLen r 0) (writeOp sz.size r a (writeR sz.size R b s)))

/-- `EX (mem), R` (rule R142, conflict C6). -/
def execExMemR (sz : BW) (m : Mode) (R : R3) (s : State) : Res State :=
  let s1 := eaState m s
  andThen (load sz.size (eaAddr m s) s1) fun v =>
    andThen (store sz.size (eaAddr m s) (readR sz.size R s1) s1) fun s2 =>
      .next (advance (memLen m 0) (writeR sz.size R v s2))

end Sys2Proof.Machine
end

