-- ==== Sys2Proof/Machine/Jump.lean ====
section
/-! DEFINITION. Family 9, JP, JR, JRL, CALL, CALR and DJNZ (49_jump_call.md). No flag changes and no target is
checked (R300). -/

namespace Sys2Proof.Machine

/-- `JP #16` (rule R290, decision D31). -/
def execJp16 (a : Word) (s : State) : Res State := .next (jumpTo (zext32 a) s)

/-- `JP #24` (rule R291, decision D31). -/
def execJp24 (a : BitVec 24) (s : State) : Res State := .next (jumpTo (zext32 a) s)

/-- `JP cc, mem`: the address itself is the target (rule R292). -/
def execJpMem (cc : Cond) (m : Mode) (s : State) : Res State :=
  ifPlain m (.next (if condTrue cc s.f then jumpTo (eaAddr m s) s else advance (memLen m 0) s))

/-- `JR cc, $+2+d8` (rule R293). -/
def execJr (cc : Cond) (d : Byte) (s : State) : Res State :=
  .next (if condTrue cc s.f then jumpTo (s.pc + 2#32 + sext32 d) s else advance 2 s)

/-- `JRL cc, $+3+d16` (rule R294). -/
def execJrl (cc : Cond) (d : Word) (s : State) : Res State :=
  .next (if condTrue cc s.f then jumpTo (s.pc + 3#32 + sext32 d) s else advance 3 s)

/-- Pushes the return address `$ + len` and jumps (rules R78, R295). -/
def callTo (len : Nat) (target : Long) (s : State) : Res State :=
  andThen (pushLong (s.pc + BitVec.ofNat 32 len) s) fun s1 => .next (jumpTo target s1)

/-- `CALL #16` (rule R295). -/
def execCall16 (a : Word) (s : State) : Res State := callTo 3 (zext32 a) s

/-- `CALL #24` (rule R296). -/
def execCall24 (a : BitVec 24) (s : State) : Res State := callTo 4 (zext32 a) s

/-- `CALL cc, mem`: the address is computed before XSP moves (rule R297, decision D13). -/
def execCallMem (cc : Cond) (m : Mode) (s : State) : Res State :=
  ifPlain m
    (if condTrue cc s.f then callTo (memLen m 0) (eaAddr m s) s else .next (advance (memLen m 0) s))

/-- `CALR $+3+d16` (rule R298). -/
def execCalr (d : Word) (s : State) : Res State := callTo 3 (s.pc + 3#32 + sext32 d) s

/-- `DJNZ r, $+3/4+d8` (rule R299). -/
def execDjnz (sz : BW) (r : RegOp) (d : Byte) (s : State) : Res State :=
  let v := readOp sz.size r s - BitVec.ofNat sz.size.bits 1
  let s1 := advance (regLen r 1) (writeOp sz.size r v s)
  .next (if v = 0 then s1 else jumpTo (s1.pc + sext32 d) s1)

end Sys2Proof.Machine
end

