-- ==== Sys2Proof/Machine/Logic.lean ====
section
/-! DEFINITION. Family 5, AND and CPL (45_logic.md). -/

namespace Sys2Proof.Machine

/-- `AND R, r` (rule R210). -/
def execAndRr (sz : Size) (R : R3) (r : RegOp) (s : State) : Res State := opRr andOp sz R r s

/-- `AND r, #` (rule R211). -/
def execAndrImm (r : RegOp) (v : Imm) (s : State) : Res State := oprImm andOp r v s

/-- `AND R, (mem)` (rule R212). -/
def execAndRMem (sz : Size) (R : R3) (m : Mode) (s : State) : Res State := opRMem andOp sz R m s

/-- `AND (mem), R` (rule R213). -/
def execAndMemR (sz : Size) (m : Mode) (R : R3) (s : State) : Res State := opMem andOp sz m (readR sz R) 0 s

/-- `AND<W> (mem), #` (rule R214). -/
def execAndMemImm (m : Mode) (v : ImmBW) (s : State) : Res State :=
  opMem andOp v.bw.size m (fun _ => v.value) v.bw.size.bytes s

/-- `CPL r` (rule R215). -/
def execCpl (sz : BW) (r : RegOp) (s : State) : Res State :=
  let s1 := writeOp sz.size r (~~~(readOp sz.size r s)) s
  .next (advance (regLen r 0) { s1 with f := { s1.f with h := true, n := true } })

end Sys2Proof.Machine
end

