-- ==== Sys2Proof/Machine/Transfer.lean ====
section
/-! DEFINITION. Family 1, LD, LDA and LDAR (41_transfer.md). No instruction of the family touches a flag (R133). -/

namespace Sys2Proof.Machine

/-- `LD R, r` (rule R120). -/
def execLdRr (sz : Size) (R : R3) (r : RegOp) (s : State) : Res State :=
  .next (advance (regLen r 0) (writeR sz R (readOp sz r s) s))

/-- `LD r, R` (rule R121). -/
def execLdrR (sz : Size) (r : RegOp) (R : R3) (s : State) : Res State :=
  .next (advance (regLen r 0) (writeOp sz r (readR sz R s) s))

/-- `LD r, #3`, the number 0 to 7 (rule R122, decision D15; log entry 11). -/
def execLdr3 (sz : Size) (r : RegOp) (n : BitVec 3) (s : State) : Res State :=
  .next (advance (regLen r 0) (writeOp sz r (n.setWidth sz.bits) s))

/-- `LD R, #` byte (rule R123). -/
def execLdRImmB (R : R3) (v : Byte) (s : State) : Res State := .next (advance 2 (writeR .byte R v s))

/-- `LD R, #` word (rule R123). -/
def execLdRImmW (R : R3) (v : Word) (s : State) : Res State := .next (advance 3 (writeR .word R v s))

/-- `LD R, #` long (rule R123). -/
def execLdRImmL (R : R3) (v : Long) (s : State) : Res State := .next (advance 5 (writeR .long R v s))

/-- `LD r, #` (rule R124; the opcode byte by log entry 16). -/
def execLdrImm (r : RegOp) (v : Imm) (s : State) : Res State :=
  .next (advance (regLen r v.size.bytes) (writeOp v.size r v.value s))

/-- `LD R, (mem)`; the loaded value wins over a step of the base (rules R68, R125). -/
def execLdRMem (sz : Size) (R : R3) (m : Mode) (s : State) : Res State :=
  let s1 := eaState m s
  andThen (load sz (eaAddr m s) s1) fun v => .next (advance (memLen m 0) (writeR sz R v s1))

/-- `LD (mem), R` byte (rule R126). -/
def execLdMemRB (m : Mode) (R : R3) (s : State) : Res State := storeMem .byte m (readR .byte R) 0 s

/-- `LD (mem), R` word (rule R126). -/
def execLdMemRW (m : Mode) (R : R3) (s : State) : Res State := storeMem .word m (readR .word R) 0 s

/-- `LD (mem), R` long (rule R126). -/
def execLdMemRL (m : Mode) (R : R3) (s : State) : Res State := storeMem .long m (readR .long R) 0 s

/-- `LD (#8), #` (rule R127). -/
def execLdDir8B (a : Byte) (v : Byte) (s : State) : Res State :=
  andThen (store .byte (zext32 a) v s) fun s => .next (advance 3 s)

/-- `LDW (#8), #` (rule R127). -/
def execLdDir8W (a : Byte) (v : Word) (s : State) : Res State :=
  andThen (store .word (zext32 a) v s) fun s => .next (advance 4 s)

/-- `LD (mem), #` (rule R128). -/
def execLdMemImmB (m : Mode) (v : Byte) (s : State) : Res State := storeMem .byte m (fun _ => v) 1 s

/-- `LDW (mem), #` (rule R128). -/
def execLdMemImmW (m : Mode) (v : Word) (s : State) : Res State := storeMem .word m (fun _ => v) 2 s

/-- `LD<W> (#16), (mem)`: the read before the write (rule R129). -/
def execLdDir16Mem (sz : BW) (a : Word) (m : Mode) (s : State) : Res State :=
  let s1 := eaState m s
  andThen (load sz.size (eaAddr m s) s1) fun v =>
    andThen (store sz.size (zext32 a) v s1) fun s2 => .next (advance (memLen m 2) s2)

/-- `LD (mem), (#16)` (rule R130). -/
def execLdMemDir16B (m : Mode) (a : Word) (s : State) : Res State := moveFromDirect .byte m a s

/-- `LDW (mem), (#16)` (rule R130). -/
def execLdMemDir16W (m : Mode) (a : Word) (s : State) : Res State := moveFromDirect .word m a s

/-- `LDA R, mem` word: the low half of the address (rule R131). -/
def execLdaW (R : R3) (m : Mode) (s : State) : Res State :=
  ifPlain m (.next (advance (memLen m 0) (writeR .word R ((eaAddr m s).extractLsb' 0 16) s)))

/-- `LDA R, mem` long (rule R131). -/
def execLdaL (R : R3) (m : Mode) (s : State) : Res State :=
  ifPlain m (.next (advance (memLen m 0) (writeR .long R (eaAddr m s) s)))

/-- `LDAR R, $+4+d16` (rules R67, R132). -/
def execLdar (sz : WL) (R : R3) (d : Word) (s : State) : Res State :=
  let a := s.pc + 4#32 + sext32 d
  .next (advance 5 (writeR sz.size R (a.setWidth sz.size.bits) s))

end Sys2Proof.Machine
end

