-- ==== Sys2Proof/Machine/Dispatch.lean ====
section
/-! DEFINITION. One arm per instruction, each a direct call of its meaning. -/

namespace Sys2Proof.Machine

def exec (i : Instr) (s : State) : Host.Outcome State Fault Refusal :=
  match i with
  | .halt => Sys2Proof.Machine.execHalt s
  | .ei n => Sys2Proof.Machine.execEi n s
  | .di => Sys2Proof.Machine.execDi s
  | .ldDir8B a v => Sys2Proof.Machine.execLdDir8B a v s
  | .ldDir8W a v => Sys2Proof.Machine.execLdDir8W a v s
  | .incf => Sys2Proof.Machine.execIncf s
  | .decf => Sys2Proof.Machine.execDecf s
  | .ccf => Sys2Proof.Machine.execCcf s
  | .exFF => Sys2Proof.Machine.execExFF s
  | .ldf n => Sys2Proof.Machine.execLdf n s
  | .jp16 a => Sys2Proof.Machine.execJp16 a s
  | .jp24 a => Sys2Proof.Machine.execJp24 a s
  | .call16 a => Sys2Proof.Machine.execCall16 a s
  | .call24 a => Sys2Proof.Machine.execCall24 a s
  | .calr d => Sys2Proof.Machine.execCalr d s
  | .ldRImmB R v => Sys2Proof.Machine.execLdRImmB R v s
  | .ldRImmW R v => Sys2Proof.Machine.execLdRImmW R v s
  | .ldRImmL R v => Sys2Proof.Machine.execLdRImmL R v s
  | .jr cc d => Sys2Proof.Machine.execJr cc d s
  | .jrl cc d => Sys2Proof.Machine.execJrl cc d s
  | .ldrImm r v => Sys2Proof.Machine.execLdrImm r v s
  | .cpl sz r => Sys2Proof.Machine.execCpl sz r s
  | .divrImm rr v => Sys2Proof.Machine.execDivrImm rr v s
  | .divsrImm rr v => Sys2Proof.Machine.execDivsrImm rr v s
  | .bs1b r => Sys2Proof.Machine.execBs1b r s
  | .daa r => Sys2Proof.Machine.execDaa r s
  | .extz sz r => Sys2Proof.Machine.execExtz sz r s
  | .exts sz r => Sys2Proof.Machine.execExts sz r s
  | .djnz sz r d => Sys2Proof.Machine.execDjnz sz r d s
  | .andcf4r sz n r => Sys2Proof.Machine.execAndcf4r sz n r s
  | .ldcf4r sz n r => Sys2Proof.Machine.execLdcf4r sz n r s
  | .andcfAr sz r => Sys2Proof.Machine.execAndcfAr sz r s
  | .ldcfAr sz r => Sys2Proof.Machine.execLdcfAr sz r s
  | .ldcCrR cr r => Sys2Proof.Machine.execLdcCrR cr r s
  | .ldcRCr r cr => Sys2Proof.Machine.execLdcRCr r cr s
  | .chg4r sz n r => Sys2Proof.Machine.execChg4r sz n r s
  | .bit4r sz n r => Sys2Proof.Machine.execBit4r sz n r s
  | .divRr sz R r => Sys2Proof.Machine.execDivRr sz R r s
  | .divsRr sz R r => Sys2Proof.Machine.execDivsRr sz R r s
  | .inc3r sz n r => Sys2Proof.Machine.execInc3r sz n r s
  | .dec3r sz n r => Sys2Proof.Machine.execDec3r sz n r s
  | .addRr sz R r => Sys2Proof.Machine.execAddRr sz R r s
  | .ldRr sz R r => Sys2Proof.Machine.execLdRr sz R r s
  | .adcRr sz R r => Sys2Proof.Machine.execAdcRr sz R r s
  | .ldrR sz r R => Sys2Proof.Machine.execLdrR sz r R s
  | .ldr3 sz r n => Sys2Proof.Machine.execLdr3 sz r n s
  | .exRr sz R r => Sys2Proof.Machine.execExRr sz R r s
  | .andRr sz R r => Sys2Proof.Machine.execAndRr sz R r s
  | .addrImm r v => Sys2Proof.Machine.execAddrImm r v s
  | .adcrImm r v => Sys2Proof.Machine.execAdcrImm r v s
  | .andrImm r v => Sys2Proof.Machine.execAndrImm r v s
  | .cprImm r v => Sys2Proof.Machine.execCprImm r v s
  | .cpr3 sz r n => Sys2Proof.Machine.execCpr3 sz r n s
  | .cpRr sz R r => Sys2Proof.Machine.execCpRr sz R r s
  | .ldiDE sz => Sys2Proof.Machine.execLdiDE sz s
  | .ldiIX sz => Sys2Proof.Machine.execLdiIX sz s
  | .ldirDE sz => Sys2Proof.Machine.execLdirDE sz s
  | .ldirIX sz => Sys2Proof.Machine.execLdirIX sz s
  | .lddDE sz => Sys2Proof.Machine.execLddDE sz s
  | .lddIX sz => Sys2Proof.Machine.execLddIX sz s
  | .lddrDE sz => Sys2Proof.Machine.execLddrDE sz s
  | .lddrIX sz => Sys2Proof.Machine.execLddrIX sz s
  | .cpi sz R => Sys2Proof.Machine.execCpi sz R s
  | .cpir sz R => Sys2Proof.Machine.execCpir sz R s
  | .cpd sz R => Sys2Proof.Machine.execCpd sz R s
  | .cpdr sz R => Sys2Proof.Machine.execCpdr sz R s
  | .ldDir16Mem sz a m => Sys2Proof.Machine.execLdDir16Mem sz a m s
  | .ldRMem sz R m => Sys2Proof.Machine.execLdRMem sz R m s
  | .exMemR sz m R => Sys2Proof.Machine.execExMemR sz m R s
  | .addMemImm m v => Sys2Proof.Machine.execAddMemImm m v s
  | .adcMemImm m v => Sys2Proof.Machine.execAdcMemImm m v s
  | .andMemImm m v => Sys2Proof.Machine.execAndMemImm m v s
  | .cpMemImm m v => Sys2Proof.Machine.execCpMemImm m v s
  | .divRMem sz R m => Sys2Proof.Machine.execDivRMem sz R m s
  | .divsRMem sz R m => Sys2Proof.Machine.execDivsRMem sz R m s
  | .inc3Mem sz n m => Sys2Proof.Machine.execInc3Mem sz n m s
  | .dec3Mem sz n m => Sys2Proof.Machine.execDec3Mem sz n m s
  | .addRMem sz R m => Sys2Proof.Machine.execAddRMem sz R m s
  | .addMemR sz m R => Sys2Proof.Machine.execAddMemR sz m R s
  | .adcRMem sz R m => Sys2Proof.Machine.execAdcRMem sz R m s
  | .adcMemR sz m R => Sys2Proof.Machine.execAdcMemR sz m R s
  | .andRMem sz R m => Sys2Proof.Machine.execAndRMem sz R m s
  | .andMemR sz m R => Sys2Proof.Machine.execAndMemR sz m R s
  | .cpRMem sz R m => Sys2Proof.Machine.execCpRMem sz R m s
  | .cpMemR sz m R => Sys2Proof.Machine.execCpMemR sz m R s
  | .ldMemImmB m v => Sys2Proof.Machine.execLdMemImmB m v s
  | .ldMemImmW m v => Sys2Proof.Machine.execLdMemImmW m v s
  | .ldMemDir16B m a => Sys2Proof.Machine.execLdMemDir16B m a s
  | .ldMemDir16W m a => Sys2Proof.Machine.execLdMemDir16W m a s
  | .ldaW R m => Sys2Proof.Machine.execLdaW R m s
  | .ldaL R m => Sys2Proof.Machine.execLdaL R m s
  | .andcfAMem m => Sys2Proof.Machine.execAndcfAMem m s
  | .ldcfAMem m => Sys2Proof.Machine.execLdcfAMem m s
  | .ldMemRB m R => Sys2Proof.Machine.execLdMemRB m R s
  | .ldMemRW m R => Sys2Proof.Machine.execLdMemRW m R s
  | .ldMemRL m R => Sys2Proof.Machine.execLdMemRL m R s
  | .andcf3Mem n m => Sys2Proof.Machine.execAndcf3Mem n m s
  | .ldcf3Mem n m => Sys2Proof.Machine.execLdcf3Mem n m s
  | .chg3Mem n m => Sys2Proof.Machine.execChg3Mem n m s
  | .bit3Mem n m => Sys2Proof.Machine.execBit3Mem n m s
  | .jpMem cc m => Sys2Proof.Machine.execJpMem cc m s
  | .callMem cc m => Sys2Proof.Machine.execCallMem cc m s
  | .ldar sz R d => Sys2Proof.Machine.execLdar sz R d s

end Sys2Proof.Machine
end

