-- ==== Sys2Proof/Machine/Fetch.lean ====
section
/-! DEFINITION. Instruction fetch: bytes of the program text at `pc` and after it, as many as the instruction has
(rules R51, R101, R114, R346), and placing an instruction where the next fetch finds it. -/

namespace Sys2Proof.Machine

/-- `Fetch8(a)`: a byte of the program text; outside it there is no step (rules R51, R346). The text is tested before
ADDR_BITS (rule R56): an address both outside the text and at or above 2^ADDR_BITS is the fault. DESIGN CHOICE, log
entry 20. -/
def fetchByte (a : Long) (s : State) : Res Byte :=
  if s.launch.inText a.toNat then loadByte a s else .fault .outsideText

/-- The bytes at `a` and after it that can be fetched, at most `n`. -/
def fetchWindow (s : State) : Nat → Long → List Byte
  | 0, _ => []
  | n + 1, a =>
    match fetchByte a s with
    | .next b => b :: fetchWindow s n (a + 1#32)
    | _ => []

/-- How a refused decoding stops the step (rule R112). -/
def refusalOf : DecodeRefusal → Refusal
  | .listed m => .listedNotSpecified m
  | .undefined => .undefinedEncoding
  | .notAdmitted => .notAdmitted

/-- The instruction at `pc`. When the text ends inside it, the step stops as the fetch of the first missing byte does
(log entry 21). -/
def fetch (s : State) : Res Instr :=
  let bs := fetchWindow s maxLength s.pc
  match decode bs with
  | .ok i _ => .next i
  | .refuse r => .refused (refusalOf r)
  | .short => andThen (fetchByte (s.pc + BitVec.ofNat 32 bs.length) s) fun _ => .refused .undefinedEncoding

/-- Writes bytes at `a` and after it, addresses modulo 2^32. -/
def placeBytes (m : Memory) (a : Long) : List Byte → Memory
  | [] => m
  | b :: rest => placeBytes (m.write a.toNat b) (a + 1#32) rest

/-- One-byte regions for the `n` addresses at `a` and after it, modulo 2^32. -/
def regionsAt (a : Long) : Nat → List Region
  | 0 => []
  | n + 1 => ⟨a.toNat, 1⟩ :: regionsAt (a + 1#32) n

/-- `s` with the bytes as program text at `pc`, running and with no pending request, so that the next step fetches
them. `ADDR_BITS` changes only when it would keep one of the addresses from memory. -/
def placeProgram (bs : List Byte) (s : State) : State :=
  let here := regionsAt s.pc bs.length
  { s with
    mem := placeBytes s.mem s.pc bs
    launch := {
      addrBits := if here.all (fun r => r.base < 2 ^ s.launch.addrBits) then s.launch.addrBits else 32
      present := here ++ s.launch.present
      text := here ++ s.launch.text }
    halted := false
    pending := [] }

end Sys2Proof.Machine
end

