-- ==== Sys2Proof/Machine/Step.lean ====
section
/-! DEFINITION. One step of the machine: the acceptance test, the halted condition, fetch and execution
(rules R322, R323, R335, R51). -/

namespace Sys2Proof.Machine

/-- One step. When a request is accepted the step is its entry (rules R323, R325). While halted nothing is fetched and
everything keeps its value (rule R335; log entry 13). -/
def step (s : State) : Host.Outcome State Fault Refusal :=
  match acceptedRequest s with
  | some r => takeInterrupt r s
  | none => if s.halted then .next s else andThen (fetch s) fun i => exec i s

/-- `s` with the opcode-table word `w` of `nbits` bits stored where the next step fetches (log entries 2, 15). -/
def State.withFetchWord (s : State) (nbits w : Nat) : State := placeProgram (tableBytes nbits w) s

end Sys2Proof.Machine
end

