-- ==== Sys2Proof/Safety.lean ====
section
/-! DEFINITION. The terms claims are made in: which accesses memory takes, what a step may change and what it
must leave alone, what the flag sentences of the spec mean in integers, and the invariant of the machine. -/

namespace Sys2Proof.Machine

/-! ## Memory -/

/-- The address of byte `k` of an access at `a`, modulo 2^32 (rule R53). -/
abbrev byteAddr (a : Long) (k : Nat) : Long := a + BitVec.ofNat 32 k

/-- Every byte of an access lies below 2^ADDR_BITS and in the launch memory (rules R56, R69). -/
abbrev Present (sz : Size) (a : Long) (s : State) : Prop :=
  ∀ k, k < sz.bytes →
    (byteAddr a k).toNat < 2 ^ s.launch.addrBits ∧ s.launch.has (byteAddr a k).toNat = true

/-- The byte at `a` can be read: it is reached and holds a value (rules R39, R56, R69). -/
abbrev ByteReadable (a : Long) (s : State) : Prop :=
  a.toNat < 2 ^ s.launch.addrBits ∧ s.launch.has a.toNat = true ∧ s.mem.read a.toNat ≠ none

/-- The byte at `a` can be written: it is reached and is no program text (rules R56, R69, R77). -/
abbrev ByteWritable (a : Long) (s : State) : Prop :=
  a.toNat < 2 ^ s.launch.addrBits ∧ s.launch.has a.toNat = true ∧ s.launch.inText a.toNat = false

/-- The bytes at `a` are those of `v`, low byte first (rule R53). -/
abbrev Holds (sz : Size) (a : Long) (v : BitVec sz.bits) (s : State) : Prop :=
  ∀ k, k < sz.bytes → s.mem.read (byteAddr a k).toNat = some (byteOf v k)

/-- `v` can be read at `a`. -/
abbrev Readable (sz : Size) (a : Long) (v : BitVec sz.bits) (s : State) : Prop :=
  Present sz a s ∧ Holds sz a v s

/-- A value of size `sz` can be written at `a`: no byte of it is program text (rule R77). -/
abbrev Writable (sz : Size) (a : Long) (s : State) : Prop :=
  Present sz a s ∧ ∀ k, k < sz.bytes → s.launch.inText (byteAddr a k).toNat = false

/-- The bytes `bs` stand at `a` and after it as program text that can be fetched (rules R51, R77). -/
abbrev TextAt (a : Long) (bs : List Byte) (s : State) : Prop :=
  ∀ k, (h : k < bs.length) →
    (byteAddr a k).toNat < 2 ^ s.launch.addrBits ∧ s.launch.has (byteAddr a k).toNat = true ∧
      s.launch.inText (byteAddr a k).toNat = true ∧ s.mem.read (byteAddr a k).toNat = some bs[k]

/-- `t` holds `v` at `a`, and every other byte of memory is as in `s`. -/
def Wrote (sz : Size) (a : Long) (v : BitVec sz.bits) (s t : State) : Prop :=
  Holds sz a v t ∧
    ∀ b : Nat, (∀ k, k < sz.bytes → b ≠ (byteAddr a k).toNat) → t.mem.read b = s.mem.read b

/-! ## Registers, byte by byte -/

/-- Byte `o` of the 32-bit register at a place. -/
def regByte (s : State) (p : Place) (o : BitVec 2) : Byte := (s.regs.get p).extractLsb' (8 * o.toNat) 8

/-- Byte `o` of the register at `p` belongs to the part of size `sz` that the code `c` names in state `s`. -/
def InPart (s : State) (sz : Size) (c : RegCode) (p : Place) (o : BitVec 2) : Prop :=
  p = placeOf s c.row ∧ c.off.toNat ≤ o.toNat ∧ o.toNat < c.off.toNat + sz.bytes

/-- The register `c` holds `v` in `t`, and every other byte of the register file is as in `s`. -/
def OnlyReg (sz : Size) (c : RegCode) (v : BitVec sz.bits) (s t : State) : Prop :=
  readReg sz c t = v ∧ ∀ p o, ¬ InPart s sz c p o → regByte t p o = regByte s p o

/-! ## What a step leaves alone -/

/-- Everything but general registers, `pc`, the flags F and memory is as before. -/
structure SameControl (s t : State) : Prop where
  fAlt : t.fAlt = s.fAlt
  iff : t.iff = s.iff
  rfp : t.rfp = s.rfp
  cr : t.cr = s.cr
  halted : t.halted = s.halted
  pending : t.pending = s.pending
  launch : t.launch = s.launch

/-- Of registers, memory and control state only the register `c` changed, and it holds `v`. -/
def RegOnly (sz : Size) (c : RegCode) (v : BitVec sz.bits) (s t : State) : Prop :=
  OnlyReg sz c v s t ∧ t.mem = s.mem ∧ SameControl s t

/-- Of registers, memory and control state only memory at `a` changed, and it holds `v`. -/
def MemOnly (sz : Size) (a : Long) (v : BitVec sz.bits) (s t : State) : Prop :=
  Wrote sz a v s t ∧ t.regs = s.regs ∧ SameControl s t

/-- Registers, memory and control state are as before. -/
def Untouched (s t : State) : Prop := t.regs = s.regs ∧ t.mem = s.mem ∧ SameControl s t

/-- `pc` stands after the instruction (rule R27). -/
def Past (i : Instr) (s t : State) : Prop := t.pc = s.pc + BitVec.ofNat 32 (encode i).length

/-! ## The flag sentences in integers (rules R10, R11) -/

/-- The integer lies in the signed range of `n` bits. -/
def fitsSigned (n : Nat) (x : Int) : Bool := -(2 ^ (n - 1)) ≤ x && x < 2 ^ (n - 1)

def sumOf {n : Nat} (a b : BitVec n) (cin : Bool) : BitVec n := a + b + BitVec.ofNat n cin.toNat

/-- Carry from bit 3 to bit 4. -/
def halfCarry {n : Nat} (a b : BitVec n) (cin : Bool) : Bool := 16 ≤ a.toNat % 16 + b.toNat % 16 + cin.toNat

/-- Carry out of the most significant bit. -/
def carryOut {n : Nat} (a b : BitVec n) (cin : Bool) : Bool := 2 ^ n ≤ a.toNat + b.toNat + cin.toNat

/-- Signed overflow of the sum. -/
def sumOverflow {n : Nat} (a b : BitVec n) (cin : Bool) : Bool := !fitsSigned n (a.toInt + b.toInt + cin.toNat)

/-- Borrow from bit 3 to bit 4. -/
def halfBorrow {n : Nat} (a b : BitVec n) : Bool := a.toNat % 16 < b.toNat % 16

/-- Signed overflow of the difference. -/
def diffOverflow {n : Nat} (a b : BitVec n) : Bool := !fitsSigned n (a.toInt - b.toInt)

/-- The number of 1 bits is even. -/
def evenOnes {n : Nat} (v : BitVec n) : Bool := (List.range n).countP (fun i => v.getLsbD i) % 2 == 0

/-- The flags after adding; at long size H has no stated value (rules R161, R162). -/
def AddFlags (sz : Size) (a b : BitVec sz.bits) (cin : Bool) (f : Flags) : Prop :=
  ∃ h, (sz ≠ .long → h = halfCarry a b cin) ∧
    f = ⟨(sumOf a b cin).msb, sumOf a b cin == 0, h, sumOverflow a b cin, false, carryOut a b cin⟩

/-- The flags after comparing; at long size H has no stated value (rule R163). -/
def CompareFlags (sz : Size) (a b : BitVec sz.bits) (f : Flags) : Prop :=
  ∃ h, (sz ≠ .long → h = halfBorrow a b) ∧
    f = ⟨(a - b).msb, a == b, h, diffOverflow a b, true, decide (a.toNat < b.toNat)⟩

/-- The flags after AND; at long size V has no stated value (rule R218). -/
def AndFlags (sz : Size) (r : BitVec sz.bits) (f : Flags) : Prop :=
  ∃ v, (sz ≠ .long → v = evenOnes r) ∧ f = ⟨r.msb, r == 0, true, v, false, false⟩

/-- The flags after LDCF (`keep` false) or ANDCF (`keep` true): only C is written, and outside the operand it has no
stated value (rule R234). -/
def CarryFrom (sz : Size) (v : BitVec sz.bits) (num : Nat) (keep : Bool) (f g : Flags) : Prop :=
  ∃ c, (num < sz.bits → c = if keep then f.c && v.getLsbD num else v.getLsbD num) ∧ g = { f with c := c }

/-- The flags after BIT: S and V have no stated value (rules R229, R230). -/
def BitFlags (bit : Bool) (f g : Flags) : Prop :=
  ∃ sv vv, g = { f with s := sv, z := !bit, h := true, v := vv, n := false }

/-! ## Decimal adjustment, by the closed form of rule R192 -/

/-- The flags and nibbles that the table of rule R192 has a row for. -/
def DaaCovers (f : Flags) (d : Byte) : Bool :=
  let hi := d.toNat / 16
  let lo := d.toNat % 16
  match f.n, f.c, f.h with
  | false, false, false => true
  | false, false, true => lo ≤ 3
  | false, true, false => hi ≤ 2
  | false, true, true => hi ≤ 3 && lo ≤ 3
  | true, false, false => hi ≤ 9 && lo ≤ 9
  | true, false, true => hi ≤ 8 && 6 ≤ lo
  | true, true, false => 7 ≤ hi && lo ≤ 9
  | true, true, true => 6 ≤ hi && 6 ≤ lo

/-- The lower digit is adjusted by 6. -/
def daaLow (f : Flags) (d : Byte) : Bool := if f.n then f.h else f.h || decide (9 < d.toNat % 16)

/-- The upper digit is adjusted by 6, which is also C after the adjustment. -/
def daaHigh (f : Flags) (d : Byte) : Bool := if f.n then f.c else f.c || decide (0x99 < d.toNat)

/-- The adjusted byte: after an addition the digits' adjustment is added, after a subtraction it is subtracted. -/
def daaResult (f : Flags) (d : Byte) : Byte :=
  let k : Int := 6 * (daaLow f d).toNat + 0x60 * (daaHigh f d).toNat
  BitVec.ofInt 8 (if f.n then d.toNat - k else d.toNat + k)

/-! ## Division (rules R196, R200) -/

/-- The divisor is not zero and the quotient fits the lower half. -/
def QuotientFits (sz : BW) (signed : Bool) (a : BitVec sz.double.bits) (d : BitVec sz.size.bits) : Prop :=
  if signed then d ≠ 0 ∧ fitsSigned sz.size.bits (a.toInt.tdiv d.toInt) = true
  else d ≠ 0 ∧ a.toNat / d.toNat < 2 ^ sz.size.bits

/-- `w` holds the quotient in its lower half and the remainder in its upper half. -/
def QuotientIn (sz : BW) (signed : Bool) (a : BitVec sz.double.bits) (d : BitVec sz.size.bits)
    (w : BitVec sz.double.bits) : Prop :=
  if signed then
    (w.extractLsb' 0 sz.size.bits).toInt = a.toInt.tdiv d.toInt ∧
      (w.extractLsb' sz.size.bits sz.size.bits).toInt = a.toInt.tmod d.toInt
  else
    (w.extractLsb' 0 sz.size.bits).toNat = a.toNat / d.toNat ∧
      (w.extractLsb' sz.size.bits sz.size.bits).toNat = a.toNat % d.toNat

/-- What DIV and DIVS leave, `u` being the state whose registers they divide: only the dividend register and V
change, and on a zero divisor or an overflow the register has no stated value. -/
def Divided (sz : BW) (signed : Bool) (c : RegCode) (d : BitVec sz.size.bits) (u t : State) : Prop :=
  let a := readReg sz.double c u
  (QuotientFits sz signed a d →
    ∃ w, QuotientIn sz signed a d w ∧ RegOnly sz.double c w u t ∧ t.f = { u.f with v := false }) ∧
  (¬ QuotientFits sz signed a d → ∃ w, RegOnly sz.double c w u t ∧ t.f = { u.f with v := true })

/-! ## Block instructions (rules R150, R151, R155) -/

/-- BC of the current bank. -/
def bc (s : State) : Word := readReg .word codeBC s

/-- One element moved from (src) to (dst), both pointers stepped, BC counted down; `pc` is not spoken of. -/
def Moved (sz : BW) (dst src : Row) (step : Long) (v : BitVec sz.size.bits) (s t : State) : Prop :=
  Wrote sz.size (readRow dst s) v s t ∧
  readRow dst t = readRow dst s + step ∧ readRow src t = readRow src s + step ∧ bc t = bc s - 1#16 ∧
  (∀ p o, ¬ InPart s .long ⟨dst, 0#2⟩ p o → ¬ InPart s .long ⟨src, 0#2⟩ p o → ¬ InPart s .word codeBC p o →
    regByte t p o = regByte s p o) ∧
  t.f = { s.f with h := false, n := false, v := bc t != 0#16 } ∧ SameControl s t

/-- One element `v` compared with A or WA: first the pointer `R` is stepped, then BC is counted down; memory is only
read and `pc` is not spoken of. -/
def Compared (sz : BW) (R : R3) (step : Long) (v : BitVec sz.size.bits) (s t : State) : Prop :=
  (∃ u, OnlyReg .long (code3 .long R) (readR .long R s + step) s u ∧ u.rfp = s.rfp ∧
    OnlyReg .word codeBC (bc u - 1#16) u t) ∧
  t.mem = s.mem ∧ SameControl s t ∧
  t.f = ⟨(readReg sz.size codeA s - v).msb, readReg sz.size codeA s == v, halfBorrow (readReg sz.size codeA s) v,
    bc t != 0#16, true, s.f.c⟩

/-- The pointer step: the operand size in bytes (rule R150). -/
def elementBytes (sz : BW) : Long := BitVec.ofNat 32 sz.size.bytes

/-! ## The invariant, and a safe run -/

/-- Memory keeps its canonical form and lists only bytes that an access can reach (rules R56, R69). -/
def State.Inv (s : State) : Prop :=
  Memory.wf s.mem ∧ ∀ c ∈ s.mem, c.1 < 2 ^ s.launch.addrBits ∧ s.launch.has c.1 = true

/-- `k` steps from `s` are all taken: none meets a fault or a refusal. -/
def State.SafeRun : Nat → State → Prop
  | 0, _ => True
  | k + 1, s => ∃ t, step s = .next t ∧ SafeRun k t

end Sys2Proof.Machine
end

