-- ==== Sys2Proof/Certificates/Slice0/Obligations.lean ====
section
/-! DEFINITION. The statements about this model, each over every state and every operand it names. A statement
about an instruction concludes that `exec` answers a next state and says what that state holds. The undefined
values of the manual stay unconstrained: where a flag or a register has no stated value, a statement says only
that some value stands there. -/

section

open Sys2Proof Sys2Proof.Machine

/-! ## Encoding -/

/-- Decoding the encoding of a well-formed instruction gives it back, whatever bytes follow (rules R80 to R103). -/
def Obligations.DecodeEncode : Prop :=
  ∀ (i : Instr) (rest : List Byte), WellFormed i → decode (encode i ++ rest) = .ok i rest

/-- Every byte sequence that decodes is the encoding of one well-formed instruction and the bytes after it: no two
byte sequences stand for one instruction, and no reserved encoding decodes (rules R80 to R103, R112). -/
def Obligations.DecodedBytesAreTheEncoding : Prop :=
  ∀ (bs : List Byte) (i : Instr) (rest : List Byte),
    decode bs = .ok i rest → WellFormed i ∧ bs = encode i ++ rest

/-- An instruction has 1 to 7 bytes, and seven bytes always decide: the decoder answers or refuses (rules R80, R101,
R112). -/
def Obligations.InstructionLength : Prop :=
  (∀ i : Instr, WellFormed i → 1 ≤ (encode i).length ∧ (encode i).length ≤ 7) ∧
  ∀ bs : List Byte, 7 ≤ bs.length → decode bs ≠ .short

/-- Words of the source's own examples decode to the instructions they stand for (`95_test_vectors.md` section 1). -/
def Obligations.ExampleWords : Prop :=
  decode [0xDC#8, 0x93#8] = .ok (.adcRr .word 3#3 (.short 4#3)) [] ∧
  decode [0xF1#8, 0x00#8, 0x01#8, 0x86#8] = .ok (.andcf3Mem 6#3 (.abs16 0x100#16)) [] ∧
  decode [0x1C#8, 0x00#8, 0x90#8] = .ok (.call16 0x9000#16) [] ∧
  decode [0x84#8, 0x16#8] = .ok (.cpd .byte 4#3) [] ∧
  decode [0xBC#8, 0x02#8, 0xD7#8] = .ok (.jpMem .c (.disp8 4#3 0x02#8)) [] ∧
  decode [0xF3#8, 0x13#8, 0x41#8, 0x13#8, 0x34#8] = .ok (.ldar .long 4#3 0x1341#16) [] ∧
  decode [0xD8#8, 0x2E#8, 0x20#8] = .ok (.ldcCrR (.dmac 0#2) (.short 0#3)) [] ∧
  decode [0x85#8, 0x11#8] = .ok (.ldirIX .byte) [] ∧
  decode [0xD8#8, 0x06#8] = .ok (.cpl .word (.short 0#3)) [] ∧
  decode [0xCA#8, 0xB9#8] = .ok (.exRr .byte 1#3 (.short 2#3)) []

/-! ## One step -/

/-- A running machine with no acceptable request runs the instruction that the text at `pc` decodes to (rules R51,
R322, R323). -/
def Obligations.StepRunsDecoded : Prop :=
  ∀ (s : State) (bs : List Byte) (i : Instr) (rest : List Byte),
    interruptAccepted s = false → s.halted = false → bs.length ≤ 7 → TextAt s.pc bs s →
    decode bs = .ok i rest → step s = exec i s

/-- Text at `pc` that the decoder refuses is refused under the same name, and a `pc` outside the text has no step
(rules R112, R346). That the latter holds too for a `pc` at or above 2^ADDR_BITS, where rule R56 asks for a refusal, is
the model's choice (log entry 20); that a refusal which the bytes present already decide is reported although the text
ends inside the instruction is log entry 21, and which of two fitting refusals is reported is log entry 26. -/
def Obligations.StepStopsOnBadText : Prop :=
  ∀ s : State, interruptAccepted s = false → s.halted = false →
    (∀ (bs : List Byte) (r : DecodeRefusal), bs.length ≤ 7 → TextAt s.pc bs s → decode bs = .refuse r →
      step s = .refused (refusalOf r)) ∧
    (s.launch.inText s.pc.toNat = false → step s = .fault .outsideText)

/-- The acceptance test: when a pending request has a level of at least SR.IFF, halted or not, the step is the entry
of one such request, and no instruction runs in it; the state after it is not halted. With no such request a halted
machine keeps its whole state for every number of steps (rules R322, R323, R325, R335). Accepting a request of level
0 when SR.IFF is 0 is the model's choice (log entry 12), so are which of several is accepted (log entry 25) and the
step of a halted machine (log entry 13). -/
def Obligations.InterruptsAndHalt : Prop :=
  ∀ s : State,
    ((∃ r ∈ s.pending, s.iff.toNat ≤ r.level.toNat) →
      (∃ r ∈ s.pending, s.iff.toNat ≤ r.level.toNat ∧ step s = takeInterrupt r s) ∧
      ∀ t, step s = .next t → t.halted = false) ∧
    ((∀ r ∈ s.pending, r.level.toNat < s.iff.toNat) → s.halted = true →
      step s = .next s ∧ ∀ k, State.SafeRun k s)

/-! ## Invariants of every step -/

/-- Memory keeps its canonical form and lists only bytes that the launch memory holds below 2^ADDR_BITS, from every
state of which this holds (rules R56, R69). -/
def Obligations.InvariantKept : Prop := ∀ s t : State, s.Inv → step s = .next t → t.Inv

/-- The reset state has the invariant. Reset memory is the model's choice (log entry 7). -/
def Obligations.InvariantAtReset : Prop := State.reset.Inv

/-- No step changes a byte of the program text, nor what the launch fixes, and a step that accepts no request leaves
the requests of the environment as they are (rules R77, R321, R345). The kept text is the spec's decision D21 (log
entry 8), and that no step adds or clears a request, but for an interrupt entry, is the model's choice (log entry
12). -/
def Obligations.TextKept : Prop :=
  ∀ s t : State, step s = .next t →
    t.launch = s.launch ∧ (interruptAccepted s = false → t.pending = s.pending) ∧
    ∀ x, s.launch.inText x = true → t.mem.read x = s.mem.read x

/-- Only EI and DI change SR.IFF, only LDF, INCF and DECF change SR.RFP, only LDC changes a control register, only
EX F,F' changes F', and only HALT halts (rules R29, R30, R31, R34, R37). -/
def Obligations.NamedWritersOfControl : Prop :=
  ∀ (i : Instr) (s t : State), exec i s = .next t →
    ((∀ n, i ≠ .ei n) → i ≠ .di → t.iff = s.iff) ∧
    ((∀ n, i ≠ .ldf n) → i ≠ .incf → i ≠ .decf → t.rfp = s.rfp) ∧
    ((∀ cr r, i ≠ .ldcCrR cr r) → t.cr = s.cr) ∧
    (i ≠ .exFF → t.fAlt = s.fAlt) ∧
    (i ≠ .halt → t.halted = s.halted)

/-! ## Registers (10_state.md) -/

/-- A register's long word is its four bytes, byte +3 the most significant, and its two words are the byte pairs
(rule R21). The byte order is the spec's decision D5. -/
def Obligations.RegisterParts : Prop :=
  ∀ (row : Row) (s : State),
    readReg .long ⟨row, 0#2⟩ s =
      readReg .byte ⟨row, 3#2⟩ s ++ readReg .byte ⟨row, 2#2⟩ s ++ readReg .byte ⟨row, 1#2⟩ s ++
        readReg .byte ⟨row, 0#2⟩ s ∧
    readReg .word ⟨row, 0#2⟩ s = readReg .byte ⟨row, 1#2⟩ s ++ readReg .byte ⟨row, 0#2⟩ s ∧
    readReg .word ⟨row, 2#2⟩ s = readReg .byte ⟨row, 3#2⟩ s ++ readReg .byte ⟨row, 2#2⟩ s

/-- The 3-bit codes: byte codes W A B C D E H L, word and long codes WA BC DE HL IX IY IZ SP, as 8-bit register
codes (rule R23). -/
def Obligations.ThreeBitCodes : Prop :=
  ∀ k : R3,
    (codeOfReg (code3 .byte k)).toNat = 0xE0 + 4 * (k.toNat / 2) + (1 - k.toNat % 2) ∧
    (codeOfReg (code3 .word k)).toNat = 0xE0 + 4 * k.toNat ∧
    (codeOfReg (code3 .long k)).toNat = 0xE0 + 4 * k.toNat

/-- INCF and DECF move no data; they change which bank the unnumbered and the primed names mean: the current bank is
bank RFP, the previous one bank RFP - 1 modulo 4 (rules R22, R32, R256, R257, decision D6). -/
def Obligations.BankSwitching : Prop :=
  ∀ (sz : Size) (q : Quad) (o : BitVec 2) (s : State),
    (readReg sz ⟨.bank .cur q, o⟩ s = readReg sz ⟨.bank (.num s.rfp) q, o⟩ s ∧
      readReg sz ⟨.bank .prev q, o⟩ s = readReg sz ⟨.bank (.num (s.rfp - 1#2)) q, o⟩ s) ∧
    (∃ t, exec .incf s = .next t ∧ t = { s with rfp := t.rfp, pc := s.pc + 1#32 } ∧
      t.rfp.toNat = (s.rfp.toNat + 1) % 4 ∧
      readReg sz ⟨.bank .prev q, o⟩ t = readReg sz ⟨.bank .cur q, o⟩ s) ∧
    (∃ t, exec .decf s = .next t ∧ t = { s with rfp := t.rfp, pc := s.pc + 1#32 } ∧
      t.rfp.toNat = (s.rfp.toNat + 3) % 4 ∧
      readReg sz ⟨.bank .cur q, o⟩ t = readReg sz ⟨.bank .prev q, o⟩ s)

/-- LDF n writes RFP: its bit 2 is fixed at 0, so 4 to 7 write what 0 to 3 write (rules R31, R255; the masking of 4 to
7 is log entry 11). -/
def Obligations.LdfSelectsBank : Prop :=
  ∀ (n : BitVec 3) (s : State),
    ∃ t, exec (.ldf n) s = .next t ∧ t = { s with rfp := t.rfp, pc := s.pc + 2#32 } ∧
      t.rfp.toNat = n.toNat % 4 ∧ t.rfp3.toNat = n.toNat % 4

/-! ## Memory (20_memory.md) -/

/-- A store to bytes that exist and are not program text answers; it writes the value low byte first and no other
byte, at any alignment and across the top of the address space, and the value is what a load reads back (rules R53,
R54). Byte order and free alignment are the spec's decisions D3 and D4. -/
def Obligations.StoreThenLoad : Prop :=
  ∀ (sz : Size) (a : Long) (v : BitVec sz.bits) (s : State), Writable sz a s →
    ∃ t, store sz a v s = .next t ∧ Wrote sz a v s t ∧ load sz a t = .next v ∧
      t = { s with mem := t.mem }

/-- A store that overlaps the program text is refused (rule R77). The refusal is the spec's decision D21. -/
def Obligations.StoreIntoTextRefused : Prop :=
  ∀ (sz : Size) (a : Long) (v : BitVec sz.bits) (s : State), Present sz a s →
    (∃ k, k < sz.bytes ∧ s.launch.inText (byteAddr a k).toNat = true) →
    store sz a v s = .refused .storeIntoText

/-- The first byte of an access that cannot be reached decides how the access stops, whichever byte it is: refused
when its address has a bit at or above ADDR_BITS, no step when the launch memory does not hold it, no step when a load
finds no value there, refused when a store finds program text there (rules R39, R56, R69, R77). These are the spec's
decisions D2, D19 and D21; the choice between refusing and truncating is log entry 6, the two faults are log entry 7,
and the order of the bytes and of the tests is log entry 20. -/
def Obligations.AccessOutsideMemory : Prop :=
  ∀ (sz : Size) (a : Long) (s : State) (k : Nat), k < sz.bytes →
    let b := byteAddr a k
    ((∀ j, j < k → ByteReadable (byteAddr a j) s) →
      (2 ^ s.launch.addrBits ≤ b.toNat → load sz a s = .refused .aboveAddrBits) ∧
      (b.toNat < 2 ^ s.launch.addrBits → s.launch.has b.toNat = false → load sz a s = .fault .noMemory) ∧
      (b.toNat < 2 ^ s.launch.addrBits → s.launch.has b.toNat = true → s.mem.read b.toNat = none →
        load sz a s = .fault .noValue)) ∧
    ∀ v : BitVec sz.bits, (∀ j, j < k → ByteWritable (byteAddr a j) s) →
      (2 ^ s.launch.addrBits ≤ b.toNat → store sz a v s = .refused .aboveAddrBits) ∧
      (b.toNat < 2 ^ s.launch.addrBits → s.launch.has b.toNat = false → store sz a v s = .fault .noMemory) ∧
      (b.toNat < 2 ^ s.launch.addrBits → s.launch.has b.toNat = true → s.launch.inText b.toNat = true →
        store sz a v s = .refused .storeIntoText)

/-- The effective address of each mode that steps no register (rules R58 to R65), and that none of them changes the
state. -/
def Obligations.EffectiveAddresses : Prop :=
  ∀ (k : R3) (r : Row) (c : RegCode) (d8 a8 : Byte) (d16 a16 : Word) (a24 : BitVec 24) (s : State),
    eaAddr (.ind k) s = readR .long k s ∧
    eaAddr (.disp8 k d8) s = BitVec.ofInt 32 ((readR .long k s).toInt + d8.toInt) ∧
    (eaAddr (.abs8 a8) s).toNat = a8.toNat ∧
    (eaAddr (.abs16 a16) s).toNat = a16.toNat ∧
    (eaAddr (.abs24 a24) s).toNat = a24.toNat ∧
    eaAddr (.ind32 r) s = readReg .long ⟨r, 0#2⟩ s ∧
    eaAddr (.disp16 r d16) s = BitVec.ofInt 32 ((readReg .long ⟨r, 0#2⟩ s).toInt + d16.toInt) ∧
    eaAddr (.index8 r c) s =
      BitVec.ofInt 32 ((readReg .long ⟨r, 0#2⟩ s).toInt + (readReg .byte c s).toInt) ∧
    eaAddr (.index16 r c) s =
      BitVec.ofInt 32 ((readReg .long ⟨r, 0#2⟩ s).toInt + (readReg .word c s).toInt) ∧
    ∀ m : Mode, m.steps = false → eaState m s = s

/-- (-r32) uses the stepped register as address, (r32+) the register before the step; the step is 1, 2 or 4 by the
mode byte alone, and only the base register changes (rule R66). -/
def Obligations.SteppingModes : Prop :=
  ∀ (r : Row) (z : Step) (s : State),
    let step : Long := match z with | .one => 1#32 | .two => 2#32 | .four => 4#32
    let base := readReg .long ⟨r, 0#2⟩ s
    (eaAddr (.preDec r z) s = base - step ∧
      RegOnly .long ⟨r, 0#2⟩ (base - step) s (eaState (.preDec r z) s) ∧
      (eaState (.preDec r z) s).f = s.f ∧ (eaState (.preDec r z) s).pc = s.pc) ∧
    (eaAddr (.postInc r z) s = base ∧
      RegOnly .long ⟨r, 0#2⟩ (base + step) s (eaState (.postInc r z) s) ∧
      (eaState (.postInc r z) s).f = s.f ∧ (eaState (.postInc r z) s).pc = s.pc)

/-! ## Transfer (41_transfer.md) -/

/-- LD into a register from a register, a 3-bit number or an immediate (rules R120 to R124, R133). That a number
field of 0 loads 0 is decision D15 (log entry 11); the opcode byte of LD r,# is log entry 16. -/
def Obligations.LdIntoRegister : Prop :=
  ∀ s : State,
    (∀ sz R r, ∃ t, exec (.ldRr sz R r) s = .next t ∧ RegOnly sz (code3 sz R) (readOp sz r s) s t ∧
      t.f = s.f ∧ Past (.ldRr sz R r) s t) ∧
    (∀ sz r R, WellFormed (.ldrR sz r R) → ∃ t, exec (.ldrR sz r R) s = .next t ∧
      RegOnly sz (codeOf sz r) (readR sz R s) s t ∧ t.f = s.f ∧ Past (.ldrR sz r R) s t) ∧
    (∀ sz r n, WellFormed (.ldr3 sz r n) → ∃ t, exec (.ldr3 sz r n) s = .next t ∧
      RegOnly sz (codeOf sz r) (BitVec.ofNat sz.bits n.toNat) s t ∧ t.f = s.f ∧ Past (.ldr3 sz r n) s t) ∧
    (∀ R v, ∃ t, exec (.ldRImmB R v) s = .next t ∧ RegOnly .byte (code3 .byte R) v s t ∧
      t.f = s.f ∧ Past (.ldRImmB R v) s t) ∧
    (∀ R v, ∃ t, exec (.ldRImmW R v) s = .next t ∧ RegOnly .word (code3 .word R) v s t ∧
      t.f = s.f ∧ Past (.ldRImmW R v) s t) ∧
    (∀ R v, ∃ t, exec (.ldRImmL R v) s = .next t ∧ RegOnly .long (code3 .long R) v s t ∧
      t.f = s.f ∧ Past (.ldRImmL R v) s t) ∧
    (∀ r v, WellFormed (.ldrImm r v) → ∃ t, exec (.ldrImm r v) s = .next t ∧
      RegOnly v.size (codeOf v.size r) v.value s t ∧ t.f = s.f ∧ Past (.ldrImm r v) s t)

/-- LD R,(mem): after the effective address and its register step, the loaded value is written, so it wins over a
step of the same register (rules R68, R125). That order is the spec's decision D13 (log entry 10). -/
def Obligations.LdFromMemory : Prop :=
  ∀ (sz : Size) (R : R3) (m : Mode) (v : BitVec sz.bits) (s : State), Readable sz (eaAddr m s) v s →
    ∃ t, exec (.ldRMem sz R m) s = .next t ∧ RegOnly sz (code3 sz R) v (eaState m s) t ∧
      t.f = s.f ∧ Past (.ldRMem sz R m) s t

/-- LD (mem),R, LD (mem),# and LD (#8),#: only the stored bytes and a stepped base register change; a register
operand is read after the step (rules R68, R126, R127, R128). That order is the spec's decision D13 (log entry 10).
-/
def Obligations.LdIntoMemory : Prop :=
  ∀ (m : Mode) (R : R3) (s : State),
    (Writable .byte (eaAddr m s) s → ∃ t, exec (.ldMemRB m R) s = .next t ∧
      MemOnly .byte (eaAddr m s) (readR .byte R (eaState m s)) (eaState m s) t ∧
      t.f = s.f ∧ Past (.ldMemRB m R) s t) ∧
    (Writable .word (eaAddr m s) s → ∃ t, exec (.ldMemRW m R) s = .next t ∧
      MemOnly .word (eaAddr m s) (readR .word R (eaState m s)) (eaState m s) t ∧
      t.f = s.f ∧ Past (.ldMemRW m R) s t) ∧
    (Writable .long (eaAddr m s) s → ∃ t, exec (.ldMemRL m R) s = .next t ∧
      MemOnly .long (eaAddr m s) (readR .long R (eaState m s)) (eaState m s) t ∧
      t.f = s.f ∧ Past (.ldMemRL m R) s t) ∧
    (∀ v, Writable .byte (eaAddr m s) s → ∃ t, exec (.ldMemImmB m v) s = .next t ∧
      MemOnly .byte (eaAddr m s) v (eaState m s) t ∧ t.f = s.f ∧ Past (.ldMemImmB m v) s t) ∧
    (∀ v, Writable .word (eaAddr m s) s → ∃ t, exec (.ldMemImmW m v) s = .next t ∧
      MemOnly .word (eaAddr m s) v (eaState m s) t ∧ t.f = s.f ∧ Past (.ldMemImmW m v) s t) ∧
    (∀ a v, Writable .byte (BitVec.ofNat 32 a.toNat) s → ∃ t, exec (.ldDir8B a v) s = .next t ∧
      MemOnly .byte (BitVec.ofNat 32 a.toNat) v s t ∧ t.f = s.f ∧ Past (.ldDir8B a v) s t) ∧
    (∀ a v, Writable .word (BitVec.ofNat 32 a.toNat) s → ∃ t, exec (.ldDir8W a v) s = .next t ∧
      MemOnly .word (BitVec.ofNat 32 a.toNat) v s t ∧ t.f = s.f ∧ Past (.ldDir8W a v) s t)

/-- LD (#16),(mem) and LD (mem),(#16) move one datum from memory to memory (rules R129, R130). -/
def Obligations.LdMemoryToMemory : Prop :=
  ∀ (a : Word) (m : Mode) (s : State),
    (∀ sz v, Readable sz.size (eaAddr m s) v s → Writable sz.size (BitVec.ofNat 32 a.toNat) s →
      ∃ t, exec (.ldDir16Mem sz a m) s = .next t ∧
        MemOnly sz.size (BitVec.ofNat 32 a.toNat) v (eaState m s) t ∧
        t.f = s.f ∧ Past (.ldDir16Mem sz a m) s t) ∧
    (∀ v, Readable .byte (BitVec.ofNat 32 a.toNat) v s → Writable .byte (eaAddr m s) s →
      ∃ t, exec (.ldMemDir16B m a) s = .next t ∧ MemOnly .byte (eaAddr m s) v (eaState m s) t ∧
        t.f = s.f ∧ Past (.ldMemDir16B m a) s t) ∧
    (∀ v, Readable .word (BitVec.ofNat 32 a.toNat) v s → Writable .word (eaAddr m s) s →
      ∃ t, exec (.ldMemDir16W m a) s = .next t ∧ MemOnly .word (eaAddr m s) v (eaState m s) t ∧
        t.f = s.f ∧ Past (.ldMemDir16W m a) s t)

/-- LDA and LDAR load an address, the low half of it into a word register, and access no memory (rules R67, R131,
R132). The low half for a word register is derived in rules R131 and R132. -/
def Obligations.LoadAddress : Prop :=
  ∀ (R : R3) (s : State),
    (∀ m, m.steps = false → ∃ t, exec (.ldaW R m) s = .next t ∧
      RegOnly .word (code3 .word R) (BitVec.ofNat 16 (eaAddr m s).toNat) s t ∧
      t.f = s.f ∧ Past (.ldaW R m) s t) ∧
    (∀ m, m.steps = false → ∃ t, exec (.ldaL R m) s = .next t ∧
      RegOnly .long (code3 .long R) (eaAddr m s) s t ∧ t.f = s.f ∧ Past (.ldaL R m) s t) ∧
    (∀ d, ∃ t, exec (.ldar .word R d) s = .next t ∧
      RegOnly .word (code3 .word R) (BitVec.ofInt 16 (s.pc.toInt + 4 + d.toInt)) s t ∧
      t.f = s.f ∧ Past (.ldar .word R d) s t) ∧
    (∀ d, ∃ t, exec (.ldar .long R d) s = .next t ∧
      RegOnly .long (code3 .long R) (BitVec.ofInt 32 (s.pc.toInt + 4 + d.toInt)) s t ∧
      t.f = s.f ∧ Past (.ldar .long R d) s t)

/-! ## Exchange (42_exchange.md) -/

/-- EX F,F' is one byte 16H and exchanges the six flags with those of F' (rule R140). -/
def Obligations.ExchangeFlags : Prop :=
  encode .exFF = [0x16#8] ∧ WellFormed .exFF ∧
  ∀ s : State, exec .exFF s = .next { s with f := s.fAlt, fAlt := s.f, pc := s.pc + 1#32 }

/-- EX R,r exchanges two registers, and EX (mem),R a register and a datum of memory; no flag changes (rules R141,
R142). A register operand is read after the address step (decision D13, log entry 10). -/
def Obligations.ExchangeData : Prop :=
  ∀ (sz : BW) (R : R3) (s : State),
    (∀ r, WellFormed (.exRr sz R r) → ∃ t, exec (.exRr sz R r) s = .next t ∧
      readR sz.size R t = readOp sz.size r s ∧ readOp sz.size r t = readR sz.size R s ∧
      (∀ p o, ¬ InPart s sz.size (code3 sz.size R) p o → ¬ InPart s sz.size (codeOf sz.size r) p o →
        regByte t p o = regByte s p o) ∧
      t.mem = s.mem ∧ SameControl s t ∧ t.f = s.f ∧ Past (.exRr sz R r) s t) ∧
    (∀ m v, Readable sz.size (eaAddr m s) v s → Writable sz.size (eaAddr m s) s →
      ∃ t, exec (.exMemR sz m R) s = .next t ∧
        OnlyReg sz.size (code3 sz.size R) v (eaState m s) t ∧
        Wrote sz.size (eaAddr m s) (readR sz.size R (eaState m s)) s t ∧
        SameControl s t ∧ t.f = s.f ∧ Past (.exMemR sz m R) s t)

/-! ## Block transfer and search (43_block.md) -/

/-- LDI and LDD move one element and go past the instruction (rules R150, R151, R153). The step of 2 for a word is
the spec's decision D11. -/
def Obligations.BlockMoveOne : Prop :=
  ∀ (sz : BW) (v : BitVec sz.size.bits) (s : State),
    (Readable sz.size (readRow (.bank .cur .xhl) s) v s → Writable sz.size (readRow (.bank .cur .xde) s) s →
      (∃ t, exec (.ldiDE sz) s = .next t ∧
        Moved sz (.bank .cur .xde) (.bank .cur .xhl) (elementBytes sz) v s t ∧ Past (.ldiDE sz) s t) ∧
      (∃ t, exec (.lddDE sz) s = .next t ∧
        Moved sz (.bank .cur .xde) (.bank .cur .xhl) (-elementBytes sz) v s t ∧ Past (.lddDE sz) s t)) ∧
    (Readable sz.size (readRow .xiy s) v s → Writable sz.size (readRow .xix s) s →
      (∃ t, exec (.ldiIX sz) s = .next t ∧ Moved sz .xix .xiy (elementBytes sz) v s t ∧ Past (.ldiIX sz) s t) ∧
      (∃ t, exec (.lddIX sz) s = .next t ∧ Moved sz .xix .xiy (-elementBytes sz) v s t ∧ Past (.lddIX sz) s t))

/-- LDIR and LDDR move one element in a step; `pc` stays while BC is not zero after it (rules R150, R152, R154,
R159). One element a step is the spec's decision D12. -/
def Obligations.BlockMoveRepeat : Prop :=
  ∀ (sz : BW) (v : BitVec sz.size.bits) (s : State),
    (Readable sz.size (readRow (.bank .cur .xhl) s) v s → Writable sz.size (readRow (.bank .cur .xde) s) s →
      (∃ t, exec (.ldirDE sz) s = .next t ∧
        Moved sz (.bank .cur .xde) (.bank .cur .xhl) (elementBytes sz) v s t ∧
        t.pc = if bc t = 0 then s.pc + 2#32 else s.pc) ∧
      (∃ t, exec (.lddrDE sz) s = .next t ∧
        Moved sz (.bank .cur .xde) (.bank .cur .xhl) (-elementBytes sz) v s t ∧
        t.pc = if bc t = 0 then s.pc + 2#32 else s.pc)) ∧
    (Readable sz.size (readRow .xiy s) v s → Writable sz.size (readRow .xix s) s →
      (∃ t, exec (.ldirIX sz) s = .next t ∧ Moved sz .xix .xiy (elementBytes sz) v s t ∧
        t.pc = if bc t = 0 then s.pc + 2#32 else s.pc) ∧
      (∃ t, exec (.lddrIX sz) s = .next t ∧ Moved sz .xix .xiy (-elementBytes sz) v s t ∧
        t.pc = if bc t = 0 then s.pc + 2#32 else s.pc))

/-- CPI, CPIR, CPD and CPDR compare A or WA with one element, step the pointer and count BC down; the repeating
forms stay at `pc` while there is no match and BC is not zero (rules R150, R155 to R159). The order of the two
updates is the spec's decision D13 (log entry 10). -/
def Obligations.BlockSearch : Prop :=
  ∀ (sz : BW) (R : R3) (v : BitVec sz.size.bits) (s : State), Readable sz.size (readR .long R s) v s →
    (∃ t, exec (.cpi sz R) s = .next t ∧ Compared sz R (elementBytes sz) v s t ∧ Past (.cpi sz R) s t) ∧
    (∃ t, exec (.cpd sz R) s = .next t ∧ Compared sz R (-elementBytes sz) v s t ∧ Past (.cpd sz R) s t) ∧
    (∃ t, exec (.cpir sz R) s = .next t ∧ Compared sz R (elementBytes sz) v s t ∧
      t.pc = if readReg sz.size codeA s = v ∨ bc t = 0 then s.pc + 2#32 else s.pc) ∧
    (∃ t, exec (.cpdr sz R) s = .next t ∧ Compared sz R (-elementBytes sz) v s t ∧
      t.pc = if readReg sz.size codeA s = v ∨ bc t = 0 then s.pc + 2#32 else s.pc)

/-! ## Arithmetic (44_arithmetic.md) -/

/-- The five forms of ADD write the sum and the flags of the sum (rule R161). A register operand of a memory form is
read after the step of the base; where the two overlap that is the model's choice, log entry 10 (rule R68, decision
D13, which recommends refusing). V as signed overflow is the spec's decision D30. -/
def Obligations.AddForms : Prop :=
  ∀ s : State,
    (∀ sz R r, ∃ t, exec (.addRr sz R r) s = .next t ∧
      RegOnly sz (code3 sz R) (sumOf (readR sz R s) (readOp sz r s) false) s t ∧
      AddFlags sz (readR sz R s) (readOp sz r s) false t.f ∧ Past (.addRr sz R r) s t) ∧
    (∀ r v, WellFormed (.addrImm r v) → ∃ t, exec (.addrImm r v) s = .next t ∧
      RegOnly v.size (codeOf v.size r) (sumOf (readOp v.size r s) v.value false) s t ∧
      AddFlags v.size (readOp v.size r s) v.value false t.f ∧ Past (.addrImm r v) s t) ∧
    (∀ sz R m v, Readable sz (eaAddr m s) v s → ∃ t, exec (.addRMem sz R m) s = .next t ∧
      RegOnly sz (code3 sz R) (sumOf (readR sz R (eaState m s)) v false) (eaState m s) t ∧
      AddFlags sz (readR sz R (eaState m s)) v false t.f ∧ Past (.addRMem sz R m) s t) ∧
    (∀ sz m R v, Readable sz (eaAddr m s) v s → Writable sz (eaAddr m s) s →
      ∃ t, exec (.addMemR sz m R) s = .next t ∧
        MemOnly sz (eaAddr m s) (sumOf v (readR sz R (eaState m s)) false) (eaState m s) t ∧
        AddFlags sz v (readR sz R (eaState m s)) false t.f ∧ Past (.addMemR sz m R) s t) ∧
    (∀ m (i : ImmBW) v, Readable i.bw.size (eaAddr m s) v s → Writable i.bw.size (eaAddr m s) s →
      ∃ t, exec (.addMemImm m i) s = .next t ∧
        MemOnly i.bw.size (eaAddr m s) (sumOf v i.value false) (eaState m s) t ∧
        AddFlags i.bw.size v i.value false t.f ∧ Past (.addMemImm m i) s t)

/-- The five forms of ADC add the carry flag as it was before (rule R162). A register operand of a memory form is read
after the step of the base; where the two overlap that is the model's choice, log entry 10 (rule R68, decision D13,
which recommends refusing). V as signed overflow is the spec's decision D30. -/
def Obligations.AdcForms : Prop :=
  ∀ s : State,
    (∀ sz R r, ∃ t, exec (.adcRr sz R r) s = .next t ∧
      RegOnly sz (code3 sz R) (sumOf (readR sz R s) (readOp sz r s) s.f.c) s t ∧
      AddFlags sz (readR sz R s) (readOp sz r s) s.f.c t.f ∧ Past (.adcRr sz R r) s t) ∧
    (∀ r v, WellFormed (.adcrImm r v) → ∃ t, exec (.adcrImm r v) s = .next t ∧
      RegOnly v.size (codeOf v.size r) (sumOf (readOp v.size r s) v.value s.f.c) s t ∧
      AddFlags v.size (readOp v.size r s) v.value s.f.c t.f ∧ Past (.adcrImm r v) s t) ∧
    (∀ sz R m v, Readable sz (eaAddr m s) v s → ∃ t, exec (.adcRMem sz R m) s = .next t ∧
      RegOnly sz (code3 sz R) (sumOf (readR sz R (eaState m s)) v s.f.c) (eaState m s) t ∧
      AddFlags sz (readR sz R (eaState m s)) v s.f.c t.f ∧ Past (.adcRMem sz R m) s t) ∧
    (∀ sz m R v, Readable sz (eaAddr m s) v s → Writable sz (eaAddr m s) s →
      ∃ t, exec (.adcMemR sz m R) s = .next t ∧
        MemOnly sz (eaAddr m s) (sumOf v (readR sz R (eaState m s)) s.f.c) (eaState m s) t ∧
        AddFlags sz v (readR sz R (eaState m s)) s.f.c t.f ∧ Past (.adcMemR sz m R) s t) ∧
    (∀ m (i : ImmBW) v, Readable i.bw.size (eaAddr m s) v s → Writable i.bw.size (eaAddr m s) s →
      ∃ t, exec (.adcMemImm m i) s = .next t ∧
        MemOnly i.bw.size (eaAddr m s) (sumOf v i.value s.f.c) (eaState m s) t ∧
        AddFlags i.bw.size v i.value s.f.c t.f ∧ Past (.adcMemImm m i) s t)

/-- The six forms of CP write the flags of the difference and neither operand (rule R163). A register operand of a
memory form is read after the step of the base; where the two overlap that is the model's choice, log entry 10 (rule
R68, decision D13, which recommends refusing). V as signed overflow is the spec's decision D30. -/
def Obligations.CpForms : Prop :=
  ∀ s : State,
    (∀ sz R r, ∃ t, exec (.cpRr sz R r) s = .next t ∧ Untouched s t ∧
      CompareFlags sz (readR sz R s) (readOp sz r s) t.f ∧ Past (.cpRr sz R r) s t) ∧
    (∀ sz r n, ∃ t, exec (.cpr3 sz r n) s = .next t ∧ Untouched s t ∧
      CompareFlags sz.size (readOp sz.size r s) (BitVec.ofNat sz.size.bits n.toNat) t.f ∧
      Past (.cpr3 sz r n) s t) ∧
    (∀ r v, ∃ t, exec (.cprImm r v) s = .next t ∧ Untouched s t ∧
      CompareFlags v.size (readOp v.size r s) v.value t.f ∧ Past (.cprImm r v) s t) ∧
    (∀ sz R m v, Readable sz (eaAddr m s) v s → ∃ t, exec (.cpRMem sz R m) s = .next t ∧
      Untouched (eaState m s) t ∧ CompareFlags sz (readR sz R (eaState m s)) v t.f ∧
      Past (.cpRMem sz R m) s t) ∧
    (∀ sz m R v, Readable sz (eaAddr m s) v s → ∃ t, exec (.cpMemR sz m R) s = .next t ∧
      Untouched (eaState m s) t ∧ CompareFlags sz v (readR sz R (eaState m s)) t.f ∧
      Past (.cpMemR sz m R) s t) ∧
    (∀ m (i : ImmBW) v, Readable i.bw.size (eaAddr m s) v s → ∃ t, exec (.cpMemImm m i) s = .next t ∧
      Untouched (eaState m s) t ∧ CompareFlags i.bw.size v i.value t.f ∧ Past (.cpMemImm m i) s t)

/-- INC #3,r and INC #3,(mem): a field of 0 counts 8; C is kept; a word or long register form writes no flag (rules
R164, R186, R187). V as signed overflow is the spec's decision D30. -/
def Obligations.IncForms : Prop :=
  ∀ (n : BitVec 3) (s : State),
    let count := if n.toNat = 0 then 8 else n.toNat
    (∀ sz r, WellFormed (.inc3r sz n r) → ∃ t, exec (.inc3r sz n r) s = .next t ∧
      let a := readOp sz r s
      let b := BitVec.ofNat sz.bits count
      RegOnly sz (codeOf sz r) (a + b) s t ∧
      t.f = (if sz = .byte then ⟨(a + b).msb, a + b == 0, halfCarry a b false, sumOverflow a b false, false, s.f.c⟩
        else s.f) ∧
      Past (.inc3r sz n r) s t) ∧
    (∀ (sz : BW) m (a : BitVec sz.size.bits), Readable sz.size (eaAddr m s) a s → Writable sz.size (eaAddr m s) s →
      ∃ t, exec (.inc3Mem sz n m) s = .next t ∧
        let b := BitVec.ofNat sz.size.bits count
        MemOnly sz.size (eaAddr m s) (a + b) (eaState m s) t ∧
        t.f = ⟨(a + b).msb, a + b == 0, halfCarry a b false, sumOverflow a b false, false, s.f.c⟩ ∧
        Past (.inc3Mem sz n m) s t)

/-- DEC #3,r and DEC #3,(mem): as INC, with the flags of the difference and N = 1 (rules R164, R188, R189). V as
signed overflow is the spec's decision D30. -/
def Obligations.DecForms : Prop :=
  ∀ (n : BitVec 3) (s : State),
    let count := if n.toNat = 0 then 8 else n.toNat
    (∀ sz r, WellFormed (.dec3r sz n r) → ∃ t, exec (.dec3r sz n r) s = .next t ∧
      let a := readOp sz r s
      let b := BitVec.ofNat sz.bits count
      RegOnly sz (codeOf sz r) (a - b) s t ∧
      t.f = (if sz = .byte then ⟨(a - b).msb, a == b, halfBorrow a b, diffOverflow a b, true, s.f.c⟩ else s.f) ∧
      Past (.dec3r sz n r) s t) ∧
    (∀ (sz : BW) m (a : BitVec sz.size.bits), Readable sz.size (eaAddr m s) a s → Writable sz.size (eaAddr m s) s →
      ∃ t, exec (.dec3Mem sz n m) s = .next t ∧
        let b := BitVec.ofNat sz.size.bits count
        MemOnly sz.size (eaAddr m s) (a - b) (eaState m s) t ∧
        t.f = ⟨(a - b).msb, a == b, halfBorrow a b, diffOverflow a b, true, s.f.c⟩ ∧
        Past (.dec3Mem sz n m) s t)

/-- EXTZ fills the upper half with zeros and EXTS with the sign of the lower half, at word and long size; no flag
changes. The opcode bytes are 12H and 13H (rules R190, R191). -/
def Obligations.ExtendForms : Prop :=
  (∀ k : R3, encode (.extz .word (.short k)) = [0b11011#5 ++ k, 0x12#8] ∧
    encode (.extz .long (.short k)) = [0b11101#5 ++ k, 0x12#8] ∧
    encode (.exts .word (.short k)) = [0b11011#5 ++ k, 0x13#8] ∧
    encode (.exts .long (.short k)) = [0b11101#5 ++ k, 0x13#8]) ∧
  (∀ c : RegCode, encode (.extz .word (.ext c)) = [0xD7#8, codeOfReg c, 0x12#8] ∧
    encode (.extz .long (.ext c)) = [0xE7#8, codeOfReg c, 0x12#8] ∧
    encode (.exts .word (.ext c)) = [0xD7#8, codeOfReg c, 0x13#8] ∧
    encode (.exts .long (.ext c)) = [0xE7#8, codeOfReg c, 0x13#8]) ∧
  ∀ (r : RegOp) (s : State),
    (WellFormed (.extz .word r) → ∃ t, exec (.extz .word r) s = .next t ∧
      RegOnly .word (codeOf .word r) (BitVec.ofNat 16 ((readOp .word r s).toNat % 2 ^ 8)) s t ∧
      t.f = s.f ∧ Past (.extz .word r) s t) ∧
    (WellFormed (.extz .long r) → ∃ t, exec (.extz .long r) s = .next t ∧
      RegOnly .long (codeOf .long r) (BitVec.ofNat 32 ((readOp .long r s).toNat % 2 ^ 16)) s t ∧
      t.f = s.f ∧ Past (.extz .long r) s t) ∧
    (WellFormed (.exts .word r) → ∃ t, exec (.exts .word r) s = .next t ∧
      RegOnly .word (codeOf .word r) (BitVec.ofInt 16 (BitVec.ofNat 8 (readOp .word r s).toNat).toInt) s t ∧
      t.f = s.f ∧ Past (.exts .word r) s t) ∧
    (WellFormed (.exts .long r) → ∃ t, exec (.exts .long r) s = .next t ∧
      RegOnly .long (codeOf .long r) (BitVec.ofInt 32 (BitVec.ofNat 16 (readOp .long r s).toNat).toInt) s t ∧
      t.f = s.f ∧ Past (.exts .long r) s t)

/-- DAA adjusts the byte by the closed form that rule R192 derives from its table: after an addition it adds, after a
subtraction it subtracts, 6 and 60H as the digits and flags ask, and C after is whether 60H was. It then writes S, Z, V
from the result and, with N = 0, H from the addition; where the table has no row no value is stated for the register
and S, Z, H, V, C. N and every other register keep their value. The model's table has one row, and no second, for just
the inputs that rule R192 lists (rule R192). C after with N = 1 is conflict C7, the free values outside the table and H
with N = 1 are the spec's decision D22, and the opcode byte is log entry 16. -/
def Obligations.DaaForm : Prop :=
  (daaTable.Pairwise fun p q => ∀ f d, ¬ (p.matches f d = true ∧ q.matches f d = true)) ∧
  (∀ f d, DaaCovers f d = true ↔ ∃ row ∈ daaTable, row.matches f d = true) ∧
  ∀ (r : RegOp) (s : State), WellFormed (.daa r) →
    let d := readOp .byte r s
    let x := daaResult s.f d
    (DaaCovers s.f d = true → ∃ t, exec (.daa r) s = .next t ∧
      RegOnly .byte (codeOf .byte r) x s t ∧ Past (.daa r) s t ∧
      ∃ h, (s.f.n = false → h = decide (15 < d.toNat % 16 + 6 * (daaLow s.f d).toNat)) ∧
        t.f = ⟨x.msb, x == 0, h, evenOnes x, s.f.n, daaHigh s.f d⟩) ∧
    (DaaCovers s.f d = false → ∃ t, exec (.daa r) s = .next t ∧
      (∃ y, RegOnly .byte (codeOf .byte r) y s t) ∧ Past (.daa r) s t ∧ t.f.n = s.f.n)

/-- DAA after an addition is decimal addition: with two packed decimal bytes in A and B and a carry flag, ADC A,B and
then DAA A leave in A the decimal sum modulo 100 and in C whether it reached 100 (rules R162, R192). -/
def Obligations.DecimalAddition : Prop :=
  ∀ (x y : Nat) (s : State), x < 100 → y < 100 →
    let packed : Nat → Byte := fun n => BitVec.ofNat 8 (16 * (n / 10) + n % 10)
    readReg .byte ⟨.bank .cur .xwa, 0#2⟩ s = packed x → readReg .byte ⟨.bank .cur .xbc, 1#2⟩ s = packed y →
    ∃ u t, exec (.adcRr .byte 1#3 (.short 2#3)) s = .next u ∧ exec (.daa (.short 1#3)) u = .next t ∧
      readReg .byte ⟨.bank .cur .xwa, 0#2⟩ t = packed ((x + y + s.f.c.toNat) % 100) ∧
      t.f.c = decide (100 ≤ x + y + s.f.c.toNat)

/-- DIV divides unsigned: quotient in the lower half, remainder in the upper, V = 0; on a zero divisor or a quotient
that does not fit V = 1 and the register has no stated value; no other flag changes (rules R193 to R196). The memory
form reads the dividend after the step of the base; where the two overlap that is the model's choice, log entry 10
(rule R68, decision D13, which recommends refusing). What fits is the spec's decision D36, the dividend codes D25. -/
def Obligations.DivForms : Prop :=
  ∀ s : State,
    (∀ sz R r, WellFormed (.divRr sz R r) → ∃ t, exec (.divRr sz R r) s = .next t ∧
      Divided sz false (code3 sz.size R) (readOp sz.size r s) s t ∧ Past (.divRr sz R r) s t) ∧
    (∀ rr (v : ImmBW), WellFormed (.divrImm rr v) → ∃ t, exec (.divrImm rr v) s = .next t ∧
      Divided v.bw false (codeOf v.bw.size rr) v.value s t ∧ Past (.divrImm rr v) s t) ∧
    (∀ sz R m d, WellFormed (.divRMem sz R m) → Readable sz.size (eaAddr m s) d s →
      ∃ t, exec (.divRMem sz R m) s = .next t ∧
        Divided sz false (code3 sz.size R) d (eaState m s) t ∧ Past (.divRMem sz R m) s t)

/-- DIVS divides signed, rounding toward zero, so that the remainder has the sign of the dividend (rules R197 to
R200). The memory form reads the dividend after the step of the base; where the two overlap that is the model's
choice, log entry 10 (rule R68, decision D13, which recommends refusing). What fits is the spec's decision D36, the
dividend codes D25. -/
def Obligations.DivsForms : Prop :=
  ∀ s : State,
    (∀ sz R r, WellFormed (.divsRr sz R r) → ∃ t, exec (.divsRr sz R r) s = .next t ∧
      Divided sz true (code3 sz.size R) (readOp sz.size r s) s t ∧ Past (.divsRr sz R r) s t) ∧
    (∀ rr (v : ImmBW), WellFormed (.divsrImm rr v) → ∃ t, exec (.divsrImm rr v) s = .next t ∧
      Divided v.bw true (codeOf v.bw.size rr) v.value s t ∧ Past (.divsrImm rr v) s t) ∧
    (∀ sz R m d, WellFormed (.divsRMem sz R m) → Readable sz.size (eaAddr m s) d s →
      ∃ t, exec (.divsRMem sz R m) s = .next t ∧
        Divided sz true (code3 sz.size R) d (eaState m s) t ∧ Past (.divsRMem sz R m) s t)

/-! ## Logic (45_logic.md) -/

/-- The five forms of AND (rule R218). A register operand of a memory form is read after the step of the base; where
the two overlap that is the model's choice, log entry 10 (rule R68, decision D13, which recommends refusing). The
parity of a word over all 16 bits is derived in rule R218. -/
def Obligations.AndForms : Prop :=
  ∀ s : State,
    (∀ sz R r, ∃ t, exec (.andRr sz R r) s = .next t ∧
      RegOnly sz (code3 sz R) (readR sz R s &&& readOp sz r s) s t ∧
      AndFlags sz (readR sz R s &&& readOp sz r s) t.f ∧ Past (.andRr sz R r) s t) ∧
    (∀ r v, WellFormed (.andrImm r v) → ∃ t, exec (.andrImm r v) s = .next t ∧
      RegOnly v.size (codeOf v.size r) (readOp v.size r s &&& v.value) s t ∧
      AndFlags v.size (readOp v.size r s &&& v.value) t.f ∧ Past (.andrImm r v) s t) ∧
    (∀ sz R m v, Readable sz (eaAddr m s) v s → ∃ t, exec (.andRMem sz R m) s = .next t ∧
      RegOnly sz (code3 sz R) (readR sz R (eaState m s) &&& v) (eaState m s) t ∧
      AndFlags sz (readR sz R (eaState m s) &&& v) t.f ∧ Past (.andRMem sz R m) s t) ∧
    (∀ sz m R v, Readable sz (eaAddr m s) v s → Writable sz (eaAddr m s) s →
      ∃ t, exec (.andMemR sz m R) s = .next t ∧
        MemOnly sz (eaAddr m s) (v &&& readR sz R (eaState m s)) (eaState m s) t ∧
        AndFlags sz (v &&& readR sz R (eaState m s)) t.f ∧ Past (.andMemR sz m R) s t) ∧
    (∀ m (i : ImmBW) v, Readable i.bw.size (eaAddr m s) v s → Writable i.bw.size (eaAddr m s) s →
      ∃ t, exec (.andMemImm m i) s = .next t ∧
        MemOnly i.bw.size (eaAddr m s) (v &&& i.value) (eaState m s) t ∧
        AndFlags i.bw.size (v &&& i.value) t.f ∧ Past (.andMemImm m i) s t)

/-- CPL inverts every bit and sets H and N, keeping the other flags; its opcode byte is 06H, at byte and word size
(rule R215). -/
def Obligations.CplForm : Prop :=
  (∀ k : R3, encode (.cpl .byte (.short k)) = [0b11001#5 ++ k, 0x06#8] ∧
    encode (.cpl .word (.short k)) = [0b11011#5 ++ k, 0x06#8]) ∧
  (∀ c : RegCode, encode (.cpl .byte (.ext c)) = [0xC7#8, codeOfReg c, 0x06#8] ∧
    encode (.cpl .word (.ext c)) = [0xD7#8, codeOfReg c, 0x06#8]) ∧
  ∀ (sz : BW) (r : RegOp) (s : State), WellFormed (.cpl sz r) →
    ∃ t, exec (.cpl sz r) s = .next t ∧
      RegOnly sz.size (codeOf sz.size r) (~~~(readOp sz.size r s)) s t ∧
      t.f = { s.f with h := true, n := true } ∧ Past (.cpl sz r) s t

/-! ## Bits (46_bit.md) -/

/-- LDCF and ANDCF on a register, with the number in the instruction or in A<3:0>: only C changes, and for a byte
register and a number of 8 or more C has no stated value (rules R220, R221, R224, R225, R234). -/
def Obligations.CarryFromRegisterBit : Prop :=
  ∀ (sz : BW) (r : RegOp) (s : State),
    (∀ n, ∃ t, exec (.ldcf4r sz n r) s = .next t ∧ Untouched s t ∧
      CarryFrom sz.size (readOp sz.size r s) n.toNat false s.f t.f ∧ Past (.ldcf4r sz n r) s t) ∧
    (∀ n, ∃ t, exec (.andcf4r sz n r) s = .next t ∧ Untouched s t ∧
      CarryFrom sz.size (readOp sz.size r s) n.toNat true s.f t.f ∧ Past (.andcf4r sz n r) s t) ∧
    (∃ t, exec (.ldcfAr sz r) s = .next t ∧ Untouched s t ∧
      CarryFrom sz.size (readOp sz.size r s) ((readReg .byte codeA s).toNat % 16) false s.f t.f ∧
      Past (.ldcfAr sz r) s t) ∧
    (∃ t, exec (.andcfAr sz r) s = .next t ∧ Untouched s t ∧
      CarryFrom sz.size (readOp sz.size r s) ((readReg .byte codeA s).toNat % 16) true s.f t.f ∧
      Past (.andcfAr sz r) s t)

/-- LDCF and ANDCF on a byte of memory (rules R222, R223, R226, R227, R234). A bit number in A is read after the step
of the base; where the base is XWA that is the model's choice, log entry 10 (rule R68, decision D13, which recommends
refusing). -/
def Obligations.CarryFromMemoryBit : Prop :=
  ∀ (m : Mode) (v : Byte) (s : State), Readable .byte (eaAddr m s) v s →
    (∀ n, ∃ t, exec (.ldcf3Mem n m) s = .next t ∧ Untouched (eaState m s) t ∧
      t.f = { s.f with c := v.getLsbD n.toNat } ∧ Past (.ldcf3Mem n m) s t) ∧
    (∀ n, ∃ t, exec (.andcf3Mem n m) s = .next t ∧ Untouched (eaState m s) t ∧
      t.f = { s.f with c := s.f.c && v.getLsbD n.toNat } ∧ Past (.andcf3Mem n m) s t) ∧
    (∃ t, exec (.ldcfAMem m) s = .next t ∧ Untouched (eaState m s) t ∧
      CarryFrom .byte v ((readReg .byte codeA (eaState m s)).toNat % 16) false s.f t.f ∧ Past (.ldcfAMem m) s t) ∧
    (∃ t, exec (.andcfAMem m) s = .next t ∧ Untouched (eaState m s) t ∧
      CarryFrom .byte v ((readReg .byte codeA (eaState m s)).toNat % 16) true s.f t.f ∧ Past (.andcfAMem m) s t)

/-- CCF is one byte 12H: C is inverted, N is 0, H has no stated value, nothing else changes but `pc` (rule R228). -/
def Obligations.CcfForm : Prop :=
  encode .ccf = [0x12#8] ∧ WellFormed .ccf ∧
  ∀ s : State, ∃ t, exec .ccf s = .next t ∧ Untouched s t ∧
    (∃ h, t.f = { s.f with c := !s.f.c, n := false, h := h }) ∧ t.pc = s.pc + 1#32

/-- BIT: Z is the inverse of the bit, H = 1, N = 0, C is kept, S and V have no stated value; the operand is not
written. A number of 8 or more on a byte register is refused (rules R229, R230, R234). That refusal is the spec's
decision D23. -/
def Obligations.BitForms : Prop :=
  ∀ s : State,
    (∀ (sz : BW) n r, n.toNat < sz.size.bits → ∃ t, exec (.bit4r sz n r) s = .next t ∧ Untouched s t ∧
      BitFlags ((readOp sz.size r s).getLsbD n.toNat) s.f t.f ∧ Past (.bit4r sz n r) s t) ∧
    (∀ n r, 8 ≤ n.toNat → exec (.bit4r .byte n r) s = .refused .undefinedEncoding) ∧
    (∀ n m v, Readable .byte (eaAddr m s) v s → ∃ t, exec (.bit3Mem n m) s = .next t ∧
      Untouched (eaState m s) t ∧ BitFlags (v.getLsbD n.toNat) s.f t.f ∧ Past (.bit3Mem n m) s t)

/-- CHG inverts one bit of a register or of a byte of memory; no flag changes. A number of 8 or more on a byte
register is refused (rules R231, R232, R234). That refusal is the spec's decision D23. -/
def Obligations.ChgForms : Prop :=
  ∀ s : State,
    (∀ (sz : BW) n r, WellFormed (.chg4r sz n r) → ∃ t, exec (.chg4r sz n r) s = .next t ∧
      RegOnly sz.size (codeOf sz.size r) (readOp sz.size r s ^^^ (1#sz.size.bits <<< n.toNat)) s t ∧
      t.f = s.f ∧ Past (.chg4r sz n r) s t) ∧
    (∀ n r, 8 ≤ n.toNat → exec (.chg4r .byte n r) s = .refused .undefinedEncoding) ∧
    (∀ n m v, Readable .byte (eaAddr m s) v s → Writable .byte (eaAddr m s) s →
      ∃ t, exec (.chg3Mem n m) s = .next t ∧
        MemOnly .byte (eaAddr m s) (v ^^^ (1#8 <<< n.toNat)) (eaState m s) t ∧
        t.f = s.f ∧ Past (.chg3Mem n m) s t)

/-- BS1B A,r puts into A the number of the highest 1 bit and clears V; with no 1 bit V = 1 and A has no stated value;
the other flags keep their values. Its opcode byte is 0FH, at word size only (rule R233). -/
def Obligations.Bs1bForm : Prop :=
  (∀ k : R3, encode (.bs1b (.short k)) = [0b11011#5 ++ k, 0x0F#8]) ∧
  (∀ c : RegCode, encode (.bs1b (.ext c)) = [0xD7#8, codeOfReg c, 0x0F#8]) ∧
  (∀ (k : R3) (rest : List Byte),
    decode ((0b11001#5 ++ k) :: 0x0F#8 :: rest) = .refuse .undefined ∧
    decode ((0b11101#5 ++ k) :: 0x0F#8 :: rest) = .refuse .undefined) ∧
  (∀ (b : Byte) (rest : List Byte),
    decode (0xC7#8 :: b :: 0x0F#8 :: rest) = .refuse .undefined ∧
    decode (0xE7#8 :: b :: 0x0F#8 :: rest) = .refuse .undefined) ∧
  ∀ (r : RegOp) (s : State),
    (readOp .word r s ≠ 0#16 → ∃ t, exec (.bs1b r) s = .next t ∧
      RegOnly .byte codeA (BitVec.ofNat 8 (readOp .word r s).toNat.log2) s t ∧
      t.f = { s.f with v := false } ∧ Past (.bs1b r) s t) ∧
    (readOp .word r s = 0#16 → ∃ t, exec (.bs1b r) s = .next t ∧
      (∃ x, RegOnly .byte codeA x s t) ∧ t.f = { s.f with v := true } ∧ Past (.bs1b r) s t)

/-! ## CPU control (47_cpu_control.md) -/

/-- EI n and DI write SR.IFF and nothing else but `pc`; DI is the encoding of EI 7 (rules R250, R251). -/
def Obligations.EiAndDi : Prop :=
  (∀ n : BitVec 3, decode [0x06#8, 0#5 ++ n] = .ok (if n.toNat = 7 then .di else .ei n) []) ∧
  ∀ s : State,
    (∀ n, exec (.ei n) s = .next { s with iff := n, pc := s.pc + 2#32 }) ∧
    exec .di s = .next { s with iff := 7#3, pc := s.pc + 2#32 }

/-- HALT leaves `pc` past its one byte 05H and halts; nothing else changes (rule R254). That `pc` stands past HALT
is derived in rule R254 from rule R27. -/
def Obligations.HaltForm : Prop :=
  encode .halt = [0x05#8] ∧
  ∀ s : State, exec .halt s = .next { s with halted := true, pc := s.pc + 1#32 }

/-- LDC moves between a general register and a control register at the control register's width; a write changes no
other control register, and no flag changes (rules R34, R252, R253). Plain storage is the spec's decision D28. -/
def Obligations.LdcForms : Prop :=
  ∀ (cr : CReg) (r : RegOp) (s : State),
    (∃ t, exec (.ldcCrR cr r) s = .next t ∧ readCr cr t.cr = readOp cr.size r s ∧
      (∀ other : CReg, other ≠ cr → readCr other t.cr = readCr other s.cr) ∧
      t = { s with cr := t.cr, pc := t.pc } ∧ Past (.ldcCrR cr r) s t) ∧
    (WellFormed (.ldcRCr r cr) → ∃ t, exec (.ldcRCr r cr) s = .next t ∧
      RegOnly cr.size (codeOf cr.size r) (readCr cr s.cr) s t ∧ t.f = s.f ∧ Past (.ldcRCr r cr) s t)

/-! ## Jumps and calls (49_jump_call.md) -/

/-- JP to an absolute address and the relative jumps change `pc` alone; an untaken jump goes past the instruction
(rules R290, R291, R293, R294, R300). Wrapping at 2^32 and zero extension are the spec's decisions D27 and D31. -/
def Obligations.DirectJumps : Prop :=
  ∀ s : State,
    (∀ a, exec (.jp16 a) s = .next { s with pc := BitVec.ofNat 32 a.toNat }) ∧
    (∀ a, exec (.jp24 a) s = .next { s with pc := BitVec.ofNat 32 a.toNat }) ∧
    (∀ cc d,
      let a := if condTrue cc s.f then BitVec.ofInt 32 (s.pc.toInt + 2 + d.toInt) else s.pc + 2#32
      exec (.jr cc d) s = .next { s with pc := a }) ∧
    (∀ cc d,
      let a := if condTrue cc s.f then BitVec.ofInt 32 (s.pc.toInt + 3 + d.toInt) else s.pc + 3#32
      exec (.jrl cc d) s = .next { s with pc := a })

/-- JP cc,mem jumps to the address itself when the condition holds, reading nothing from memory (rule R292). -/
def Obligations.JpMemory : Prop :=
  ∀ (cc : Cond) (m : Mode) (s : State), m.steps = false →
    (condTrue cc s.f = true → exec (.jpMem cc m) s = .next { s with pc := eaAddr m s }) ∧
    (condTrue cc s.f = false → ∃ t, exec (.jpMem cc m) s = .next t ∧ t = { s with pc := t.pc } ∧
      Past (.jpMem cc m) s t)

/-- CALL and CALR push the return address as one little-endian long word at XSP - 4, move XSP there and jump;
nothing else changes (rules R78, R295, R296, R298). The byte order is the spec's decision D3, the return address of
CALR derived in rule R298. -/
def Obligations.DirectCalls : Prop :=
  ∀ s : State,
    let sp := readReg .long ⟨.xsp, 0#2⟩ s - 4#32
    Writable .long sp s →
    (∀ a, ∃ t, exec (.call16 a) s = .next t ∧ OnlyReg .long ⟨.xsp, 0#2⟩ sp s t ∧
      Wrote .long sp (s.pc + 3#32) s t ∧ SameControl s t ∧ t.f = s.f ∧ t.pc = BitVec.ofNat 32 a.toNat) ∧
    (∀ a, ∃ t, exec (.call24 a) s = .next t ∧ OnlyReg .long ⟨.xsp, 0#2⟩ sp s t ∧
      Wrote .long sp (s.pc + 4#32) s t ∧ SameControl s t ∧ t.f = s.f ∧ t.pc = BitVec.ofNat 32 a.toNat) ∧
    (∀ d, ∃ t, exec (.calr d) s = .next t ∧ OnlyReg .long ⟨.xsp, 0#2⟩ sp s t ∧
      Wrote .long sp (s.pc + 3#32) s t ∧ SameControl s t ∧ t.f = s.f ∧
      t.pc = BitVec.ofInt 32 (s.pc.toInt + 3 + d.toInt))

/-- CALL cc,mem: with the condition it pushes and jumps to the address as computed before XSP moved; without it only
`pc` moves on (rules R78, R297). The order is the spec's decision D13. -/
def Obligations.CallMemory : Prop :=
  ∀ (cc : Cond) (m : Mode) (s : State), m.steps = false →
    let sp := readReg .long ⟨.xsp, 0#2⟩ s - 4#32
    (condTrue cc s.f = true → Writable .long sp s →
      ∃ t, exec (.callMem cc m) s = .next t ∧ OnlyReg .long ⟨.xsp, 0#2⟩ sp s t ∧
        Wrote .long sp (s.pc + BitVec.ofNat 32 (encode (.callMem cc m)).length) s t ∧
        SameControl s t ∧ t.f = s.f ∧ t.pc = eaAddr m s) ∧
    (condTrue cc s.f = false → ∃ t, exec (.callMem cc m) s = .next t ∧ t = { s with pc := t.pc } ∧
      Past (.callMem cc m) s t)

/-- DJNZ counts a register down and jumps, relative to the next instruction, when the result is not zero; no flag
changes. Its opcode byte is 1CH, and the instruction has 3 bytes, or 4 with the extension code (rule R299). -/
def Obligations.DjnzForm : Prop :=
  (∀ (k : R3) (d : Byte), encode (.djnz .byte (.short k) d) = [0b11001#5 ++ k, 0x1C#8, d] ∧
    encode (.djnz .word (.short k) d) = [0b11011#5 ++ k, 0x1C#8, d]) ∧
  (∀ (c : RegCode) (d : Byte), encode (.djnz .byte (.ext c) d) = [0xC7#8, codeOfReg c, 0x1C#8, d] ∧
    encode (.djnz .word (.ext c) d) = [0xD7#8, codeOfReg c, 0x1C#8, d]) ∧
  ∀ (sz : BW) (r : RegOp) (d : Byte) (s : State), WellFormed (.djnz sz r d) →
    let v := readOp sz.size r s - 1#sz.size.bits
    let after := s.pc + BitVec.ofNat 32 (encode (.djnz sz r d)).length
    ∃ t, exec (.djnz sz r d) s = .next t ∧ RegOnly sz.size (codeOf sz.size r) v s t ∧ t.f = s.f ∧
      t.pc = if v = 0 then after else BitVec.ofInt 32 (after.toInt + d.toInt)

/-- LDA, JP and CALL with a mode that steps its base register are refused, by the decoder as by `exec` (rules R131,
R292, R297, decision D14). -/
def Obligations.SteppingModesNotAdmitted : Prop :=
  ∀ (m : Mode) (R : R3) (cc : Cond) (s : State), m.steps = true →
    exec (.ldaW R m) s = .refused .notAdmitted ∧ exec (.ldaL R m) s = .refused .notAdmitted ∧
    exec (.jpMem cc m) s = .refused .notAdmitted ∧ exec (.callMem cc m) s = .refused .notAdmitted ∧
    ∀ rest,
      decode (encode (.ldaW R m) ++ rest) = .refuse .notAdmitted ∧
      decode (encode (.ldaL R m) ++ rest) = .refuse .notAdmitted ∧
      decode (encode (.jpMem cc m) ++ rest) = .refuse .notAdmitted ∧
      decode (encode (.callMem cc m) ++ rest) = .refuse .notAdmitted

/-! ## Conditions (30_encoding.md R96) -/

/-- The sixteen rows of the condition table on every flag state (rule R96), and what the names say: under the flags of
a comparison of `a` with `b`, the signed conditions compare the signed values and the unsigned ones the unsigned values
(rules R96, R163). V as signed overflow is the spec's decision D30. -/
def Obligations.ConditionsAfterCompare : Prop :=
  (∀ f : Flags,
    let holds := fun code : BitVec 4 => condTrue (condOfCode code) f = true
    (¬ holds 0x0#4 ∧ holds 0x8#4) ∧
    ((holds 0x1#4 ↔ f.s ≠ f.v) ∧ (holds 0x9#4 ↔ f.s = f.v)) ∧
    ((holds 0x2#4 ↔ f.z = true ∨ f.s ≠ f.v) ∧ (holds 0xA#4 ↔ f.z = false ∧ f.s = f.v)) ∧
    ((holds 0x3#4 ↔ f.c = true ∨ f.z = true) ∧ (holds 0xB#4 ↔ f.c = false ∧ f.z = false)) ∧
    ((holds 0x4#4 ↔ f.v = true) ∧ (holds 0xC#4 ↔ f.v = false)) ∧
    ((holds 0x5#4 ↔ f.s = true) ∧ (holds 0xD#4 ↔ f.s = false)) ∧
    ((holds 0x6#4 ↔ f.z = true) ∧ (holds 0xE#4 ↔ f.z = false)) ∧
    ((holds 0x7#4 ↔ f.c = true) ∧ (holds 0xF#4 ↔ f.c = false))) ∧
  ∀ (sz : Size) (a b : BitVec sz.bits) (f : Flags), CompareFlags sz a b f →
    (condTrue .lt f = decide (a.toInt < b.toInt) ∧ condTrue .ge f = decide (b.toInt ≤ a.toInt)) ∧
    (condTrue .le f = decide (a.toInt ≤ b.toInt) ∧ condTrue .gt f = decide (b.toInt < a.toInt)) ∧
    (condTrue .c f = decide (a.toNat < b.toNat) ∧ condTrue .nc f = decide (b.toNat ≤ a.toNat)) ∧
    (condTrue .ule f = decide (a.toNat ≤ b.toNat) ∧ condTrue .ugt f = decide (b.toNat < a.toNat)) ∧
    (condTrue .z f = decide (a = b) ∧ condTrue .nz f = decide (a ≠ b)) ∧
    (condTrue .mi f = (a - b).msb ∧ condTrue .pl f = !(a - b).msb) ∧
    (condTrue .ov f = diffOverflow a b ∧ condTrue .nov f = !diffOverflow a b) ∧
    (condTrue .f f = false ∧ condTrue .t f = true)

/-! ## Reset (10_state.md R38) -/

/-- After reset the machine is not halted, which is all the source lets the spec derive; the rest is the model's
choice: `pc` 1000H (log entry 3), XSP 100H, IFF 7, RFP 0 (log entry 4), zero elsewhere (log entry 5), ADDR_BITS 24
(log entry 6), the addresses 000000H to FFFFFFH existing and no byte of them with a value (log entry 7), no program
text (log entries 2, 8) and no pending request (log entry 12). -/
def Obligations.ResetState : Prop :=
  State.reset.halted = false ∧
  State.reset.pc = 0x1000#32 ∧ State.reset.iff = 7#3 ∧ State.reset.rfp = 0#2 ∧
  readReg .long ⟨.xsp, 0#2⟩ State.reset = 0x100#32 ∧
  (∀ p, p ≠ .xsp → State.reset.regs.get p = 0#32) ∧
  (∀ cr, readCr cr State.reset.cr = 0) ∧
  State.reset.f = ⟨false, false, false, false, false, false⟩ ∧ State.reset.fAlt = State.reset.f ∧
  State.reset.pending = [] ∧ (∀ a, State.reset.mem.read a = none) ∧
  State.reset.launch.addrBits = 24 ∧ (∀ a, State.reset.launch.has a = decide (a < 0x1000000)) ∧
  (∀ a, State.reset.launch.inText a = false)

/-! ## Interrupt entry (60_exceptions.md R325) -/

/-- The entry of a request, whatever the open parameter INTERRUPT_ENTRY is: when the bytes it stores can be written, it
completes, clears `halted`, takes its registers, `pc`, flags, mask, bank and pending requests from the parameter,
writes its stores in order and no other byte, and leaves every control register, INTNEST too, and the launch alone
(rules R325, R328, R335, decisions D17, D28). The form of the parameter, which cannot touch the latter two, is log
entry 24. -/
def Obligations.InterruptEntry : Prop :=
  ∀ (r : Request) (s : State),
    let e := Config.interruptEntry s r.source r.level
    (∀ c ∈ e.stores, ByteWritable c.1 s) →
    ∃ t, takeInterrupt r s = .next t ∧ t.halted = false ∧
      t.regs = e.regs ∧ t.pc = e.pc ∧ t.f = e.f ∧ t.fAlt = e.fAlt ∧ t.iff = e.iff ∧ t.rfp = e.rfp ∧
      t.cr = s.cr ∧ t.pending = e.pending ∧ t.launch = s.launch ∧
      (∀ x : Nat, (∀ c ∈ e.stores, c.1.toNat ≠ x) → t.mem.read x = s.mem.read x) ∧
      ∀ before c after, e.stores = before ++ c :: after → (∀ d ∈ after, d.1 ≠ c.1) →
        t.mem.read c.1.toNat = some c.2

end
end

