-- ==== Sys2Proof/Laws/State.lean ====
section
/-! SUPPORT. What each update of the state does to each field, true by `rfl`. -/

namespace Sys2Proof.Machine

variable (s : State)

/-! ## `advance` -/

@[simp] theorem advance_regs (len : Nat) : (advance len s).regs = s.regs := rfl
@[simp] theorem advance_pc (len : Nat) : (advance len s).pc = s.pc + BitVec.ofNat 32 len := rfl
@[simp] theorem advance_f (len : Nat) : (advance len s).f = s.f := rfl
@[simp] theorem advance_fAlt (len : Nat) : (advance len s).fAlt = s.fAlt := rfl
@[simp] theorem advance_iff (len : Nat) : (advance len s).iff = s.iff := rfl
@[simp] theorem advance_rfp (len : Nat) : (advance len s).rfp = s.rfp := rfl
@[simp] theorem advance_cr (len : Nat) : (advance len s).cr = s.cr := rfl
@[simp] theorem advance_halted (len : Nat) : (advance len s).halted = s.halted := rfl
@[simp] theorem advance_pending (len : Nat) : (advance len s).pending = s.pending := rfl
@[simp] theorem advance_mem (len : Nat) : (advance len s).mem = s.mem := rfl
@[simp] theorem advance_launch (len : Nat) : (advance len s).launch = s.launch := rfl
@[simp] theorem advance_draws (len : Nat) : (advance len s).draws = s.draws := rfl

/-! ## `jumpTo` -/

@[simp] theorem jumpTo_regs (a : Long) : (jumpTo a s).regs = s.regs := rfl
@[simp] theorem jumpTo_pc (a : Long) : (jumpTo a s).pc = a := rfl
@[simp] theorem jumpTo_f (a : Long) : (jumpTo a s).f = s.f := rfl
@[simp] theorem jumpTo_fAlt (a : Long) : (jumpTo a s).fAlt = s.fAlt := rfl
@[simp] theorem jumpTo_iff (a : Long) : (jumpTo a s).iff = s.iff := rfl
@[simp] theorem jumpTo_rfp (a : Long) : (jumpTo a s).rfp = s.rfp := rfl
@[simp] theorem jumpTo_cr (a : Long) : (jumpTo a s).cr = s.cr := rfl
@[simp] theorem jumpTo_halted (a : Long) : (jumpTo a s).halted = s.halted := rfl
@[simp] theorem jumpTo_pending (a : Long) : (jumpTo a s).pending = s.pending := rfl
@[simp] theorem jumpTo_mem (a : Long) : (jumpTo a s).mem = s.mem := rfl
@[simp] theorem jumpTo_launch (a : Long) : (jumpTo a s).launch = s.launch := rfl
@[simp] theorem jumpTo_draws (a : Long) : (jumpTo a s).draws = s.draws := rfl

/-! ## `drawn` -/

@[simp] theorem drawn_regs (k : Nat) : (drawn k s).regs = s.regs := rfl
@[simp] theorem drawn_pc (k : Nat) : (drawn k s).pc = s.pc := rfl
@[simp] theorem drawn_f (k : Nat) : (drawn k s).f = s.f := rfl
@[simp] theorem drawn_fAlt (k : Nat) : (drawn k s).fAlt = s.fAlt := rfl
@[simp] theorem drawn_iff (k : Nat) : (drawn k s).iff = s.iff := rfl
@[simp] theorem drawn_rfp (k : Nat) : (drawn k s).rfp = s.rfp := rfl
@[simp] theorem drawn_cr (k : Nat) : (drawn k s).cr = s.cr := rfl
@[simp] theorem drawn_halted (k : Nat) : (drawn k s).halted = s.halted := rfl
@[simp] theorem drawn_pending (k : Nat) : (drawn k s).pending = s.pending := rfl
@[simp] theorem drawn_mem (k : Nat) : (drawn k s).mem = s.mem := rfl
@[simp] theorem drawn_launch (k : Nat) : (drawn k s).launch = s.launch := rfl
@[simp] theorem drawn_draws (k : Nat) : (drawn k s).draws = s.draws + k := rfl

/-! ## `setRfp` -/

@[simp] theorem setRfp_regs (v : BitVec 3) : (setRfp v s).regs = s.regs := rfl
@[simp] theorem setRfp_pc (v : BitVec 3) : (setRfp v s).pc = s.pc := rfl
@[simp] theorem setRfp_f (v : BitVec 3) : (setRfp v s).f = s.f := rfl
@[simp] theorem setRfp_fAlt (v : BitVec 3) : (setRfp v s).fAlt = s.fAlt := rfl
@[simp] theorem setRfp_iff (v : BitVec 3) : (setRfp v s).iff = s.iff := rfl
@[simp] theorem setRfp_rfp (v : BitVec 3) : (setRfp v s).rfp = v.extractLsb' 0 2 := rfl
@[simp] theorem setRfp_cr (v : BitVec 3) : (setRfp v s).cr = s.cr := rfl
@[simp] theorem setRfp_halted (v : BitVec 3) : (setRfp v s).halted = s.halted := rfl
@[simp] theorem setRfp_pending (v : BitVec 3) : (setRfp v s).pending = s.pending := rfl
@[simp] theorem setRfp_mem (v : BitVec 3) : (setRfp v s).mem = s.mem := rfl
@[simp] theorem setRfp_launch (v : BitVec 3) : (setRfp v s).launch = s.launch := rfl
@[simp] theorem setRfp_draws (v : BitVec 3) : (setRfp v s).draws = s.draws := rfl

/-! ## `writeReg` -/

@[simp] theorem writeReg_regs (sz : Size) (c : RegCode) (x : BitVec sz.bits) :
    (writeReg sz c x s).regs =
      s.regs.set (placeOf s c.row) (setPart sz c.off (s.regs.get (placeOf s c.row)) x) := rfl
@[simp] theorem writeReg_pc (sz : Size) (c : RegCode) (x : BitVec sz.bits) : (writeReg sz c x s).pc = s.pc := rfl
@[simp] theorem writeReg_f (sz : Size) (c : RegCode) (x : BitVec sz.bits) : (writeReg sz c x s).f = s.f := rfl
@[simp] theorem writeReg_fAlt (sz : Size) (c : RegCode) (x : BitVec sz.bits) :
    (writeReg sz c x s).fAlt =
      s.fAlt := rfl
@[simp] theorem writeReg_iff (sz : Size) (c : RegCode) (x : BitVec sz.bits) : (writeReg sz c x s).iff = s.iff := rfl
@[simp] theorem writeReg_rfp (sz : Size) (c : RegCode) (x : BitVec sz.bits) : (writeReg sz c x s).rfp = s.rfp := rfl
@[simp] theorem writeReg_cr (sz : Size) (c : RegCode) (x : BitVec sz.bits) : (writeReg sz c x s).cr = s.cr := rfl
@[simp] theorem writeReg_halted (sz : Size) (c : RegCode) (x : BitVec sz.bits) :
    (writeReg sz c x s).halted =
      s.halted := rfl
@[simp] theorem writeReg_pending (sz : Size) (c : RegCode) (x : BitVec sz.bits) :
    (writeReg sz c x s).pending =
      s.pending := rfl
@[simp] theorem writeReg_mem (sz : Size) (c : RegCode) (x : BitVec sz.bits) : (writeReg sz c x s).mem = s.mem := rfl
@[simp] theorem writeReg_launch (sz : Size) (c : RegCode) (x : BitVec sz.bits) :
    (writeReg sz c x s).launch =
      s.launch := rfl
@[simp] theorem writeReg_draws (sz : Size) (c : RegCode) (x : BitVec sz.bits) :
    (writeReg sz c x s).draws =
      s.draws := rfl

/-! ## Register operands and memory operands -/

@[simp] theorem writeR_pc (sz : Size) (k : R3) (x : BitVec sz.bits) : (writeR sz k x s).pc = s.pc := rfl
@[simp] theorem writeR_f (sz : Size) (k : R3) (x : BitVec sz.bits) : (writeR sz k x s).f = s.f := rfl
@[simp] theorem writeR_fAlt (sz : Size) (k : R3) (x : BitVec sz.bits) : (writeR sz k x s).fAlt = s.fAlt := rfl
@[simp] theorem writeR_iff (sz : Size) (k : R3) (x : BitVec sz.bits) : (writeR sz k x s).iff = s.iff := rfl
@[simp] theorem writeR_rfp (sz : Size) (k : R3) (x : BitVec sz.bits) : (writeR sz k x s).rfp = s.rfp := rfl
@[simp] theorem writeR_cr (sz : Size) (k : R3) (x : BitVec sz.bits) : (writeR sz k x s).cr = s.cr := rfl
@[simp] theorem writeR_halted (sz : Size) (k : R3) (x : BitVec sz.bits) : (writeR sz k x s).halted = s.halted := rfl
@[simp] theorem writeR_pending (sz : Size) (k : R3) (x : BitVec sz.bits) : (writeR sz k x s).pending = s.pending := rfl
@[simp] theorem writeR_mem (sz : Size) (k : R3) (x : BitVec sz.bits) : (writeR sz k x s).mem = s.mem := rfl
@[simp] theorem writeR_launch (sz : Size) (k : R3) (x : BitVec sz.bits) : (writeR sz k x s).launch = s.launch := rfl
@[simp] theorem writeR_draws (sz : Size) (k : R3) (x : BitVec sz.bits) : (writeR sz k x s).draws = s.draws := rfl

@[simp] theorem writeOp_pc (sz : Size) (r : RegOp) (x : BitVec sz.bits) : (writeOp sz r x s).pc = s.pc := rfl
@[simp] theorem writeOp_f (sz : Size) (r : RegOp) (x : BitVec sz.bits) : (writeOp sz r x s).f = s.f := rfl
@[simp] theorem writeOp_fAlt (sz : Size) (r : RegOp) (x : BitVec sz.bits) : (writeOp sz r x s).fAlt = s.fAlt := rfl
@[simp] theorem writeOp_iff (sz : Size) (r : RegOp) (x : BitVec sz.bits) : (writeOp sz r x s).iff = s.iff := rfl
@[simp] theorem writeOp_rfp (sz : Size) (r : RegOp) (x : BitVec sz.bits) : (writeOp sz r x s).rfp = s.rfp := rfl
@[simp] theorem writeOp_cr (sz : Size) (r : RegOp) (x : BitVec sz.bits) : (writeOp sz r x s).cr = s.cr := rfl
@[simp] theorem writeOp_halted (sz : Size) (r : RegOp) (x : BitVec sz.bits) : (writeOp sz r x s).halted = s.halted := rfl
@[simp] theorem writeOp_pending (sz : Size) (r : RegOp) (x : BitVec sz.bits) : (writeOp sz r x s).pending = s.pending := rfl
@[simp] theorem writeOp_mem (sz : Size) (r : RegOp) (x : BitVec sz.bits) : (writeOp sz r x s).mem = s.mem := rfl
@[simp] theorem writeOp_launch (sz : Size) (r : RegOp) (x : BitVec sz.bits) : (writeOp sz r x s).launch = s.launch := rfl
@[simp] theorem writeOp_draws (sz : Size) (r : RegOp) (x : BitVec sz.bits) : (writeOp sz r x s).draws = s.draws := rfl

@[simp] theorem writeRow_pc (r : Row) (x : Long) : (writeRow r x s).pc = s.pc := rfl
@[simp] theorem writeRow_f (r : Row) (x : Long) : (writeRow r x s).f = s.f := rfl
@[simp] theorem writeRow_fAlt (r : Row) (x : Long) : (writeRow r x s).fAlt = s.fAlt := rfl
@[simp] theorem writeRow_iff (r : Row) (x : Long) : (writeRow r x s).iff = s.iff := rfl
@[simp] theorem writeRow_rfp (r : Row) (x : Long) : (writeRow r x s).rfp = s.rfp := rfl
@[simp] theorem writeRow_cr (r : Row) (x : Long) : (writeRow r x s).cr = s.cr := rfl
@[simp] theorem writeRow_halted (r : Row) (x : Long) : (writeRow r x s).halted = s.halted := rfl
@[simp] theorem writeRow_pending (r : Row) (x : Long) : (writeRow r x s).pending = s.pending := rfl
@[simp] theorem writeRow_mem (r : Row) (x : Long) : (writeRow r x s).mem = s.mem := rfl
@[simp] theorem writeRow_launch (r : Row) (x : Long) : (writeRow r x s).launch = s.launch := rfl
@[simp] theorem writeRow_draws (r : Row) (x : Long) : (writeRow r x s).draws = s.draws := rfl

@[simp] theorem countDown_pc : (countDown s).pc = s.pc := rfl
@[simp] theorem countDown_f : (countDown s).f = s.f := rfl
@[simp] theorem countDown_fAlt : (countDown s).fAlt = s.fAlt := rfl
@[simp] theorem countDown_iff : (countDown s).iff = s.iff := rfl
@[simp] theorem countDown_rfp : (countDown s).rfp = s.rfp := rfl
@[simp] theorem countDown_cr : (countDown s).cr = s.cr := rfl
@[simp] theorem countDown_halted : (countDown s).halted = s.halted := rfl
@[simp] theorem countDown_pending : (countDown s).pending = s.pending := rfl
@[simp] theorem countDown_mem : (countDown s).mem = s.mem := rfl
@[simp] theorem countDown_launch : (countDown s).launch = s.launch := rfl
@[simp] theorem countDown_draws : (countDown s).draws = s.draws := rfl

@[simp] theorem eaState_pc (m : Mode) : (eaState m s).pc = s.pc := by cases m <;> rfl
@[simp] theorem eaState_f (m : Mode) : (eaState m s).f = s.f := by cases m <;> rfl
@[simp] theorem eaState_fAlt (m : Mode) : (eaState m s).fAlt = s.fAlt := by cases m <;> rfl
@[simp] theorem eaState_iff (m : Mode) : (eaState m s).iff = s.iff := by cases m <;> rfl
@[simp] theorem eaState_rfp (m : Mode) : (eaState m s).rfp = s.rfp := by cases m <;> rfl
@[simp] theorem eaState_cr (m : Mode) : (eaState m s).cr = s.cr := by cases m <;> rfl
@[simp] theorem eaState_halted (m : Mode) : (eaState m s).halted = s.halted := by cases m <;> rfl
@[simp] theorem eaState_pending (m : Mode) : (eaState m s).pending = s.pending := by cases m <;> rfl
@[simp] theorem eaState_mem (m : Mode) : (eaState m s).mem = s.mem := by cases m <;> rfl
@[simp] theorem eaState_launch (m : Mode) : (eaState m s).launch = s.launch := by cases m <;> rfl
@[simp] theorem eaState_draws (m : Mode) : (eaState m s).draws = s.draws := by cases m <;> rfl

end Sys2Proof.Machine
end

