-- ==== Sys2Proof/Laws/Encode.lean ====
section
/-! SUPPORT. How long an encoding is (rule R101), and what the bounded readers of the decoder do on more bytes. -/

namespace Sys2Proof

open Machine

/-! ## Lengths -/

@[simp] theorem wordBytes_length (v : Word) : (wordBytes v).length = 2 := rfl

@[simp] theorem bytes24_length (v : BitVec 24) : (bytes24 v).length = 3 := rfl

@[simp] theorem longBytes_length (v : Long) : (longBytes v).length = 4 := rfl

@[simp] theorem Imm.bytes_length (v : Imm) : v.bytes.length = v.size.bytes := by cases v <;> rfl

@[simp] theorem ImmBW.bytes_length (v : ImmBW) : v.bytes.length = v.bw.size.bytes := by cases v <;> rfl

@[simp] theorem encodeReg_length (sz : Size) (r : RegOp) (op : Byte) (l : List Byte) :
    (encodeReg sz r op l).length = regLen r l.length := by
  cases r <;> simp [encodeReg, encodeReg1, regLen] <;> omega

@[simp] theorem modeExt_length (m : Mode) : (modeExt m).length = extCount m := by cases m <;> rfl

@[simp] theorem encodeMem_length (zz : BitVec 2) (m : Mode) (op : Byte) (l : List Byte) :
    (encodeMem zz m op l).length = memLen m l.length := by
  simp [encodeMem, memLen]
  omega

@[simp] theorem encodeSrc_length (sz : Size) (m : Mode) (op : Byte) (l : List Byte) :
    (encodeSrc sz m op l).length = memLen m l.length := encodeMem_length _ m op l

@[simp] theorem encodeDst_length (m : Mode) (op : Byte) (l : List Byte) :
    (encodeDst m op l).length = memLen m l.length := encodeMem_length _ m op l

@[simp] theorem encodeBlock_length (sz : BW) (R : R3) (op : Byte) : (encodeBlock sz R op).length = 2 := rfl

/-! ## The decoder reads from the front -/

/-- A reader that answers on some bytes answers the same on those bytes and more. -/
def ReadsFront {α : Type} (f : List Byte → Parsed α) : Prop :=
  ∀ bs a rest more, f bs = .ok a rest → f (bs ++ more) = .ok a (rest ++ more)

/-- A reader that refuses some bytes refuses those bytes and more. -/
def RefusesFront {α : Type} (f : List Byte → Parsed α) : Prop :=
  ∀ bs r more, f bs = .refuse r → f (bs ++ more) = .refuse r

/-- Both. -/
structure Front {α : Type} (f : List Byte → Parsed α) : Prop where
  ok : ReadsFront f
  refuse : RefusesFront f

theorem front_ok {α : Type} (a : α) : Front (fun bs => Parsed.ok a bs) :=
  ⟨fun _ _ _ _ h => (by cases h; rfl), fun _ _ _ h => (by cases h)⟩

theorem front_refuse {α : Type} (r : DecodeRefusal) : Front (fun _ => (Parsed.refuse r : Parsed α)) :=
  ⟨fun _ _ _ _ h => (by cases h), fun _ _ _ h => h⟩

theorem front_bind {α β : Type} {f : List Byte → Parsed α} {g : α → List Byte → Parsed β} (hf : Front f)
    (hg : ∀ a, Front (g a)) : Front (fun bs => (f bs).bind g) := by
  constructor
  · intro bs b rest more h
    simp only at h ⊢
    cases e : f bs with
    | ok a r =>
      rw [e] at h
      rw [hf.ok bs a r more e]
      exact (hg a).ok r b rest more h
    | short => rw [e] at h; cases h
    | refuse r => rw [e] at h; cases h
  · intro bs s more h
    simp only at h ⊢
    cases e : f bs with
    | ok a r =>
      rw [e] at h
      rw [hf.ok bs a r more e]
      exact (hg a).refuse r s more h
    | short => rw [e] at h; cases h
    | refuse r => rw [hf.refuse bs r more e]; rw [e] at h; exact h

theorem front_ite {α : Type} {c : Prop} [Decidable c] {f g : List Byte → Parsed α} (hf : Front f) (hg : Front g) :
    Front (fun bs => if c then f bs else g bs) := by
  by_cases h : c
  · simpa [h] using hf
  · simpa [h] using hg

theorem front_takeByte : Front takeByte := by
  constructor <;> intro bs <;> cases bs <;> intros <;> simp_all [takeByte]

theorem front_takeWord : Front takeWord := by
  constructor <;> intro bs <;> rcases bs with _ | ⟨_, _ | ⟨_, _⟩⟩ <;> intros <;> simp_all [takeWord]

theorem front_take24 : Front take24 := by
  constructor <;> intro bs <;> rcases bs with _ | ⟨_, _ | ⟨_, _ | ⟨_, _⟩⟩⟩ <;> intros <;> simp_all [take24]

theorem front_takeLong : Front takeLong := by
  constructor <;> intro bs <;> rcases bs with _ | ⟨_, _ | ⟨_, _ | ⟨_, _ | ⟨_, _⟩⟩⟩⟩ <;> intros <;>
    simp_all [takeLong]

theorem front_takeImm (sz : Size) : Front (takeImm sz) := by
  cases sz
  · exact front_bind front_takeByte fun v => front_ok _
  · exact front_bind front_takeWord fun v => front_ok _
  · exact front_bind front_takeLong fun v => front_ok _

theorem front_takeImmBW (sz : BW) : Front (takeImmBW sz) := by
  cases sz
  · exact front_bind front_takeByte fun v => front_ok _
  · exact front_bind front_takeWord fun v => front_ok _

theorem front_takeBitNumber : Front takeBitNumber :=
  front_bind front_takeByte fun _ => front_ite (front_ok _) (front_refuse _)

theorem front_takeNumber3 : Front takeNumber3 :=
  front_bind front_takeByte fun _ => front_ite (front_ok _) (front_refuse _)

theorem front_takeCReg (sz : Size) : Front (takeCReg sz) :=
  front_bind front_takeByte fun b => by
    cases cregOfCode sz b
    · exact front_refuse _
    · exact front_ok _

theorem front_takeReg (sz : Size) : Front (takeReg sz) :=
  front_bind front_takeByte fun b => by
    cases regOfCode b
    · exact front_refuse _
    · exact front_ite (front_ok _) (front_refuse _)

theorem front_takeBase : Front takeBase := front_bind (front_takeReg _) fun _ => front_ok _

theorem front_takeMode3 : Front takeMode3 :=
  front_bind front_takeByte fun b => by
    split
    · cases rowOfCode (hi6 b)
      · exact front_refuse _
      · exact front_ok _
    · cases rowOfCode (hi6 b)
      · exact front_refuse _
      · exact front_bind front_takeWord fun _ => front_ok _
    · exact front_refuse _
    · split
      · exact front_bind front_takeBase fun _ => front_bind (front_takeReg _) fun _ => front_ok _
      · exact front_bind front_takeBase fun _ => front_bind (front_takeReg _) fun _ => front_ok _
      · exact front_refuse _

theorem front_takeStepping (mk : Row → Step → Mode) : Front (takeStepping mk) :=
  front_bind front_takeByte fun b => by
    cases rowOfCode (hi6 b) <;> cases stepOfCode (lo2 b) <;> first | exact front_refuse _ | exact front_ok _

theorem front_takeMode (m : BitVec 1) (mmmm : BitVec 4) : Front (takeMode m mmmm) := by
  unfold takeMode
  refine front_ite (front_ite (front_ok _) (front_bind front_takeByte fun _ => front_ok _)) ?_
  split
  · exact front_bind front_takeByte fun _ => front_ok _
  · exact front_bind front_takeWord fun _ => front_ok _
  · exact front_bind front_take24 fun _ => front_ok _
  · exact front_takeMode3
  · exact front_takeStepping _
  · exact front_takeStepping _
  · exact front_refuse _

theorem front_atBW (sz : Size) {k : BW → List Byte → Parsed Instr} (h : ∀ z, Front (k z)) :
    Front (fun bs => atBW sz fun z => k z bs) := by
  unfold atBW
  cases sz.bw
  · exact front_refuse _
  · exact h _

theorem front_atWL (sz : Size) {k : WL → List Byte → Parsed Instr} (h : ∀ z, Front (k z)) :
    Front (fun bs => atWL sz fun z => k z bs) := by
  unfold atWL
  cases sz.wl
  · exact front_refuse _
  · exact h _

theorem front_okIf (c : Bool) (i : Instr) : Front (okIf c i) := front_ite (front_ok _) (front_refuse _)

theorem front_decodeS (b : Byte) : Front (decodeS b) := by
  unfold decodeS
  repeat' split
  all_goals first
    | exact front_refuse _
    | exact front_ok _
    | exact front_bind front_takeNumber3 fun _ => front_ok _
    | exact front_bind front_takeByte fun _ => front_ok _
    | exact front_bind front_takeWord fun _ => front_ok _
    | exact front_bind front_take24 fun _ => front_ok _
    | exact front_bind front_takeLong fun _ => front_ok _
    | exact front_bind front_takeByte fun _ => front_bind front_takeByte fun _ => front_ok _
    | exact front_bind front_takeByte fun _ => front_bind front_takeWord fun _ => front_ok _

theorem front_decodeReg (sz : Size) (r : RegOp) (b : Byte) : Front (decodeReg sz r b) := by
  unfold decodeReg
  dsimp only
  repeat' split
  all_goals first
    | exact front_refuse _
    | exact front_ok _
    | exact front_bind (front_takeImm _) fun _ => front_ok _
    | exact front_bind (front_takeCReg _) fun _ => front_ok _
    | exact front_atBW _ fun _ => front_ok _
    | exact front_atWL _ fun _ => front_ok _
    | exact front_atBW _ fun _ => front_okIf _ _
    | exact front_atBW _ fun _ => front_bind front_takeByte fun _ => front_ok _
    | exact front_atBW _ fun _ => front_bind front_takeBitNumber fun _ => front_ok _
    | exact front_atBW _ fun _ => front_bind front_takeBitNumber fun _ => front_okIf _ _
    | exact front_atBW _ fun _ => front_ite (front_bind (front_takeImmBW _) fun _ => front_ok _) (front_refuse _)

theorem front_decodeBlock (sz : Size) (m : Mode) (k : BitVec 3) : Front (decodeBlock sz m k) := by
  unfold decodeBlock
  refine front_atBW _ fun z => ?_
  cases m <;> try exact front_refuse _
  dsimp only
  repeat' split
  all_goals first
    | exact front_ok _
    | exact front_refuse _

theorem front_decodeSrc (sz : Size) (m : Mode) (b : Byte) : Front (decodeSrc sz m b) := by
  unfold decodeSrc
  dsimp only
  repeat' split
  all_goals first
    | exact front_refuse _
    | exact front_ok _
    | exact front_decodeBlock _ _ _
    | exact front_atBW _ fun _ => front_ok _
    | exact front_atBW _ fun _ => front_okIf _ _
    | exact front_atBW _ fun _ => front_bind front_takeWord fun _ => front_ok _
    | exact front_atBW _ fun _ => front_bind (front_takeImmBW _) fun _ => front_ok _

theorem front_admit (m : Mode) {f : List Byte → Parsed Instr} (h : Front f) : Front (fun bs => ifNotStepping m (f bs)) :=
  front_ite (front_refuse _) h

theorem front_decodeDst (m : Mode) (b : Byte) : Front (decodeDst m b) := by
  unfold decodeDst
  dsimp only
  repeat' split
  all_goals first
    | exact front_refuse _
    | exact front_ok _
    | exact front_admit _ (front_ok _)
    | exact front_bind front_takeByte fun _ => front_ok _
    | exact front_bind front_takeWord fun _ => front_ok _

theorem front_decodeLdar : Front decodeLdar :=
  front_bind front_takeWord fun _ => front_bind front_takeByte fun b => by
    split
    · exact front_ok _
    · exact front_ok _
    · exact front_refuse _

theorem front_decodeMem (b : Byte) : Front (decodeMem b) := by
  unfold decodeMem
  split
  · exact front_bind (front_takeMode _ _) fun _ => front_bind front_takeByte fun _ => front_decodeSrc _ _ _
  · have h : Front fun bs => (takeMode (b.extractLsb' 6 1) (lo4 b) bs).bind fun m rest =>
        (takeByte rest).bind fun op rest => decodeDst m op rest :=
      front_bind (front_takeMode _ _) fun _ => front_bind front_takeByte fun _ => front_decodeDst _ _
    by_cases hb : b = 0xF3#8
    · subst hb
      constructor
      · intro bs i rest more e
        cases bs with
        | nil => cases e
        | cons c bs =>
          by_cases hc : c = 0x13#8
          · subst hc; exact front_decodeLdar.ok bs i rest more e
          · simp only [List.head?_cons, List.cons_append, Option.some.injEq, hc, and_false, if_false] at e ⊢
            exact h.ok (c :: bs) i rest more e
      · intro bs r more e
        cases bs with
        | nil => cases e
        | cons c bs =>
          by_cases hc : c = 0x13#8
          · subst hc; exact front_decodeLdar.refuse bs r more e
          · simp only [List.head?_cons, List.cons_append, Option.some.injEq, hc, and_false, if_false] at e ⊢
            exact h.refuse (c :: bs) r more e
    · have hn : ∀ bs : List Byte, ¬ (b = 0xF3#8 ∧ bs.head? = some 0x13#8) := fun _ k => hb k.1
      constructor
      · intro bs i rest more e
        simp only [if_neg (hn _)] at e ⊢
        exact h.ok bs i rest more e
      · intro bs r more e
        simp only [if_neg (hn _)] at e ⊢
        exact h.refuse bs r more e

/-- The decoder reads from the front: what it answers on some bytes it answers on those bytes and more. -/
theorem front_decode : Front decode :=
  front_bind front_takeByte fun b => by
    refine front_ite (front_decodeS b) (front_ite (front_decodeMem b) ?_)
    split
    · refine front_ite (front_bind front_takeByte fun _ => front_decodeReg _ _ _) (front_ite ?_ (front_decodeMem b))
      exact front_bind (front_takeReg _) fun _ => front_bind front_takeByte fun _ => front_decodeReg _ _ _
    · exact front_ite (front_refuse _) (front_ite (front_refuse _) (front_decodeMem b))

end Sys2Proof
end

