-- ==== Sys2Proof/Laws/Flags.lean ====
section
/-! SUPPORT. The flag computations read as integers: addition, subtraction, parity, the bit searches, and which
fields each flag update leaves alone (rules R10, R11). -/

namespace Sys2Proof.Machine

/-! ## Addition and subtraction -/

theorem msb_eq_decide_half {m : Nat} (a : BitVec (m + 1)) : a.msb = decide (2 ^ m ≤ a.toNat) := by
  simpa using BitVec.msb_eq_decide a

theorem toInt_eq_cases {m : Nat} (a : BitVec (m + 1)) :
    (a.toNat < 2 ^ m ∧ a.toInt = a.toNat) ∨ (2 ^ m ≤ a.toNat ∧ a.toInt = (a.toNat : Int) - 2 * 2 ^ m) := by
  have h := BitVec.toInt_eq_toNat_cond a
  have hp : (2 : Int) ^ (m + 1) = 2 * 2 ^ m := by rw [Int.pow_succ, Int.mul_comm]
  have hn : 2 ^ (m + 1) = 2 * 2 ^ m := by rw [Nat.pow_succ, Nat.mul_comm]
  rw [h, hn]
  split
  · exact .inl ⟨by omega, rfl⟩
  · exact .inr ⟨by omega, by push_cast; rfl⟩

theorem addN_res {n : Nat} (a b : BitVec n) (c : Bool) : (addN a b c).res = sumOf a b c := by
  apply BitVec.eq_of_toNat_eq
  simp [addN, sumOf, BitVec.toNat_add, BitVec.toNat_ofNat]

theorem addN_s {n : Nat} (a b : BitVec n) (c : Bool) : (addN a b c).s = (sumOf a b c).msb := by
  rw [← addN_res]; rfl

theorem addN_z {n : Nat} (a b : BitVec n) (c : Bool) : (addN a b c).z = (sumOf a b c == 0) := by
  rw [← addN_res]; rfl

theorem addN_h {n : Nat} (a b : BitVec n) (c : Bool) : (addN a b c).h = halfCarry a b c := rfl

theorem addN_c {n : Nat} (a b : BitVec n) (c : Bool) : (addN a b c).c = carryOut a b c := rfl

/-- The sign rule for V is two's-complement overflow of the sum (rule R11, decision D30). -/
theorem addN_v {m : Nat} (a b : BitVec (m + 1)) (c : Bool) : (addN a b c).v = sumOverflow a b c := by
  have hr : (addN a b c).res.toNat = (a.toNat + b.toNat + c.toNat) % 2 ^ (m + 1) := by simp [addN]
  have hv : (addN a b c).v = (a.msb == b.msb && (addN a b c).res.msb != a.msb) := rfl
  have ha := a.isLt
  have hb := b.isLt
  have hn : 2 ^ (m + 1) = 2 * 2 ^ m := by rw [Nat.pow_succ, Nat.mul_comm]
  rw [hv, sumOverflow, fitsSigned, msb_eq_decide_half, msb_eq_decide_half, msb_eq_decide_half, hr,
    Nat.add_sub_cancel]
  rw [hn] at ha hb ⊢
  have hM : ((2 : Int) ^ m) = ((2 ^ m : Nat) : Int) := by push_cast; rfl
  have hc : c.toNat ≤ 1 := Bool.toNat_le c
  have hsum : a.toNat + b.toNat + c.toNat < 2 * (2 * 2 ^ m) := by omega
  have hmod : (a.toNat + b.toNat + c.toNat) % (2 * 2 ^ m) = a.toNat + b.toNat + c.toNat ∧
        a.toNat + b.toNat + c.toNat < 2 * 2 ^ m ∨
      (a.toNat + b.toNat + c.toNat) % (2 * 2 ^ m) = a.toNat + b.toNat + c.toNat - 2 * 2 ^ m ∧
        2 * 2 ^ m ≤ a.toNat + b.toNat + c.toNat := by
    by_cases h : a.toNat + b.toNat + c.toNat < 2 * 2 ^ m
    · exact .inl ⟨Nat.mod_eq_of_lt h, h⟩
    · refine .inr ⟨?_, by omega⟩
      rw [Nat.mod_eq_sub_mod (by omega), Nat.mod_eq_of_lt (by omega)]
  obtain ⟨h1, ea⟩ | ⟨h1, ea⟩ := toInt_eq_cases a <;> obtain ⟨h2, eb⟩ | ⟨h2, eb⟩ := toInt_eq_cases b <;>
    rw [ea, eb, hM] <;> generalize 2 ^ m = M at * <;>
    obtain ⟨e, h3⟩ | ⟨e, h3⟩ := hmod <;> rw [e, Bool.eq_iff_iff] <;>
    simp only [Bool.and_eq_true, bne_iff_ne, beq_iff_eq, Bool.not_eq_true',
      Bool.and_eq_false_iff, decide_eq_false_iff_not, ne_eq, decide_eq_decide] <;> omega

theorem subN_res {n : Nat} (a b : BitVec n) : (subN a b false).res = a - b := by
  have : (subN a b false).res = BitVec.ofInt n ((a.toNat : Int) - b.toNat) := by simp [subN]
  apply BitVec.eq_of_toInt_eq
  rw [this, BitVec.toInt_ofInt, BitVec.toInt_sub, BitVec.toInt_eq_toNat_bmod a, BitVec.toInt_eq_toNat_bmod b]
  simp

theorem subN_s {n : Nat} (a b : BitVec n) : (subN a b false).s = (a - b).msb := by
  rw [← subN_res]; rfl

theorem subN_z {n : Nat} (a b : BitVec n) : (subN a b false).z = (a == b) := by
  have : (subN a b false).z = (a - b == 0) := by rw [← subN_res]; rfl
  rw [this, Bool.eq_iff_iff, beq_iff_eq, beq_iff_eq]
  exact ⟨fun h => by simpa using congrArg (· + b) h, fun h => by simp [h]⟩

theorem subN_h {n : Nat} (a b : BitVec n) : (subN a b false).h = halfBorrow a b := by
  simp [subN, halfBorrow]

theorem subN_c {n : Nat} (a b : BitVec n) : (subN a b false).c = decide (a.toNat < b.toNat) := by
  simp only [subN, Bool.toNat_false, decide_eq_decide]
  omega

/-- The sign rule for V is two's-complement overflow of the difference (rule R11, decision D30). -/
theorem subN_v {m : Nat} (a b : BitVec (m + 1)) : (subN a b false).v = diffOverflow a b := by
  have hr : (subN a b false).res.toNat = (2 ^ (m + 1) - b.toNat + a.toNat) % 2 ^ (m + 1) := by
    rw [subN_res, BitVec.toNat_sub]
  have hv : (subN a b false).v = (a.msb != b.msb && (subN a b false).res.msb != a.msb) := rfl
  have ha := a.isLt
  have hb := b.isLt
  have hn : 2 ^ (m + 1) = 2 * 2 ^ m := by rw [Nat.pow_succ, Nat.mul_comm]
  rw [hv, diffOverflow, fitsSigned, msb_eq_decide_half, msb_eq_decide_half, msb_eq_decide_half, hr,
    Nat.add_sub_cancel]
  rw [hn] at ha hb ⊢
  have hM : ((2 : Int) ^ m) = ((2 ^ m : Nat) : Int) := by push_cast; rfl
  have hmod : (2 * 2 ^ m - b.toNat + a.toNat) % (2 * 2 ^ m) = a.toNat - b.toNat ∧ b.toNat ≤ a.toNat ∨
      (2 * 2 ^ m - b.toNat + a.toNat) % (2 * 2 ^ m) = 2 * 2 ^ m - b.toNat + a.toNat ∧ a.toNat < b.toNat := by
    by_cases h : b.toNat ≤ a.toNat
    · refine .inl ⟨?_, h⟩
      rw [show 2 * 2 ^ m - b.toNat + a.toNat = (a.toNat - b.toNat) + 2 * 2 ^ m by omega, Nat.add_mod_right,
        Nat.mod_eq_of_lt (by omega)]
    · exact .inr ⟨Nat.mod_eq_of_lt (by omega), by omega⟩
  obtain ⟨h1, ea⟩ | ⟨h1, ea⟩ := toInt_eq_cases a <;> obtain ⟨h2, eb⟩ | ⟨h2, eb⟩ := toInt_eq_cases b <;>
    rw [ea, eb, hM] <;> generalize 2 ^ m = M at * <;>
    obtain ⟨e, h3⟩ | ⟨e, h3⟩ := hmod <;> rw [e, Bool.eq_iff_iff] <;>
    simp only [Bool.and_eq_true, bne_iff_ne, Bool.not_eq_true',
      Bool.and_eq_false_iff, decide_eq_false_iff_not, ne_eq, decide_eq_decide] <;> omega

/-! ## Parity and bit search -/

theorem onesBelow_eq_countP {n : Nat} (v : BitVec n) (k : Nat) :
    onesBelow v k = (List.range k).countP (fun i => v.getLsbD i) := by
  induction k with
  | zero => rfl
  | succ k ih =>
    rw [onesBelow, ih, List.range_succ, List.countP_append, List.countP_singleton, Nat.add_comm]
    cases v.getLsbD k <;> rfl

theorem parityEven_eq {n : Nat} (v : BitVec n) : parityEven v = evenOnes v := by
  rw [parityEven, evenOnes, onesBelow_eq_countP]

/-- All that the backward search can answer. -/
theorem topOne_eq_some {n : Nat} {v : BitVec n} {k i : Nat} (h : topOne v k = some i) :
    i < k ∧ v.getLsbD i = true ∧ ∀ j, i < j → j < k → v.getLsbD j = false := by
  induction k with
  | zero => cases h
  | succ k ih =>
    rw [topOne] at h
    split at h
    · rename_i hk
      injection h with h
      subst h
      exact ⟨Nat.lt_succ_self _, hk, fun j h1 h2 => by omega⟩
    · rename_i hk
      obtain ⟨h1, h2, h3⟩ := ih h
      refine ⟨by omega, h2, fun j hj hj' => ?_⟩
      by_cases e : j = k
      · rw [e]; simpa using hk
      · exact h3 j hj (by omega)

theorem topOne_eq_none {n : Nat} {v : BitVec n} {k : Nat} (h : topOne v k = none) :
    ∀ j, j < k → v.getLsbD j = false := by
  induction k with
  | zero => intro j hj; omega
  | succ k ih =>
    rw [topOne] at h
    split at h
    · cases h
    · rename_i hk
      intro j hj
      by_cases e : j = k
      · rw [e]; simpa using hk
      · exact ih h j (by omega)

/-! ## Which fields a flag update leaves alone -/

/-- Only F and the count of undefined values may differ. -/
structure FlagsStep (s t : State) : Prop where
  regs : t.regs = s.regs
  pc : t.pc = s.pc
  mem : t.mem = s.mem
  control : SameControl s t

theorem SameControl.refl (s : State) : SameControl s s := ⟨rfl, rfl, rfl, rfl, rfl, rfl, rfl⟩

theorem SameControl.trans {s t u : State} (h : SameControl s t) (k : SameControl t u) : SameControl s u :=
  ⟨k.fAlt.trans h.fAlt, k.iff.trans h.iff, k.rfp.trans h.rfp, k.cr.trans h.cr, k.halted.trans h.halted,
    k.pending.trans h.pending, k.launch.trans h.launch⟩

theorem flagsStep_arithFlags (sz : Size) (o : Alu sz.bits) (sub : Bool) (s : State) :
    FlagsStep s (arithFlags sz o sub s) := by
  unfold arithFlags
  split <;> exact ⟨rfl, rfl, rfl, ⟨rfl, rfl, rfl, rfl, rfl, rfl, rfl⟩⟩

theorem flagsStep_andFlags (sz : Size) (r : BitVec sz.bits) (s : State) : FlagsStep s (andFlags sz r s) := by
  unfold andFlags
  split <;> exact ⟨rfl, rfl, rfl, ⟨rfl, rfl, rfl, rfl, rfl, rfl, rfl⟩⟩

theorem flagsStep_countFlags {n : Nat} (o : Alu n) (sub : Bool) (s : State) : FlagsStep s (countFlags o sub s) :=
  ⟨rfl, rfl, rfl, ⟨rfl, rfl, rfl, rfl, rfl, rfl, rfl⟩⟩

theorem flagsStep_carryFromBit (sz : Size) (v : BitVec sz.bits) (num : Nat) (keep : Bool) (s : State) :
    FlagsStep s (carryFromBit sz v num keep s) := by
  unfold carryFromBit
  split <;> exact ⟨rfl, rfl, rfl, ⟨rfl, rfl, rfl, rfl, rfl, rfl, rfl⟩⟩

theorem flagsStep_bitFlags {n : Nat} (v : BitVec n) (num : Nat) (s : State) : FlagsStep s (bitFlags v num s) :=
  ⟨rfl, rfl, rfl, ⟨rfl, rfl, rfl, rfl, rfl, rfl, rfl⟩⟩

theorem flagsStep_daaOp (d : Byte) (s : State) : FlagsStep s (daaOp d s).2 := by
  unfold daaOp
  split
  · dsimp only
    split <;> exact ⟨rfl, rfl, rfl, ⟨rfl, rfl, rfl, rfl, rfl, rfl, rfl⟩⟩
  · exact ⟨rfl, rfl, rfl, ⟨rfl, rfl, rfl, rfl, rfl, rfl, rfl⟩⟩

/-! ## The flags each update leaves -/

theorem size_bits_succ (sz : Size) : ∃ m, sz.bits = m + 1 := by
  cases sz
  · exact ⟨7, rfl⟩
  · exact ⟨15, rfl⟩
  · exact ⟨31, rfl⟩

theorem addN_v_size (sz : Size) (a b : BitVec sz.bits) (c : Bool) : (addN a b c).v = sumOverflow a b c := by
  cases sz
  · exact addN_v (m := 7) a b c
  · exact addN_v (m := 15) a b c
  · exact addN_v (m := 31) a b c

theorem subN_v_size (sz : Size) (a b : BitVec sz.bits) : (subN a b false).v = diffOverflow a b := by
  cases sz
  · exact subN_v (m := 7) a b
  · exact subN_v (m := 15) a b
  · exact subN_v (m := 31) a b

/-- The flags of ADD and ADC (rules R161, R162). -/
theorem addFlags_arithFlags (sz : Size) (a b : BitVec sz.bits) (c : Bool) (s : State) :
    AddFlags sz a b c (arithFlags sz (addN a b c) false s).f := by
  refine ⟨(arithFlags sz (addN a b c) false s).f.h, fun h => ?_, ?_⟩
  · rw [arithFlags, if_neg h]; rfl
  · rw [← addN_v_size, ← addN_s, ← addN_z, ← addN_c, arithFlags]
    split <;> rfl

/-- The flags of CP (rule R163). -/
theorem compareFlags_arithFlags (sz : Size) (a b : BitVec sz.bits) (s : State) :
    CompareFlags sz a b (arithFlags sz (subN a b false) true s).f := by
  refine ⟨(arithFlags sz (subN a b false) true s).f.h, fun h => ?_, ?_⟩
  · rw [arithFlags, if_neg h]; exact subN_h a b
  · rw [← subN_v_size, ← subN_s, ← subN_z, ← subN_c, arithFlags]
    split <;> rfl

/-- The flags of AND (rule R218). -/
theorem andFlags_andFlags (sz : Size) (r : BitVec sz.bits) (s : State) : AndFlags sz r (andFlags sz r s).f := by
  refine ⟨(andFlags sz r s).f.v, fun h => ?_, ?_⟩
  · rw [andFlags, if_neg h]; exact parityEven_eq r
  · rw [andFlags]
    split <;> rfl

/-- C from a bit (rule R234). -/
theorem carryFrom_carryFromBit (sz : Size) (v : BitVec sz.bits) (num : Nat) (keep : Bool) (s : State) :
    CarryFrom sz v num keep s.f (carryFromBit sz v num keep s).f := by
  refine ⟨(carryFromBit sz v num keep s).f.c, fun h => ?_, ?_⟩
  · rw [carryFromBit, if_pos h]
  · rw [carryFromBit]
    split <;> rfl

end Sys2Proof.Machine
end

