-- ==== Sys2Proof/Laws/Memory.lean ====
section
/-! SUPPORT. Memory: reading after writing, the canonical form, and what loads and stores answer (rules R53 to R56,
R69, R77). -/

namespace Sys2Proof.Machine

/-! ## The list of bytes -/

@[simp] theorem Memory.read_write_same (m : Memory) (a : Nat) (b : Byte) : (m.write a b).read a = some b := by
  induction m with
  | nil => simp [Memory.write, Memory.read]
  | cons c rest ih =>
    unfold Memory.write
    split
    · simp [Memory.read]
    · split
      · simp [Memory.read]
      · rename_i h
        simp [Memory.read, h, ih]

theorem Memory.read_write_other (m : Memory) {a x : Nat} (b : Byte) (h : x ≠ a) :
    (m.write a b).read x = m.read x := by
  induction m with
  | nil => simp [Memory.write, Memory.read, h]
  | cons c rest ih =>
    unfold Memory.write
    split
    · simp [Memory.read, h]
    · split
      · rename_i e
        simp [Memory.read, h, ← e]
      · simp [Memory.read, ih]

theorem Memory.mem_write {m : Memory} {a : Nat} {b : Byte} {c : Host.Cell} (h : c ∈ m.write a b) :
    c = (a, b) ∨ c ∈ m := by
  induction m with
  | nil => simpa [Memory.write] using h
  | cons d rest ih =>
    unfold Memory.write at h
    split at h
    · simpa using h
    · split at h
      · rcases List.mem_cons.1 h with h | h
        · exact .inl h
        · exact .inr (List.mem_cons_of_mem _ h)
      · rcases List.mem_cons.1 h with h | h
        · exact .inr (h ▸ List.mem_cons_self)
        · exact (ih h).imp id (List.mem_cons_of_mem _)

/-- A write keeps the canonical form. -/
theorem Memory.wf_write {m : Memory} {a : Nat} (b : Byte) (ha : a < 2 ^ 32) (h : Memory.wf m) :
    Memory.wf (m.write a b) := by
  refine ⟨?_, fun c hc => (Memory.mem_write hc).elim (fun e => e ▸ ha) (h.2 c)⟩
  have hp := h.1
  clear h
  induction m with
  | nil => simp [Memory.write]
  | cons d rest ih =>
    obtain ⟨hd, hr⟩ := List.pairwise_cons.1 hp
    unfold Memory.write
    split
    · rename_i hlt
      refine List.pairwise_cons.2 ⟨fun x hx => ?_, hp⟩
      rcases List.mem_cons.1 hx with e | hx
      · exact e ▸ hlt
      · exact Nat.lt_trans hlt (hd x hx)
    · split
      · rename_i e
        exact List.pairwise_cons.2 ⟨fun x hx => by rw [e]; exact hd x hx, hr⟩
      · rename_i h1 h2
        refine List.pairwise_cons.2 ⟨fun x hx => ?_, ih hr⟩
        rcases Memory.mem_write hx with e | hx
        · rw [e]; show d.1 < a; omega
        · exact hd x hx

theorem Memory.wf_placeBytes (bs : List Byte) {m : Memory} (a : Long) (h : Memory.wf m) :
    Memory.wf (placeBytes m a bs) := by
  induction bs generalizing m a with
  | nil => exact h
  | cons b rest ih => exact ih _ (Memory.wf_write b a.isLt h)

theorem reset_mem_wf : Memory.wf State.reset.mem := by decide

/-! ## Sequencing -/

@[simp] theorem andThen_next {α β : Type} (a : α) (k : α → Res β) : andThen (.next a) k = k a := rfl

@[simp] theorem andThen_fault {α β : Type} (e : Fault) (k : α → Res β) : andThen (.fault e) k = .fault e := rfl

@[simp] theorem andThen_refused {α β : Type} (e : Refusal) (k : α → Res β) :
    andThen (.refused e) k = .refused e := rfl

/-- A sequence answers only through both its parts. -/
theorem andThen_eq_next {α β : Type} {r : Res α} {k : α → Res β} {b : β} (h : andThen r k = .next b) :
    ∃ a, r = .next a ∧ k a = .next b := by
  cases r with
  | next a => exact ⟨a, rfl, h⟩
  | fault e => cases h
  | refused e => cases h

/-! ## One byte -/

theorem atAddress_of_present {α : Type} {a : Long} {s : State} (h : a.toNat < 2 ^ s.launch.addrBits)
    (hp : s.launch.has a.toNat = true) (k : Res α) : atAddress a s k = k := by
  simp [atAddress, Nat.not_le.2 h, hp]

theorem atAddress_eq_next {α : Type} {a : Long} {s : State} {k : Res α} {x : α} (h : atAddress a s k = .next x) :
    a.toNat < 2 ^ s.launch.addrBits ∧ s.launch.has a.toNat = true ∧ k = .next x := by
  unfold atAddress at h
  split at h
  · cases h
  · split at h
    · rename_i h1 h2
      exact ⟨Nat.not_le.1 h1, h2, h⟩
    · cases h

theorem loadByte_of_present {a : Long} {s : State} {b : Byte} (h : a.toNat < 2 ^ s.launch.addrBits)
    (hp : s.launch.has a.toNat = true) (hb : s.mem.read a.toNat = some b) : loadByte a s = .next b := by
  rw [loadByte, atAddress_of_present h hp, hb]

/-- All that a load of one byte can do when it answers. -/
theorem loadByte_eq_next {a : Long} {s : State} {b : Byte} (h : loadByte a s = .next b) :
    a.toNat < 2 ^ s.launch.addrBits ∧ s.launch.has a.toNat = true ∧ s.mem.read a.toNat = some b := by
  obtain ⟨h1, h2, h3⟩ := atAddress_eq_next h
  refine ⟨h1, h2, ?_⟩
  split at h3
  · rename_i e
    rw [e]
    injection h3 with h3
    rw [h3]
  · cases h3

theorem storeByte_of_present {a : Long} {s : State} (b : Byte) (h : a.toNat < 2 ^ s.launch.addrBits)
    (hp : s.launch.has a.toNat = true) (ht : s.launch.inText a.toNat = false) :
    storeByte a b s = .next { s with mem := s.mem.write a.toNat b } := by
  rw [storeByte, atAddress_of_present h hp, ht]
  rfl

/-- All that a store of one byte can do when it answers. -/
theorem storeByte_eq_next {a : Long} {b : Byte} {s t : State} (h : storeByte a b s = .next t) :
    a.toNat < 2 ^ s.launch.addrBits ∧ s.launch.has a.toNat = true ∧ s.launch.inText a.toNat = false ∧
      t = { s with mem := s.mem.write a.toNat b } := by
  obtain ⟨h1, h2, h3⟩ := atAddress_eq_next h
  split at h3
  · cases h3
  · rename_i e
    injection h3 with h3
    exact ⟨h1, h2, by simpa using e, h3.symm⟩

/-! ## Loads and stores of every size -/

theorem byteAddr_zero (a : Long) : byteAddr a 0 = a := by simp [byteAddr]

theorem byteAddr_ne (a : Long) {i j : Nat} (hi : i < 4) (hj : j < 4) (h : i ≠ j) :
    (byteAddr a i).toNat ≠ (byteAddr a j).toNat := by
  intro e
  have := BitVec.eq_of_toNat_eq e
  rw [byteAddr, byteAddr, BitVec.add_right_inj] at this
  have := congrArg BitVec.toNat this
  simp only [BitVec.toNat_ofNat] at this
  omega

theorem word_of_bytes (v : Word) : (byteOf v 1 ++ byteOf v 0 : BitVec 16) = v := by
  apply BitVec.eq_of_getLsbD_eq
  intro i hi
  rw [BitVec.getLsbD_append]
  simp only [byteOf, BitVec.getLsbD_extractLsb']
  by_cases h : i < 8
  · simp [h]
  · simp [h, show i - 8 < 8 by omega, show 8 + (i - 8) = i by omega]

theorem long_of_bytes (v : Long) : (byteOf v 3 ++ byteOf v 2 ++ byteOf v 1 ++ byteOf v 0 : BitVec 32) = v := by
  apply BitVec.eq_of_getLsbD_eq
  intro i hi
  simp only [BitVec.getLsbD_append, byteOf, BitVec.getLsbD_extractLsb']
  by_cases h : i < 8
  · simp [h]
  by_cases h1 : i < 16
  · simp [h, show i - 8 < 8 by omega, show 8 + (i - 8) = i by omega]
  by_cases h2 : i < 24
  · simp [h, show ¬ i - 8 < 8 by omega, show i - 8 - 8 < 8 by omega, show 16 + (i - 8 - 8) = i by omega]
  · simp [h, show ¬ i - 8 < 8 by omega, show ¬ i - 8 - 8 < 8 by omega, show i - 8 - 8 - 8 < 8 by omega,
      show 24 + (i - 8 - 8 - 8) = i by omega]

theorem byteOf_byte (v : Byte) : byteOf v 0 = v := by
  apply BitVec.eq_of_getLsbD_eq
  intro i hi
  simp [byteOf, hi]

/-- A readable value is what a load answers (rules R53, R54). -/
theorem load_of_readable {sz : Size} {a : Long} {v : BitVec sz.bits} {s : State} (h : Readable sz a v s) :
    load sz a s = .next v := by
  obtain ⟨hp, hv⟩ := h
  have ok : ∀ k, k < sz.bytes → loadByte (byteAddr a k) s = .next (byteOf v k) :=
    fun k hk => loadByte_of_present (hp k hk).1 (hp k hk).2 (hv k hk)
  cases sz with
  | byte =>
    have := ok 0 (by decide)
    rw [byteAddr_zero, byteOf_byte] at this
    exact this
  | word =>
    have h0 := ok 0 (by decide)
    rw [byteAddr_zero] at h0
    have h1 : loadByte (a + 1#32) s = .next (byteOf v 1) := ok 1 (by decide)
    rw [load, h0, andThen_next, h1, andThen_next, word_of_bytes]
  | long =>
    have h0 := ok 0 (by decide)
    rw [byteAddr_zero] at h0
    have h1 : loadByte (a + 1#32) s = .next (byteOf v 1) := ok 1 (by decide)
    have h2 : loadByte (a + 2#32) s = .next (byteOf v 2) := ok 2 (by decide)
    have h3 : loadByte (a + 3#32) s = .next (byteOf v 3) := ok 3 (by decide)
    rw [load, h0, andThen_next, h1, andThen_next, h2, andThen_next, h3, andThen_next, long_of_bytes]

/-- `s` with the first `n` bytes of `v` written at `a`. -/
def withBytes {w : Nat} (a : Long) (v : BitVec w) : Nat → State → State
  | 0, s => s
  | n + 1, s => { withBytes a v n s with mem := (withBytes a v n s).mem.write (byteAddr a n).toNat (byteOf v n) }

theorem withBytes_eq {w : Nat} (a : Long) (v : BitVec w) (n : Nat) (s : State) :
    withBytes a v n s = { s with mem := (withBytes a v n s).mem } := by
  induction n with
  | zero => rfl
  | succ n ih => rw [withBytes, ih]

@[simp] theorem withBytes_launch {w : Nat} (a : Long) (v : BitVec w) (n : Nat) (s : State) :
    (withBytes a v n s).launch = s.launch := by
  rw [withBytes_eq]

theorem withBytes_read {w : Nat} (a : Long) (v : BitVec w) (s : State) {n : Nat} (hn : n ≤ 4) :
    (∀ k, k < n → (withBytes a v n s).mem.read (byteAddr a k).toNat = some (byteOf v k)) ∧
      ∀ x : Nat, (∀ k, k < n → x ≠ (byteAddr a k).toNat) → (withBytes a v n s).mem.read x = s.mem.read x := by
  induction n with
  | zero => exact ⟨fun k hk => absurd hk (Nat.not_lt_zero k), fun _ _ => rfl⟩
  | succ n ih =>
    obtain ⟨ih1, ih2⟩ := ih (by omega)
    constructor
    · intro k hk
      rw [withBytes]
      by_cases e : k = n
      · rw [e]; exact Memory.read_write_same _ _ _
      · rw [Memory.read_write_other _ _ (byteAddr_ne a (by omega) (by omega) e)]
        exact ih1 k (by omega)
    · intro x hx
      rw [withBytes, Memory.read_write_other _ _ (hx n (by omega))]
      exact ih2 x (fun k hk => hx k (by omega))

theorem storeByte_withBytes {sz : Size} {a : Long} {v : BitVec sz.bits} {s : State} (h : Writable sz a s) {n : Nat}
    (hn : n < sz.bytes) : storeByte (byteAddr a n) (byteOf v n) (withBytes a v n s) = .next (withBytes a v (n + 1) s) :=
  storeByte_of_present _ (by simpa using (h.1 n hn).1) (by simpa using (h.1 n hn).2) (by simpa using h.2 n hn)

/-- A store to a writable place answers, and says which bytes it wrote. -/
theorem store_of_writable {sz : Size} {a : Long} (v : BitVec sz.bits) {s : State} (h : Writable sz a s) :
    store sz a v s = .next (withBytes a v sz.bytes s) := by
  cases sz with
  | byte =>
    have h0 := storeByte_withBytes (v := v) h (n := 0) (by decide)
    rw [byteAddr_zero, byteOf_byte] at h0
    exact h0
  | word =>
    have h0 := storeByte_withBytes (v := v) h (n := 0) (by decide)
    rw [byteAddr_zero] at h0
    have h1 : storeByte (a + 1#32) (byteOf v 1) _ = _ := storeByte_withBytes (v := v) h (n := 1) (by decide)
    rw [store, show s = withBytes a v 0 s from rfl, h0, andThen_next, h1]
    rfl
  | long =>
    have h0 := storeByte_withBytes (v := v) h (n := 0) (by decide)
    rw [byteAddr_zero] at h0
    have h1 : storeByte (a + 1#32) (byteOf v 1) _ = _ := storeByte_withBytes (v := v) h (n := 1) (by decide)
    have h2 : storeByte (a + 2#32) (byteOf v 2) _ = _ := storeByte_withBytes (v := v) h (n := 2) (by decide)
    have h3 : storeByte (a + 3#32) (byteOf v 3) _ = _ := storeByte_withBytes (v := v) h (n := 3) (by decide)
    rw [store, show s = withBytes a v 0 s from rfl, h0, andThen_next, h1, andThen_next, h2, andThen_next, h3]
    rfl

theorem wrote_withBytes {sz : Size} (a : Long) (v : BitVec sz.bits) (s : State) :
    Wrote sz a v s (withBytes a v sz.bytes s) :=
  withBytes_read a v s (by cases sz <;> decide)

/-- A store to a writable place changes memory alone, and there only the bytes of the value (rules R53, R54). -/
theorem store_next_of_writable {sz : Size} {a : Long} (v : BitVec sz.bits) {s : State} (h : Writable sz a s) :
    ∃ m, store sz a v s = .next { s with mem := m } ∧ Wrote sz a v s { s with mem := m } := by
  refine ⟨(withBytes a v sz.bytes s).mem, ?_, ?_⟩
  · rw [store_of_writable v h, ← withBytes_eq]
  · rw [← withBytes_eq]; exact wrote_withBytes a v s

/-! ## What a store can do to memory -/

/-- `t` is `s` but for memory, where only bytes that an access reaches and that are no program text were written. -/
structure MemStep (s t : State) : Prop where
  eq : t = { s with mem := t.mem }
  wf : Memory.wf s.mem → Memory.wf t.mem
  cell : ∀ c ∈ t.mem, c ∈ s.mem ∨ (c.1 < 2 ^ s.launch.addrBits ∧ s.launch.has c.1 = true)
  text : ∀ x, s.launch.inText x = true → t.mem.read x = s.mem.read x

theorem MemStep.refl (s : State) : MemStep s s := ⟨rfl, id, fun _ h => .inl h, fun _ _ => rfl⟩

theorem MemStep.launch {s t : State} (h : MemStep s t) : t.launch = s.launch := by rw [h.eq]

theorem MemStep.trans {s t u : State} (h : MemStep s t) (k : MemStep t u) : MemStep s u := by
  refine ⟨?_, fun w => k.wf (h.wf w), fun c hc => ?_, fun x hx => ?_⟩
  · rw [k.eq, h.eq]
  · rcases k.cell c hc with hc | hc
    · exact h.cell c hc
    · rw [h.launch] at hc; exact .inr hc
  · rw [k.text x (by rw [h.launch]; exact hx), h.text x hx]

theorem memStep_storeByte {a : Long} {b : Byte} {s t : State} (h : storeByte a b s = .next t) : MemStep s t := by
  obtain ⟨h1, h2, h3, rfl⟩ := storeByte_eq_next h
  refine ⟨rfl, Memory.wf_write b a.isLt, fun c hc => ?_, fun x hx => ?_⟩
  · rcases Memory.mem_write hc with e | hc
    · exact .inr (by rw [e]; exact ⟨h1, h2⟩)
    · exact .inl hc
  · exact Memory.read_write_other _ _ (fun e => by rw [e, h3] at hx; cases hx)

/-- All that a store can do when it answers. -/
theorem memStep_store {sz : Size} {a : Long} {v : BitVec sz.bits} {s t : State} (h : store sz a v s = .next t) :
    MemStep s t := by
  cases sz with
  | byte => exact memStep_storeByte h
  | word =>
    obtain ⟨u, h0, h1⟩ := andThen_eq_next h
    exact (memStep_storeByte h0).trans (memStep_storeByte h1)
  | long =>
    obtain ⟨u, h0, h⟩ := andThen_eq_next h
    obtain ⟨w, h1, h⟩ := andThen_eq_next h
    obtain ⟨x, h2, h3⟩ := andThen_eq_next h
    exact (((memStep_storeByte h0).trans (memStep_storeByte h1)).trans (memStep_storeByte h2)).trans
      (memStep_storeByte h3)

/-! ## Loads and stores see memory and the launch alone -/

theorem loadByte_congr {s t : State} (hm : t.mem = s.mem) (hl : t.launch = s.launch) (a : Long) :
    loadByte a t = loadByte a s := by
  rw [loadByte, loadByte, atAddress, atAddress, hm, hl]

theorem load_congr {s t : State} (hm : t.mem = s.mem) (hl : t.launch = s.launch) (sz : Size) (a : Long) :
    load sz a t = load sz a s := by
  cases sz <;> simp only [load, loadByte_congr hm hl]

theorem Present.congr {sz : Size} {a : Long} {s t : State} (hl : t.launch = s.launch) (h : Present sz a s) :
    Present sz a t := by
  rw [Present, hl]; exact h

theorem Readable.congr {sz : Size} {a : Long} {v : BitVec sz.bits} {s t : State} (hm : t.mem = s.mem)
    (hl : t.launch = s.launch) (h : Readable sz a v s) : Readable sz a v t := by
  rw [Readable, Present, Holds, hm, hl]; exact h

theorem Writable.congr {sz : Size} {a : Long} {s t : State} (hl : t.launch = s.launch) (h : Writable sz a s) :
    Writable sz a t := by
  rw [Writable, Present, hl]; exact h

end Sys2Proof.Machine
end

