-- ==== Sys2Proof/Laws/Interrupts.lean ====
section
/-! SUPPORT. Interrupts: which request a step accepts, what storing a list of bytes can do, and what an entry can do
(rules R322 to R325). -/

namespace Sys2Proof.Machine

/-! ## Acceptance -/

theorem acceptable_iff {s : State} {r : Request} : acceptable s r = true ↔ s.iff.toNat ≤ r.level.toNat := by
  simp [acceptable, BitVec.le_def]

theorem interruptAccepted_iff {s : State} :
    interruptAccepted s = true ↔ ∃ r ∈ s.pending, s.iff.toNat ≤ r.level.toNat := by
  simp [interruptAccepted, acceptable_iff]

/-- An accepted request is pending, and its level passes the mask. -/
theorem acceptedRequest_eq_some {s : State} {r : Request} (h : acceptedRequest s = some r) :
    r ∈ s.pending ∧ s.iff.toNat ≤ r.level.toNat := by
  suffices hr : r ∈ s.pending.filter (acceptable s) by
    obtain ⟨h1, h2⟩ := List.mem_filter.1 hr
    exact ⟨h1, acceptable_iff.1 h2⟩
  unfold acceptedRequest at h
  split at h
  · cases h
  · rename_i q rest e
    injection h with h
    have hi : (undefVal 32 0 s).toNat % (rest.length + 1) < (q :: rest).length := Nat.mod_lt _ (Nat.succ_pos _)
    rw [e, ← h, List.getD_eq_getElem _ _ hi]
    exact List.getElem_mem hi

/-- No request is accepted exactly when none passes the mask. -/
theorem acceptedRequest_eq_none {s : State} : acceptedRequest s = none ↔ interruptAccepted s = false := by
  unfold acceptedRequest
  split
  · rename_i e
    simpa [interruptAccepted, List.filter_eq_nil_iff] using e
  · rename_i q rest e
    have hq : q ∈ s.pending.filter (acceptable s) := e ▸ List.mem_cons_self
    obtain ⟨h1, h2⟩ := List.mem_filter.1 hq
    simpa [interruptAccepted] using ⟨q, h1, h2⟩

/-! ## Storing a list of bytes -/

/-- All that storing a list of bytes can do when it answers. -/
theorem memStep_storeAll {l : List (Long × Byte)} {s t : State} (h : storeAll l s = .next t) : MemStep s t := by
  induction l generalizing s with
  | nil => injection h with h; exact h ▸ MemStep.refl s
  | cons c rest ih =>
    obtain ⟨u, h0, h1⟩ := andThen_eq_next h
    exact (memStep_storeByte h0).trans (ih h1)

/-- Bytes that can be written are stored. -/
theorem storeAll_of_writable {l : List (Long × Byte)} {s : State} (h : ∀ c ∈ l, ByteWritable c.1 s) :
    ∃ t, storeAll l s = .next t := by
  induction l generalizing s with
  | nil => exact ⟨s, rfl⟩
  | cons c rest ih =>
    obtain ⟨h1, h2, h3⟩ := h c List.mem_cons_self
    obtain ⟨t, ht⟩ := ih (s := { s with mem := s.mem.write c.1.toNat c.2 })
      fun d hd => h d (List.mem_cons_of_mem _ hd)
    exact ⟨t, by rw [storeAll, storeByte_of_present c.2 h1 h2 h3, andThen_next, ht]⟩

/-- Storing a list of bytes leaves every other byte. -/
theorem storeAll_read_other {l : List (Long × Byte)} {s t : State} (h : storeAll l s = .next t) {x : Nat}
    (hx : ∀ c ∈ l, c.1.toNat ≠ x) : t.mem.read x = s.mem.read x := by
  induction l generalizing s with
  | nil => injection h with h; rw [h]
  | cons c rest ih =>
    obtain ⟨u, h0, h1⟩ := andThen_eq_next h
    obtain ⟨-, -, -, rfl⟩ := storeByte_eq_next h0
    rw [ih h1 fun d hd => hx d (List.mem_cons_of_mem _ hd)]
    exact Memory.read_write_other _ _ (hx c List.mem_cons_self).symm

/-! ## Entry -/

/-- All that an entry can do when it answers: its stores, and then the fields that it takes from the parameter. -/
theorem takeInterrupt_eq_next {r : Request} {s t : State} (h : takeInterrupt r s = .next t) :
    let e := Config.interruptEntry s r.source r.level
    ∃ u, storeAll e.stores s = .next u ∧ MemStep s u ∧
      t = { s with
        mem := u.mem, regs := e.regs, pc := e.pc, f := e.f, fAlt := e.fAlt, iff := e.iff, rfp := e.rfp
        halted := false, pending := e.pending, draws := s.draws + 1 } := by
  obtain ⟨u, h0, h1⟩ := andThen_eq_next h
  have hu := memStep_storeAll h0
  refine ⟨u, h0, hu, ?_⟩
  injection h1 with h1
  rw [← h1, hu.eq]
  rfl

/-- An entry whose bytes can be written completes. -/
theorem takeInterrupt_of_writable {r : Request} {s : State}
    (h : ∀ c ∈ (Config.interruptEntry s r.source r.level).stores, ByteWritable c.1 s) :
    ∃ t, takeInterrupt r s = .next t := by
  obtain ⟨u, hu⟩ := storeAll_of_writable h
  exact ⟨_, by rw [takeInterrupt, hu, andThen_next]⟩

end Sys2Proof.Machine
end

