-- ==== Sys2Proof/Laws/PerInstr.lean ====
section
/-! SUPPORT. The first byte of every encoding, instruction by instruction: it is never 00H, so bytes that hold zero
are no instruction of the opcode table (rules R80, R97). -/

namespace Sys2Proof.Laws

/-- The encoding has a first byte, and that byte is not 00H. -/
def StartsNonZero (bs : List Byte) : Prop := ∃ b rest, bs = b :: rest ∧ b ≠ 0#8

theorem startsNonZero_cons {b : Byte} {rest : List Byte} (h : b ≠ 0#8) : StartsNonZero (b :: rest) := ⟨b, rest, rfl, h⟩

theorem startsNonZero_reg (sz : Size) (r : RegOp) (op : Byte) (l : List Byte) : StartsNonZero (encodeReg sz r op l) := by
  cases r with
  | short k => exact startsNonZero_cons (by cases sz <;> revert k <;> decide)
  | ext c => exact startsNonZero_cons (by cases sz <;> decide)

theorem startsNonZero_mem (zz : BitVec 2) (m : Mode) (op : Byte) (l : List Byte) :
    StartsNonZero (encodeMem zz m op l) := by
  refine startsNonZero_cons ?_
  generalize (modeBits m).1 = x
  generalize (modeBits m).2 = y
  revert zz x y
  decide

namespace FirstByte

/-- The encoding of the instruction begins with a byte that is not 00H. -/
def Statement (i : Instr) : Prop := StartsNonZero (encode i)

theorem halt : Statement .halt := startsNonZero_cons (by decide)
theorem ei (n : BitVec 3) : Statement (.ei n) := startsNonZero_cons (by decide)
theorem di : Statement .di := startsNonZero_cons (by decide)
theorem ldDir8B (a : Byte) (v : Byte) : Statement (.ldDir8B a v) := startsNonZero_cons (by decide)
theorem ldDir8W (a : Byte) (v : Word) : Statement (.ldDir8W a v) := startsNonZero_cons (by decide)
theorem incf : Statement .incf := startsNonZero_cons (by decide)
theorem decf : Statement .decf := startsNonZero_cons (by decide)
theorem ccf : Statement .ccf := startsNonZero_cons (by decide)
theorem exFF : Statement .exFF := startsNonZero_cons (by decide)
theorem ldf (n : BitVec 3) : Statement (.ldf n) := startsNonZero_cons (by decide)
theorem jp16 (a : Word) : Statement (.jp16 a) := startsNonZero_cons (by decide)
theorem jp24 (a : BitVec 24) : Statement (.jp24 a) := startsNonZero_cons (by decide)
theorem call16 (a : Word) : Statement (.call16 a) := startsNonZero_cons (by decide)
theorem call24 (a : BitVec 24) : Statement (.call24 a) := startsNonZero_cons (by decide)
theorem calr (d : Word) : Statement (.calr d) := startsNonZero_cons (by decide)
theorem ldRImmB (R : R3) (v : Byte) : Statement (.ldRImmB R v) := startsNonZero_cons (by revert R; decide)
theorem ldRImmW (R : R3) (v : Word) : Statement (.ldRImmW R v) := startsNonZero_cons (by revert R; decide)
theorem ldRImmL (R : R3) (v : Long) : Statement (.ldRImmL R v) := startsNonZero_cons (by revert R; decide)
theorem jr (cc : Cond) (d : Byte) : Statement (.jr cc d) := startsNonZero_cons (by cases cc <;> decide)
theorem jrl (cc : Cond) (d : Word) : Statement (.jrl cc d) := startsNonZero_cons (by cases cc <;> decide)
theorem ldrImm (r : RegOp) (v : Imm) : Statement (.ldrImm r v) := startsNonZero_reg _ _ _ _
theorem cpl (sz : BW) (r : RegOp) : Statement (.cpl sz r) := startsNonZero_reg _ _ _ _
theorem divrImm (rr : RegOp) (v : ImmBW) : Statement (.divrImm rr v) := startsNonZero_reg _ _ _ _
theorem divsrImm (rr : RegOp) (v : ImmBW) : Statement (.divsrImm rr v) := startsNonZero_reg _ _ _ _
theorem bs1b (r : RegOp) : Statement (.bs1b r) := startsNonZero_reg _ _ _ _
theorem daa (r : RegOp) : Statement (.daa r) := startsNonZero_reg _ _ _ _
theorem extz (sz : WL) (r : RegOp) : Statement (.extz sz r) := startsNonZero_reg _ _ _ _
theorem exts (sz : WL) (r : RegOp) : Statement (.exts sz r) := startsNonZero_reg _ _ _ _
theorem djnz (sz : BW) (r : RegOp) (d : Byte) : Statement (.djnz sz r d) := startsNonZero_reg _ _ _ _
theorem andcf4r (sz : BW) (n : BitVec 4) (r : RegOp) : Statement (.andcf4r sz n r) := startsNonZero_reg _ _ _ _
theorem ldcf4r (sz : BW) (n : BitVec 4) (r : RegOp) : Statement (.ldcf4r sz n r) := startsNonZero_reg _ _ _ _
theorem andcfAr (sz : BW) (r : RegOp) : Statement (.andcfAr sz r) := startsNonZero_reg _ _ _ _
theorem ldcfAr (sz : BW) (r : RegOp) : Statement (.ldcfAr sz r) := startsNonZero_reg _ _ _ _
theorem ldcCrR (cr : CReg) (r : RegOp) : Statement (.ldcCrR cr r) := startsNonZero_reg _ _ _ _
theorem ldcRCr (r : RegOp) (cr : CReg) : Statement (.ldcRCr r cr) := startsNonZero_reg _ _ _ _
theorem chg4r (sz : BW) (n : BitVec 4) (r : RegOp) : Statement (.chg4r sz n r) := startsNonZero_reg _ _ _ _
theorem bit4r (sz : BW) (n : BitVec 4) (r : RegOp) : Statement (.bit4r sz n r) := startsNonZero_reg _ _ _ _
theorem divRr (sz : BW) (R : R3) (r : RegOp) : Statement (.divRr sz R r) := startsNonZero_reg _ _ _ _
theorem divsRr (sz : BW) (R : R3) (r : RegOp) : Statement (.divsRr sz R r) := startsNonZero_reg _ _ _ _
theorem inc3r (sz : Size) (n : BitVec 3) (r : RegOp) : Statement (.inc3r sz n r) := startsNonZero_reg _ _ _ _
theorem dec3r (sz : Size) (n : BitVec 3) (r : RegOp) : Statement (.dec3r sz n r) := startsNonZero_reg _ _ _ _
theorem addRr (sz : Size) (R : R3) (r : RegOp) : Statement (.addRr sz R r) := startsNonZero_reg _ _ _ _
theorem ldRr (sz : Size) (R : R3) (r : RegOp) : Statement (.ldRr sz R r) := startsNonZero_reg _ _ _ _
theorem adcRr (sz : Size) (R : R3) (r : RegOp) : Statement (.adcRr sz R r) := startsNonZero_reg _ _ _ _
theorem ldrR (sz : Size) (r : RegOp) (R : R3) : Statement (.ldrR sz r R) := startsNonZero_reg _ _ _ _
theorem ldr3 (sz : Size) (r : RegOp) (n : BitVec 3) : Statement (.ldr3 sz r n) := startsNonZero_reg _ _ _ _
theorem exRr (sz : BW) (R : R3) (r : RegOp) : Statement (.exRr sz R r) := startsNonZero_reg _ _ _ _
theorem andRr (sz : Size) (R : R3) (r : RegOp) : Statement (.andRr sz R r) := startsNonZero_reg _ _ _ _
theorem addrImm (r : RegOp) (v : Imm) : Statement (.addrImm r v) := startsNonZero_reg _ _ _ _
theorem adcrImm (r : RegOp) (v : Imm) : Statement (.adcrImm r v) := startsNonZero_reg _ _ _ _
theorem andrImm (r : RegOp) (v : Imm) : Statement (.andrImm r v) := startsNonZero_reg _ _ _ _
theorem cprImm (r : RegOp) (v : Imm) : Statement (.cprImm r v) := startsNonZero_reg _ _ _ _
theorem cpr3 (sz : BW) (r : RegOp) (n : BitVec 3) : Statement (.cpr3 sz r n) := startsNonZero_reg _ _ _ _
theorem cpRr (sz : Size) (R : R3) (r : RegOp) : Statement (.cpRr sz R r) := startsNonZero_reg _ _ _ _
theorem ldiDE (sz : BW) : Statement (.ldiDE sz) := startsNonZero_mem _ _ _ _
theorem ldiIX (sz : BW) : Statement (.ldiIX sz) := startsNonZero_mem _ _ _ _
theorem ldirDE (sz : BW) : Statement (.ldirDE sz) := startsNonZero_mem _ _ _ _
theorem ldirIX (sz : BW) : Statement (.ldirIX sz) := startsNonZero_mem _ _ _ _
theorem lddDE (sz : BW) : Statement (.lddDE sz) := startsNonZero_mem _ _ _ _
theorem lddIX (sz : BW) : Statement (.lddIX sz) := startsNonZero_mem _ _ _ _
theorem lddrDE (sz : BW) : Statement (.lddrDE sz) := startsNonZero_mem _ _ _ _
theorem lddrIX (sz : BW) : Statement (.lddrIX sz) := startsNonZero_mem _ _ _ _
theorem cpi (sz : BW) (R : R3) : Statement (.cpi sz R) := startsNonZero_mem _ _ _ _
theorem cpir (sz : BW) (R : R3) : Statement (.cpir sz R) := startsNonZero_mem _ _ _ _
theorem cpd (sz : BW) (R : R3) : Statement (.cpd sz R) := startsNonZero_mem _ _ _ _
theorem cpdr (sz : BW) (R : R3) : Statement (.cpdr sz R) := startsNonZero_mem _ _ _ _
theorem ldDir16Mem (sz : BW) (a : Word) (m : Mode) : Statement (.ldDir16Mem sz a m) := startsNonZero_mem _ _ _ _
theorem ldRMem (sz : Size) (R : R3) (m : Mode) : Statement (.ldRMem sz R m) := startsNonZero_mem _ _ _ _
theorem exMemR (sz : BW) (m : Mode) (R : R3) : Statement (.exMemR sz m R) := startsNonZero_mem _ _ _ _
theorem addMemImm (m : Mode) (v : ImmBW) : Statement (.addMemImm m v) := startsNonZero_mem _ _ _ _
theorem adcMemImm (m : Mode) (v : ImmBW) : Statement (.adcMemImm m v) := startsNonZero_mem _ _ _ _
theorem andMemImm (m : Mode) (v : ImmBW) : Statement (.andMemImm m v) := startsNonZero_mem _ _ _ _
theorem cpMemImm (m : Mode) (v : ImmBW) : Statement (.cpMemImm m v) := startsNonZero_mem _ _ _ _
theorem divRMem (sz : BW) (R : R3) (m : Mode) : Statement (.divRMem sz R m) := startsNonZero_mem _ _ _ _
theorem divsRMem (sz : BW) (R : R3) (m : Mode) : Statement (.divsRMem sz R m) := startsNonZero_mem _ _ _ _
theorem inc3Mem (sz : BW) (n : BitVec 3) (m : Mode) : Statement (.inc3Mem sz n m) := startsNonZero_mem _ _ _ _
theorem dec3Mem (sz : BW) (n : BitVec 3) (m : Mode) : Statement (.dec3Mem sz n m) := startsNonZero_mem _ _ _ _
theorem addRMem (sz : Size) (R : R3) (m : Mode) : Statement (.addRMem sz R m) := startsNonZero_mem _ _ _ _
theorem addMemR (sz : Size) (m : Mode) (R : R3) : Statement (.addMemR sz m R) := startsNonZero_mem _ _ _ _
theorem adcRMem (sz : Size) (R : R3) (m : Mode) : Statement (.adcRMem sz R m) := startsNonZero_mem _ _ _ _
theorem adcMemR (sz : Size) (m : Mode) (R : R3) : Statement (.adcMemR sz m R) := startsNonZero_mem _ _ _ _
theorem andRMem (sz : Size) (R : R3) (m : Mode) : Statement (.andRMem sz R m) := startsNonZero_mem _ _ _ _
theorem andMemR (sz : Size) (m : Mode) (R : R3) : Statement (.andMemR sz m R) := startsNonZero_mem _ _ _ _
theorem cpRMem (sz : Size) (R : R3) (m : Mode) : Statement (.cpRMem sz R m) := startsNonZero_mem _ _ _ _
theorem cpMemR (sz : Size) (m : Mode) (R : R3) : Statement (.cpMemR sz m R) := startsNonZero_mem _ _ _ _
theorem ldMemImmB (m : Mode) (v : Byte) : Statement (.ldMemImmB m v) := startsNonZero_mem _ _ _ _
theorem ldMemImmW (m : Mode) (v : Word) : Statement (.ldMemImmW m v) := startsNonZero_mem _ _ _ _
theorem ldMemDir16B (m : Mode) (a : Word) : Statement (.ldMemDir16B m a) := startsNonZero_mem _ _ _ _
theorem ldMemDir16W (m : Mode) (a : Word) : Statement (.ldMemDir16W m a) := startsNonZero_mem _ _ _ _
theorem ldaW (R : R3) (m : Mode) : Statement (.ldaW R m) := startsNonZero_mem _ _ _ _
theorem ldaL (R : R3) (m : Mode) : Statement (.ldaL R m) := startsNonZero_mem _ _ _ _
theorem andcfAMem (m : Mode) : Statement (.andcfAMem m) := startsNonZero_mem _ _ _ _
theorem ldcfAMem (m : Mode) : Statement (.ldcfAMem m) := startsNonZero_mem _ _ _ _
theorem ldMemRB (m : Mode) (R : R3) : Statement (.ldMemRB m R) := startsNonZero_mem _ _ _ _
theorem ldMemRW (m : Mode) (R : R3) : Statement (.ldMemRW m R) := startsNonZero_mem _ _ _ _
theorem ldMemRL (m : Mode) (R : R3) : Statement (.ldMemRL m R) := startsNonZero_mem _ _ _ _
theorem andcf3Mem (n : BitVec 3) (m : Mode) : Statement (.andcf3Mem n m) := startsNonZero_mem _ _ _ _
theorem ldcf3Mem (n : BitVec 3) (m : Mode) : Statement (.ldcf3Mem n m) := startsNonZero_mem _ _ _ _
theorem chg3Mem (n : BitVec 3) (m : Mode) : Statement (.chg3Mem n m) := startsNonZero_mem _ _ _ _
theorem bit3Mem (n : BitVec 3) (m : Mode) : Statement (.bit3Mem n m) := startsNonZero_mem _ _ _ _
theorem jpMem (cc : Cond) (m : Mode) : Statement (.jpMem cc m) := startsNonZero_mem _ _ _ _
theorem callMem (cc : Cond) (m : Mode) : Statement (.callMem cc m) := startsNonZero_mem _ _ _ _
theorem ldar (sz : WL) (R : R3) (d : Word) : Statement (.ldar sz R d) := startsNonZero_cons (by decide)

end FirstByte

end Sys2Proof.Laws
end

