-- ==== Sys2Proof/Laws/Regs.lean ====
section
/-! SUPPORT. Reading and writing general registers: what a write leaves at its own part and at every other byte of
the register file (rules R20 to R25). -/

namespace Sys2Proof.Machine

/-! ## Whole registers -/

@[simp] theorem Bank.get_set_same (b : Bank) (q : Quad) (v : Long) : (b.set q v).get q = v := by
  cases q <;> rfl

theorem Bank.get_set_other (b : Bank) {q r : Quad} (v : Long) (h : r ≠ q) : (b.set q v).get r = b.get r := by
  cases q <;> cases r <;> first | rfl | exact absurd rfl h

theorem bank_number_cases (n : BitVec 2) : n = 0#2 ∨ n = 1#2 ∨ n = 2#2 ∨ n = 3#2 := by
  revert n; decide

@[simp] theorem Regs.bank_setBank_same (r : Regs) (n : BitVec 2) (b : Bank) : (r.setBank n b).bank n = b := by
  obtain rfl | rfl | rfl | rfl := bank_number_cases n <;> rfl

theorem Regs.bank_setBank_other (r : Regs) {n m : BitVec 2} (b : Bank) (h : m ≠ n) :
    (r.setBank n b).bank m = r.bank m := by
  obtain rfl | rfl | rfl | rfl := bank_number_cases n <;>
    obtain rfl | rfl | rfl | rfl := bank_number_cases m <;> first | rfl | exact absurd rfl h

@[simp] theorem Regs.setBank_xix (r : Regs) (n : BitVec 2) (b : Bank) : (r.setBank n b).xix = r.xix := by
  obtain rfl | rfl | rfl | rfl := bank_number_cases n <;> rfl

@[simp] theorem Regs.setBank_xiy (r : Regs) (n : BitVec 2) (b : Bank) : (r.setBank n b).xiy = r.xiy := by
  obtain rfl | rfl | rfl | rfl := bank_number_cases n <;> rfl

@[simp] theorem Regs.setBank_xiz (r : Regs) (n : BitVec 2) (b : Bank) : (r.setBank n b).xiz = r.xiz := by
  obtain rfl | rfl | rfl | rfl := bank_number_cases n <;> rfl

@[simp] theorem Regs.setBank_xsp (r : Regs) (n : BitVec 2) (b : Bank) : (r.setBank n b).xsp = r.xsp := by
  obtain rfl | rfl | rfl | rfl := bank_number_cases n <;> rfl

@[simp] theorem Regs.get_set_same (r : Regs) (p : Place) (v : Long) : (r.set p v).get p = v := by
  cases p <;> simp [Regs.get, Regs.set]

theorem Regs.get_set_other (r : Regs) {p q : Place} (v : Long) (h : q ≠ p) : (r.set p v).get q = r.get q := by
  cases p <;> cases q <;> try (first | exact absurd rfl h | rfl | simp [Regs.get, Regs.set]; done)
  rename_i n a m b
  by_cases hn : m = n
  · subst hn
    have hq : b ≠ a := fun e => h (by rw [e])
    simp [Regs.get, Regs.set, Bank.get_set_other _ _ hq]
  · simp [Regs.get, Regs.set, Regs.bank_setBank_other _ _ hn]

/-! ## Bytes of a 32-bit value -/

theorem toNat_concat {n m : Nat} (x : BitVec n) (y : BitVec m) : (x ++ y).toNat = x.toNat * 2 ^ m + y.toNat := by
  rw [BitVec.toNat_append, ← Nat.shiftLeft_add_eq_or_of_lt y.isLt, Nat.shiftLeft_eq]

theorem toNat_slice {w : Nat} (i n : Nat) (v : BitVec w) :
    (v.extractLsb' i n).toNat = v.toNat / 2 ^ i % 2 ^ n := by
  rw [BitVec.extractLsb'_toNat, Nat.shiftRight_eq_div_pow]

theorem setByte_zero (v : Long) (x : Byte) : setByte 0#2 v x = v.extractLsb' 8 24 ++ x := rfl

theorem setByte_one (v : Long) (x : Byte) : setByte 1#2 v x = v.extractLsb' 16 16 ++ x ++ v.extractLsb' 0 8 := rfl

theorem setByte_two (v : Long) (x : Byte) : setByte 2#2 v x = v.extractLsb' 24 8 ++ x ++ v.extractLsb' 0 16 := rfl

theorem setByte_three (v : Long) (x : Byte) : setByte 3#2 v x = x ++ v.extractLsb' 0 24 := rfl

theorem setWord_zero (v : Long) (x : Word) : setWord 0#2 v x = v.extractLsb' 16 16 ++ x := rfl

theorem setWord_two (v : Long) (x : Word) : setWord 2#2 v x = x ++ v.extractLsb' 0 16 := rfl

theorem setByte_same (off : BitVec 2) (v : Long) (x : Byte) :
    (setByte off v x).extractLsb' (8 * off.toNat) 8 = x := by
  obtain rfl | rfl | rfl | rfl := bank_number_cases off
  all_goals
    apply BitVec.eq_of_toNat_eq
    simp only [setByte_zero, setByte_one, setByte_two, setByte_three, toNat_slice, toNat_concat,
      BitVec.toNat_ofNat, Nat.reducePow, Nat.reduceMod, Nat.reduceMul]
    have := x.isLt
    omega

theorem setByte_other {off o : BitVec 2} (h : o ≠ off) (v : Long) (x : Byte) :
    (setByte off v x).extractLsb' (8 * o.toNat) 8 = v.extractLsb' (8 * o.toNat) 8 := by
  obtain rfl | rfl | rfl | rfl := bank_number_cases off
  all_goals obtain rfl | rfl | rfl | rfl := bank_number_cases o
  all_goals first | exact absurd rfl h | skip
  all_goals
    apply BitVec.eq_of_toNat_eq
    simp only [setByte_zero, setByte_one, setByte_two, setByte_three, toNat_slice, toNat_concat,
      BitVec.toNat_ofNat, Nat.reducePow, Nat.reduceMod, Nat.reduceMul]
    have := x.isLt
    have := v.isLt
    omega

theorem setWord_low (v : Long) (x : Word) : (setWord 0#2 v x).extractLsb' 0 16 = x := by
  apply BitVec.eq_of_toNat_eq
  simp only [setWord_zero, toNat_slice, toNat_concat, Nat.reducePow]
  have := x.isLt
  omega

theorem setWord_high (v : Long) (x : Word) : (setWord 2#2 v x).extractLsb' 16 16 = x := by
  apply BitVec.eq_of_toNat_eq
  simp only [setWord_two, toNat_slice, toNat_concat, Nat.reducePow]
  have := x.isLt
  omega

theorem setWord_low_other {o : BitVec 2} (h : 2 ≤ o.toNat) (v : Long) (x : Word) :
    (setWord 0#2 v x).extractLsb' (8 * o.toNat) 8 = v.extractLsb' (8 * o.toNat) 8 := by
  obtain rfl | rfl | rfl | rfl := bank_number_cases o
  · exact absurd h (by decide)
  · exact absurd h (by decide)
  all_goals
    apply BitVec.eq_of_toNat_eq
    simp only [setWord_zero, toNat_slice, toNat_concat, BitVec.toNat_ofNat, Nat.reducePow, Nat.reduceMod, Nat.reduceMul]
    have := x.isLt
    have := v.isLt
    omega

theorem setWord_high_other {o : BitVec 2} (h : o.toNat < 2) (v : Long) (x : Word) :
    (setWord 2#2 v x).extractLsb' (8 * o.toNat) 8 = v.extractLsb' (8 * o.toNat) 8 := by
  obtain rfl | rfl | rfl | rfl := bank_number_cases o
  · apply BitVec.eq_of_toNat_eq
    simp only [setWord_two, toNat_slice, toNat_concat, BitVec.toNat_ofNat, Nat.reducePow, Nat.reduceMod, Nat.reduceMul]
    have := v.isLt
    omega
  · apply BitVec.eq_of_toNat_eq
    simp only [setWord_two, toNat_slice, toNat_concat, BitVec.toNat_ofNat, Nat.reducePow, Nat.reduceMod, Nat.reduceMul]
    have := v.isLt
    omega
  · exact absurd h (by decide)
  · exact absurd h (by decide)

/-! ## Parts of a register -/

theorem RegCode.legal_word {c : RegCode} (h : c.legal .word = true) : c.off = 0#2 ∨ c.off = 2#2 := by
  obtain e | e | e | e := bank_number_cases c.off <;> simp_all [RegCode.legal]

theorem RegCode.legal_long {c : RegCode} (h : c.legal .long = true) : c.off = 0#2 := by
  simpa [RegCode.legal] using h

/-- Reading back the part just written (rule R21). -/
theorem getPart_setPart {sz : Size} {c : RegCode} (h : c.legal sz = true) (v : Long) (x : BitVec sz.bits) :
    getPart sz c.off (setPart sz c.off v x) = x := by
  cases sz with
  | byte => exact setByte_same c.off v x
  | word =>
    obtain e | e := RegCode.legal_word h
    · rw [e]; exact setWord_low v x
    · rw [e]; exact setWord_high v x
  | long => rfl

/-- A byte outside the part just written (rule R21). -/
theorem setPart_other {sz : Size} {c : RegCode} (h : c.legal sz = true) {o : BitVec 2}
    (ho : ¬ (c.off.toNat ≤ o.toNat ∧ o.toNat < c.off.toNat + sz.bytes)) (v : Long) (x : BitVec sz.bits) :
    (setPart sz c.off v x).extractLsb' (8 * o.toNat) 8 = v.extractLsb' (8 * o.toNat) 8 := by
  have hlt := o.isLt
  cases sz with
  | byte =>
    refine setByte_other (fun e => ho ?_) v x
    subst e
    exact ⟨le_refl _, Nat.lt_succ_self _⟩
  | word =>
    simp only [Size.bytes] at ho
    obtain e | e := RegCode.legal_word h
    · rw [e] at ho ⊢
      exact setWord_low_other (by simp at ho; omega) v x
    · rw [e] at ho ⊢
      exact setWord_high_other (by simp at ho; omega) v x
  | long =>
    rw [RegCode.legal_long h] at ho
    simp [Size.bytes] at ho
    omega

/-! ## The spec lemmas of `writeReg` -/

@[simp] theorem placeOf_writeReg (sz : Size) (c : RegCode) (x : BitVec sz.bits) (s : State) (r : Row) :
    placeOf (writeReg sz c x s) r = placeOf s r := by
  cases r <;> rfl

theorem placeOf_congr {s t : State} (h : t.rfp = s.rfp) (r : Row) : placeOf t r = placeOf s r := by
  cases r <;> try rfl
  rename_i b q
  cases b <;> simp [placeOf, bankNumber, h]

theorem readReg_congr {s t : State} (hr : t.regs = s.regs) (hp : t.rfp = s.rfp) (sz : Size) (c : RegCode) :
    readReg sz c t = readReg sz c s := by
  rw [readReg, readReg, hr, placeOf_congr hp]

theorem regByte_congr {s t : State} (hr : t.regs = s.regs) (p : Place) (o : BitVec 2) :
    regByte t p o = regByte s p o := by
  rw [regByte, regByte, hr]

@[simp] theorem readReg_writeReg_same {sz : Size} {c : RegCode} (h : c.legal sz = true) (x : BitVec sz.bits)
    (s : State) : readReg sz c (writeReg sz c x s) = x := by
  rw [readReg, placeOf_writeReg, writeReg_regs, Regs.get_set_same, getPart_setPart h]

theorem readReg_writeReg_other {sz sz' : Size} {c c' : RegCode} {s : State}
    (h : placeOf s c'.row ≠ placeOf s c.row) (x : BitVec sz.bits) :
    readReg sz' c' (writeReg sz c x s) = readReg sz' c' s := by
  rw [readReg, placeOf_writeReg, writeReg_regs, Regs.get_set_other _ _ h, readReg]

theorem regByte_writeReg_other {sz : Size} {c : RegCode} (h : c.legal sz = true) {s : State} {p : Place}
    {o : BitVec 2} (ho : ¬ InPart s sz c p o) (x : BitVec sz.bits) :
    regByte (writeReg sz c x s) p o = regByte s p o := by
  rw [regByte, writeReg_regs]
  by_cases hp : p = placeOf s c.row
  · subst hp
    rw [Regs.get_set_same, setPart_other h (fun e => ho ⟨rfl, e⟩), regByte]
  · rw [Regs.get_set_other _ _ hp, regByte]

/-- A write changes the named part and no other byte of the register file (rules R10, R21). -/
theorem onlyReg_writeReg {sz : Size} {c : RegCode} (h : c.legal sz = true) (x : BitVec sz.bits) (s : State) :
    OnlyReg sz c x s (writeReg sz c x s) :=
  ⟨readReg_writeReg_same h x s, fun _ _ ho => regByte_writeReg_other h ho x⟩

/-- Only `regs` and `rfp` count for what a register write is seen to do. -/
theorem OnlyReg.congr {sz : Size} {c : RegCode} {v : BitVec sz.bits} {s t s' t' : State} (h : OnlyReg sz c v s t)
    (hs : s'.regs = s.regs) (hsp : s'.rfp = s.rfp) (ht : t'.regs = t.regs) (htp : t'.rfp = t.rfp) :
    OnlyReg sz c v s' t' := by
  refine ⟨(readReg_congr ht htp sz c).trans h.1, fun p o ho => ?_⟩
  rw [regByte_congr ht, regByte_congr hs]
  refine h.2 p o (fun hi => ho ?_)
  rw [InPart, placeOf_congr hsp]
  exact hi

/-! ## Codes that are always legal -/

@[simp] theorem code3_legal (sz : Size) (k : R3) : (code3 sz k).legal sz = true := by
  cases sz <;> revert k <;> decide

theorem codeOf_legal {sz : Size} {r : RegOp} (h : r.legal sz = true) : (codeOf sz r).legal sz = true := by
  cases r with
  | short k => exact code3_legal sz k
  | ext c => exact h

@[simp] theorem row_legal (r : Row) : RegCode.legal .long ⟨r, 0#2⟩ = true := rfl

/-- A dividend operand names a legal register of double width (rules R103, R196). -/
theorem dividend_legal {sz : BW} {k : R3} (h : R3.dividend sz k = true) :
    (code3 sz.size k).legal sz.double = true := by
  cases sz <;> revert k <;> decide

theorem codeOf_dividend_legal {sz : BW} {r : RegOp} (h : r.dividend sz = true) :
    (codeOf sz.size r).legal sz.double = true := by
  cases r with
  | short k => exact dividend_legal h
  | ext c => exact h

end Sys2Proof.Machine
end

