-- ==== Sys2Proof/Laws/Shapes.lean ====
section
/-! SUPPORT. One lemma per shared shape: what it answers when its operands can be read and its results written, and
the frame of that answer. -/

namespace Sys2Proof.Machine

/-! ## The effective address (rules R66, R68) -/

theorem eaState_of_plain {m : Mode} (h : m.steps = false) (s : State) : eaState m s = s := by
  cases m <;> first | rfl | cases h

theorem load_ea {sz : Size} {m : Mode} {a : Long} {v : BitVec sz.bits} {s : State} (h : Readable sz a v s) :
    load sz a (eaState m s) = .next v := by
  rw [load_congr (eaState_mem s m) (eaState_launch s m), load_of_readable h]

theorem ifPlain_of_plain {m : Mode} (h : m.steps = false) (k : Res State) : ifPlain m k = k := by
  rw [ifPlain, h]; rfl

theorem ifPlain_of_steps {m : Mode} (h : m.steps = true) (k : Res State) :
    ifPlain m k = .refused .notAdmitted := by
  rw [ifPlain, h]; rfl

/-! ## Frames -/

theorem FlagsStep.refl (s : State) : FlagsStep s s := ⟨rfl, rfl, rfl, SameControl.refl s⟩

theorem FlagsStep.onlyReg_iff {sz : Size} {c : RegCode} {v : BitVec sz.bits} {s u t : State} (h : FlagsStep s u)
    (k : OnlyReg sz c v u t) : OnlyReg sz c v s t :=
  k.congr h.regs.symm h.control.rfp.symm rfl rfl

/-- A register write after a flag update, then the end of the instruction. -/
theorem regOnly_write {sz : Size} {c : RegCode} (hc : c.legal sz = true) (v : BitVec sz.bits) {s u : State}
    (h : FlagsStep s u) (len : Nat) : RegOnly sz c v s (advance len (writeReg sz c v u)) :=
  ⟨(h.onlyReg_iff (onlyReg_writeReg hc v u)).congr rfl rfl rfl rfl, h.mem,
    h.control.trans ⟨rfl, rfl, rfl, rfl, rfl, rfl, rfl⟩⟩

/-- A flag update after a register write, then the end of the instruction. -/
theorem regOnly_write_flags {sz : Size} {c : RegCode} (hc : c.legal sz = true) (v : BitVec sz.bits) {s u : State}
    (h : FlagsStep (writeReg sz c v s) u) (len : Nat) : RegOnly sz c v s (advance len u) :=
  ⟨(onlyReg_writeReg hc v s).congr rfl rfl h.regs h.control.rfp, h.mem,
    SameControl.trans (t := writeReg sz c v s) ⟨rfl, rfl, rfl, rfl, rfl, rfl, rfl⟩
      (h.control.trans ⟨rfl, rfl, rfl, rfl, rfl, rfl, rfl⟩)⟩

theorem untouched_of_flagsStep {s u : State} (h : FlagsStep s u) (len : Nat) : Untouched s (advance len u) :=
  ⟨h.regs, h.mem, h.control.trans ⟨rfl, rfl, rfl, rfl, rfl, rfl, rfl⟩⟩

/-- A store after a flag update: it answers, and only memory at the address changes. -/
theorem store_after_flags {sz : Size} {a : Long} (v : BitVec sz.bits) {s u : State} (h : FlagsStep s u)
    (hw : Writable sz a s) :
    ∃ w, store sz a v u = .next w ∧ w.f = u.f ∧ w.pc = s.pc ∧ ∀ len, MemOnly sz a v s (advance len w) := by
  obtain ⟨m, hm, hwr⟩ := store_next_of_writable v (hw.congr h.control.launch)
  refine ⟨{ u with mem := m }, hm, rfl, h.pc, fun len => ⟨⟨hwr.1, fun b hb => ?_⟩, h.regs,
    h.control.trans ⟨rfl, rfl, rfl, rfl, rfl, rfl, rfl⟩⟩⟩
  rw [← h.mem]
  exact hwr.2 b hb

/-! ## Two operands and a result in memory -/

/-- `(mem) <- (mem) op b` for an operation that otherwise only writes flags. -/
theorem opMem_next {op : BinOp} {sz : Size} {m : Mode} {b : State → BitVec sz.bits} {n : Nat} {s : State}
    {a : BitVec sz.bits} (hr : Readable sz (eaAddr m s) a s) (hw : Writable sz (eaAddr m s) s)
    (hop : ∀ x y u, FlagsStep u (op sz x y u).2) :
    ∃ w, opMem op sz m b n s = .next (advance (memLen m n) w) ∧
      w.f = (op sz a (b (eaState m s)) (eaState m s)).2.f ∧ w.pc = s.pc ∧
      MemOnly sz (eaAddr m s) (op sz a (b (eaState m s)) (eaState m s)).1 (eaState m s)
        (advance (memLen m n) w) := by
  obtain ⟨w, h1, h2, h3, h4⟩ := store_after_flags (op sz a (b (eaState m s)) (eaState m s)).1
    (hop a (b (eaState m s)) (eaState m s)) (hw.congr (eaState_launch s m))
  refine ⟨w, ?_, h2, h3.trans (eaState_pc s m), h4 _⟩
  simp only [opMem, load_ea hr, andThen_next, h1]

/-- `R <- R op (mem)`. -/
theorem opRMem_next {op : BinOp} {sz : Size} {R : R3} {m : Mode} {s : State} {v : BitVec sz.bits}
    (hr : Readable sz (eaAddr m s) v s) :
    opRMem op sz R m s = .next (advance (memLen m 0)
      (writeR sz R (op sz (readR sz R (eaState m s)) v (eaState m s)).1
        (op sz (readR sz R (eaState m s)) v (eaState m s)).2)) := by
  simp only [opRMem, load_ea hr, andThen_next]

theorem cpMem_next {sz : Size} {m : Mode} {flags : BitVec sz.bits → State → State} {n : Nat} {s : State}
    {v : BitVec sz.bits} (hr : Readable sz (eaAddr m s) v s) :
    cpMem sz m flags n s = .next (advance (memLen m n) (flags v (eaState m s))) := by
  simp only [cpMem, load_ea hr, andThen_next]

theorem withMemByte_next {m : Mode} {k : Byte → State → State} {s : State} {v : Byte}
    (hr : Readable .byte (eaAddr m s) v s) :
    withMemByte m k s = .next (advance (memLen m 0) (k v (eaState m s))) := by
  simp only [withMemByte, load_ea hr, andThen_next]

/-- `(mem) <- v`. -/
theorem storeMem_next {sz : Size} {m : Mode} {v : State → BitVec sz.bits} {n : Nat} {s : State}
    (hw : Writable sz (eaAddr m s) s) :
    ∃ w, storeMem sz m v n s = .next (advance (memLen m n) w) ∧ w.f = s.f ∧ w.pc = s.pc ∧
      MemOnly sz (eaAddr m s) (v (eaState m s)) (eaState m s) (advance (memLen m n) w) := by
  obtain ⟨w, h1, h2, h3, h4⟩ := store_after_flags (v (eaState m s)) (FlagsStep.refl (eaState m s))
    (hw.congr (eaState_launch s m))
  refine ⟨w, ?_, h2.trans (eaState_f s m), h3.trans (eaState_pc s m), h4 _⟩
  simp only [storeMem, h1, andThen_next]

/-! ## Division (rules R196, R200) -/

theorem withDividend_of_legal {sz : BW} {c : RegCode} (h : c.legal sz.double = true) (k : Res State) :
    withDividend sz c k = k := by
  rw [withDividend, h]; rfl

theorem withDividend_of_illegal {sz : BW} {c : RegCode} (h : c.legal sz.double = false) (k : Res State) :
    withDividend sz c k = .refused .undefinedEncoding := by
  rw [withDividend, h]; rfl

/-- A division writes the dividend register and V, and nothing else (rule R196). -/
theorem divide_frame {sz : BW} {signed : Bool} {c : RegCode} (hc : c.legal sz.double = true)
    (d : BitVec sz.size.bits) (s : State) (len : Nat) :
    ∃ w, RegOnly sz.double c w s (advance len (divide sz signed c d s)) := by
  unfold divide
  split
  · refine ⟨_, regOnly_write hc _ ?_ len⟩
    exact ⟨rfl, rfl, rfl, ⟨rfl, rfl, rfl, rfl, rfl, rfl, rfl⟩⟩
  · refine ⟨_, regOnly_write hc _ ?_ len⟩
    exact ⟨rfl, rfl, rfl, ⟨rfl, rfl, rfl, rfl, rfl, rfl, rfl⟩⟩

/-! ## Steps that change nothing else -/

theorem sameControl_advance (len : Nat) (s : State) : SameControl s (advance len s) :=
  ⟨rfl, rfl, rfl, rfl, rfl, rfl, rfl⟩

end Sys2Proof.Machine
end

