-- ==== Sys2Proof/Tests/Slice0.lean ====
section
/-! SUPPORT. Tests. Expected values come from `spec/95_test_vectors.md` (rows E, T, X, B, A, L, K, S, J, Z and program P1)
or, where a row says so, by hand from the rule it names. The last part shows, for each statement with hypotheses,
a state and operands that meet them. -/

namespace Sys2Proof.Tests.Slice0

open Sys2Proof Sys2Proof.Machine

/-! ## Helpers -/

/-- The reset state with the bytes `bs` as program text at `pc`, 2^32 addresses and the given bytes of memory. -/
def start (pc : Long) (bs : List Byte) (mem : List (Nat × Byte)) : State :=
  { State.reset with
    pc := pc
    mem := mem.foldl (fun m c => m.write c.1 c.2) (placeBytes [] pc bs)
    launch := { addrBits := 32, present := [⟨0, 2 ^ 32⟩], text := [⟨pc.toNat, bs.length⟩] } }

/-- The register of an 8-bit code (rule R24). -/
def reg (code : Byte) : RegCode := (regOfCode code).getD codeA

def put (sz : Size) (code : Byte) (v : BitVec sz.bits) (s : State) : State := writeReg sz (reg code) v s

def get (sz : Size) (code : Byte) (s : State) : BitVec sz.bits := readReg sz (reg code) s

def flags (sf zf hf vf nf cf : Bool) (s : State) : State := { s with f := ⟨sf, zf, hf, vf, nf, cf⟩ }

def backFlags (sf zf hf vf nf cf : Bool) (s : State) : State := { s with fAlt := ⟨sf, zf, hf, vf, nf, cf⟩ }

def withRfp (n : BitVec 2) (s : State) : State := { s with rfp := n }

/-- DMAM0 holds `v`. -/
def withCr (v : Byte) (s : State) : State := { s with cr := { s.cr with dmam0 := v } }

/-- One step is taken and leads to a state that passes the check. -/
def after (s : State) (check : State → Bool) : Bool :=
  match step s with
  | .next t => check t
  | _ => false

/-! ## Ill-formed terms, one for each check -/

theorem test_wf_odd_word_code : ¬ WellFormed (.addRr .word 0#3 (.ext ⟨.xix, 1#2⟩)) := by decide

theorem test_wf_long_code_off_two : ¬ WellFormed (.ldRr .long 0#3 (.ext ⟨.xix, 2#2⟩)) := by decide

theorem test_wf_odd_index : ¬ WellFormed (.ldRMem .byte 0#3 (.index16 .xix ⟨.bank .cur .xbc, 1#2⟩)) := by decide

theorem test_wf_dividend_short : ¬ WellFormed (.divRr .byte 0#3 (.short 1#3)) := by decide

theorem test_wf_dividend_code : ¬ WellFormed (.divsrImm (.ext ⟨.xix, 1#2⟩) (.b 0x03#8)) := by decide

theorem test_wf_dividend_memory : ¬ WellFormed (.divsRMem .byte 6#3 (.ind 3#3)) := by decide

theorem test_wf_bit_number : ¬ WellFormed (.bit4r .byte 8#4 (.short 1#3)) := by decide

theorem test_wf_chg_number : ¬ WellFormed (.chg4r .byte 15#4 (.short 1#3)) := by decide

theorem test_wf_jp_stepping : ¬ WellFormed (.jpMem .t (.postInc .xsp .four)) := by decide

theorem test_wf_call_stepping : ¬ WellFormed (.callMem .z (.preDec .xsp .four)) := by decide

theorem test_wf_lda_stepping : ¬ WellFormed (.ldaW 0#3 (.postInc .xix .one)) := by decide

theorem test_wf_lda_long_stepping : ¬ WellFormed (.ldaL 0#3 (.preDec .xix .two)) := by decide

theorem test_wf_ei_seven : ¬ WellFormed (.ei 7#3) := by decide

theorem test_wf_ldc_code : ¬ WellFormed (.ldcCrR (.dmac 0#2) (.ext ⟨.xix, 3#2⟩)) := by decide

/-! ## Decoding, one word for each constructor -/

/-- HALT: bytes 05 (`95_test_vectors.md`). -/
theorem test_decode_halt : decode [0x05#8] = .ok (.halt) [] := by decide

/-- EI 3: bytes 06 03 (`95_test_vectors.md`). -/
theorem test_decode_ei : decode [0x06#8, 0x03#8] = .ok (.ei 3#3) [] := by decide

/-- DI: bytes 06 07 (`95_test_vectors.md`). -/
theorem test_decode_di : decode [0x06#8, 0x07#8] = .ok (.di) [] := by decide

/-- LD (0FFH), 5AH: bytes 08 FF 5A (`95_test_vectors.md`). -/
theorem test_decode_ldDir8B : decode [0x08#8, 0xFF#8, 0x5A#8] = .ok (.ldDir8B 0xFF#8 0x5A#8) [] := by decide

/-- LDW (20H), 1234H: bytes 0A 20 34 12 (`95_test_vectors.md`). -/
theorem test_decode_ldDir8W : decode [0x0A#8, 0x20#8, 0x34#8, 0x12#8] = .ok (.ldDir8W 0x20#8 0x1234#16) [] := by decide

/-- INCF: bytes 0C (`95_test_vectors.md`). -/
theorem test_decode_incf : decode [0x0C#8] = .ok (.incf) [] := by decide

/-- DECF: bytes 0D (`95_test_vectors.md`). -/
theorem test_decode_decf : decode [0x0D#8] = .ok (.decf) [] := by decide

/-- CCF: bytes 12 (`95_test_vectors.md`). -/
theorem test_decode_ccf : decode [0x12#8] = .ok (.ccf) [] := by decide

/-- EX F, F': bytes 16 (`95_test_vectors.md`). -/
theorem test_decode_exFF : decode [0x16#8] = .ok (.exFF) [] := by decide

/-- LDF 2: bytes 17 02 (`95_test_vectors.md`). -/
theorem test_decode_ldf : decode [0x17#8, 0x02#8] = .ok (.ldf 2#3) [] := by decide

/-- JP 2000H: bytes 1A 00 20 (`95_test_vectors.md`). -/
theorem test_decode_jp16 : decode [0x1A#8, 0x00#8, 0x20#8] = .ok (.jp16 0x2000#16) [] := by decide

/-- JP 123456H: bytes 1B 56 34 12 (`95_test_vectors.md`). -/
theorem test_decode_jp24 : decode [0x1B#8, 0x56#8, 0x34#8, 0x12#8] = .ok (.jp24 0x123456#24) [] := by decide

/-- CALL 9000H: bytes 1C 00 90 (`95_test_vectors.md`). -/
theorem test_decode_call16 : decode [0x1C#8, 0x00#8, 0x90#8] = .ok (.call16 0x9000#16) [] := by decide

/-- CALL 123456H: bytes 1D 56 34 12 (`95_test_vectors.md`). -/
theorem test_decode_call24 : decode [0x1D#8, 0x56#8, 0x34#8, 0x12#8] = .ok (.call24 0x123456#24) [] := by decide

/-- CALR 9000H at 8000H: bytes 1E FD 0F (`95_test_vectors.md`). -/
theorem test_decode_calr : decode [0x1E#8, 0xFD#8, 0x0F#8] = .ok (.calr 0x0FFD#16) [] := by decide

/-- LD B, 05H: bytes 22 05 (`95_test_vectors.md`). -/
theorem test_decode_ldRImmB : decode [0x22#8, 0x05#8] = .ok (.ldRImmB 2#3 0x05#8) [] := by decide

/-- LD WA, 1234H: bytes 30 34 12 (`95_test_vectors.md`). -/
theorem test_decode_ldRImmW : decode [0x30#8, 0x34#8, 0x12#8] = .ok (.ldRImmW 0#3 0x1234#16) [] := by decide

/-- LD XIX, 12345678H: bytes 44 78 56 34 12 (`95_test_vectors.md`). -/
theorem test_decode_ldRImmL :
    decode [0x44#8, 0x78#8, 0x56#8, 0x34#8, 0x12#8] = .ok (.ldRImmL 4#3 0x12345678#32) [] := by decide

/-- JR 2078H at 2000H: bytes 68 76 (`95_test_vectors.md`). -/
theorem test_decode_jr : decode [0x68#8, 0x76#8] = .ok (.jr .t 0x76#8) [] := by decide

/-- JRL NZ, d16 = FFFDH: bytes 7E FD FF (`95_test_vectors.md`). -/
theorem test_decode_jrl : decode [0x7E#8, 0xFD#8, 0xFF#8] = .ok (.jrl .nz 0xFFFD#16) [] := by decide

/-- LD QWA, 5678H: bytes D7 E2 03 78 56 (`95_test_vectors.md`). -/
theorem test_decode_ldrImm :
    decode [0xD7#8, 0xE2#8, 0x03#8, 0x78#8, 0x56#8] = .ok (.ldrImm (.ext ⟨.bank .cur .xwa, 2#2⟩) (.w 0x5678#16)) [] := by decide

/-- CPL WA: bytes D8 06 (`95_test_vectors.md`). -/
theorem test_decode_cpl : decode [0xD8#8, 0x06#8] = .ok (.cpl .word (.short 0#3)) [] := by decide

/-- DIV IX, 07H: bytes C7 F0 0A 07 (`95_test_vectors.md`). -/
theorem test_decode_divrImm :
    decode [0xC7#8, 0xF0#8, 0x0A#8, 0x07#8] = .ok (.divrImm (.ext ⟨.xix, 0#2⟩) (.b 0x07#8)) [] := by decide

/-- DIVS WA, FDH: bytes C9 0B FD (`95_test_vectors.md`). -/
theorem test_decode_divsrImm : decode [0xC9#8, 0x0B#8, 0xFD#8] = .ok (.divsrImm (.short 1#3) (.b 0xFD#8)) [] := by decide

/-- BS1B A, IX: bytes DC 0F (`95_test_vectors.md`). -/
theorem test_decode_bs1b : decode [0xDC#8, 0x0F#8] = .ok (.bs1b (.short 4#3)) [] := by decide

/-- DAA A: bytes C9 10 (`95_test_vectors.md`). -/
theorem test_decode_daa : decode [0xC9#8, 0x10#8] = .ok (.daa (.short 1#3)) [] := by decide

/-- EXTZ HL: bytes DB 12 (`95_test_vectors.md`). -/
theorem test_decode_extz : decode [0xDB#8, 0x12#8] = .ok (.extz .word (.short 3#3)) [] := by decide

/-- EXTS XIX: bytes EC 13 (`95_test_vectors.md`). -/
theorem test_decode_exts : decode [0xEC#8, 0x13#8] = .ok (.exts .long (.short 4#3)) [] := by decide

/-- DJNZ B, d8 = FDH: bytes CA 1C FD (`95_test_vectors.md`). -/
theorem test_decode_djnz : decode [0xCA#8, 0x1C#8, 0xFD#8] = .ok (.djnz .byte (.short 2#3) 0xFD#8) [] := by decide

/-- ANDCF 6, HL: bytes DB 20 06 (`95_test_vectors.md`). -/
theorem test_decode_andcf4r : decode [0xDB#8, 0x20#8, 0x06#8] = .ok (.andcf4r .word 6#4 (.short 3#3)) [] := by decide

/-- LDCF 6, HL: bytes DB 23 06 (`95_test_vectors.md`). -/
theorem test_decode_ldcf4r : decode [0xDB#8, 0x23#8, 0x06#8] = .ok (.ldcf4r .word 6#4 (.short 3#3)) [] := by decide

/-- ANDCF A, HL: bytes DB 28 (`95_test_vectors.md`). -/
theorem test_decode_andcfAr : decode [0xDB#8, 0x28#8] = .ok (.andcfAr .word (.short 3#3)) [] := by decide

/-- LDCF A, WA: bytes D8 2B (`95_test_vectors.md`). -/
theorem test_decode_ldcfAr : decode [0xD8#8, 0x2B#8] = .ok (.ldcfAr .word (.short 0#3)) [] := by decide

/-- LDC DMAC0, WA: bytes D8 2E 20 (`95_test_vectors.md`). -/
theorem test_decode_ldcCrR : decode [0xD8#8, 0x2E#8, 0x20#8] = .ok (.ldcCrR (.dmac 0#2) (.short 0#3)) [] := by decide

/-- LDC A, DMAM1: bytes C9 2F 26 (`95_test_vectors.md`). -/
theorem test_decode_ldcRCr : decode [0xC9#8, 0x2F#8, 0x26#8] = .ok (.ldcRCr (.short 1#3) (.dmam 1#2)) [] := by decide

/-- CHG 5, HL: bytes DB 32 05 (`95_test_vectors.md`). -/
theorem test_decode_chg4r : decode [0xDB#8, 0x32#8, 0x05#8] = .ok (.chg4r .word 5#4 (.short 3#3)) [] := by decide

/-- BIT 4, IX: bytes DC 33 04 (`95_test_vectors.md`). -/
theorem test_decode_bit4r : decode [0xDC#8, 0x33#8, 0x04#8] = .ok (.bit4r .word 4#4 (.short 4#3)) [] := by decide

/-- DIV XIX, IY: bytes DD 54 (`95_test_vectors.md`). -/
theorem test_decode_divRr : decode [0xDD#8, 0x54#8] = .ok (.divRr .word 4#3 (.short 5#3)) [] := by decide

/-- DIVS XIX, IY: bytes DD 5C (`95_test_vectors.md`). -/
theorem test_decode_divsRr : decode [0xDD#8, 0x5C#8] = .ok (.divsRr .word 4#3 (.short 5#3)) [] := by decide

/-- INC 5, WA: bytes D8 65 (`95_test_vectors.md`). -/
theorem test_decode_inc3r : decode [0xD8#8, 0x65#8] = .ok (.inc3r .word 5#3 (.short 0#3)) [] := by decide

/-- DEC 4, HL: bytes DB 6C (`95_test_vectors.md`). -/
theorem test_decode_dec3r : decode [0xDB#8, 0x6C#8] = .ok (.dec3r .word 4#3 (.short 3#3)) [] := by decide

/-- ADD HL, IX: bytes DC 83 (`95_test_vectors.md`). -/
theorem test_decode_addRr : decode [0xDC#8, 0x83#8] = .ok (.addRr .word 3#3 (.short 4#3)) [] := by decide

/-- LD IX, DE: bytes DA 8C (`95_test_vectors.md`). -/
theorem test_decode_ldRr : decode [0xDA#8, 0x8C#8] = .ok (.ldRr .word 4#3 (.short 2#3)) [] := by decide

/-- ADC HL, IX: bytes DC 93 (`95_test_vectors.md`). -/
theorem test_decode_adcRr : decode [0xDC#8, 0x93#8] = .ok (.adcRr .word 3#3 (.short 4#3)) [] := by decide

/-- LD QIX, WA: bytes D7 F2 98 (`95_test_vectors.md`). -/
theorem test_decode_ldrR : decode [0xD7#8, 0xF2#8, 0x98#8] = .ok (.ldrR .word (.ext ⟨.xix, 2#2⟩) 0#3) [] := by decide

/-- LD XWA, 5: bytes E8 AD (`95_test_vectors.md`). -/
theorem test_decode_ldr3 : decode [0xE8#8, 0xAD#8] = .ok (.ldr3 .long (.short 0#3) 5#3) [] := by decide

/-- EX A, B: bytes CA B9 (`95_test_vectors.md`). -/
theorem test_decode_exRr : decode [0xCA#8, 0xB9#8] = .ok (.exRr .byte 1#3 (.short 2#3)) [] := by decide

/-- AND HL, IX: bytes DC C3 (`95_test_vectors.md`). -/
theorem test_decode_andRr : decode [0xDC#8, 0xC3#8] = .ok (.andRr .word 3#3 (.short 4#3)) [] := by decide

/-- ADD XWA, 12345678H: bytes E7 E0 C8 78 56 34 12 (`95_test_vectors.md`). -/
theorem test_decode_addrImm :
    decode [0xE7#8, 0xE0#8, 0xC8#8, 0x78#8, 0x56#8, 0x34#8, 0x12#8] = .ok (.addrImm (.ext ⟨.bank .cur .xwa, 0#2⟩) (.l 0x12345678#32)) [] := by decide

/-- ADC A, 00H: bytes C9 C9 00 (`95_test_vectors.md`). -/
theorem test_decode_adcrImm : decode [0xC9#8, 0xC9#8, 0x00#8] = .ok (.adcrImm (.short 1#3) (.b 0x00#8)) [] := by decide

/-- AND A, FFH: bytes C9 CC FF (`95_test_vectors.md`). -/
theorem test_decode_andrImm : decode [0xC9#8, 0xCC#8, 0xFF#8] = .ok (.andrImm (.short 1#3) (.b 0xFF#8)) [] := by decide

/-- CP WA, 1235H: bytes D8 CF 35 12 (`95_test_vectors.md`). -/
theorem test_decode_cprImm :
    decode [0xD8#8, 0xCF#8, 0x35#8, 0x12#8] = .ok (.cprImm (.short 0#3) (.w 0x1235#16)) [] := by decide

/-- CP A, 5: bytes C9 DD (`95_test_vectors.md`). -/
theorem test_decode_cpr3 : decode [0xC9#8, 0xDD#8] = .ok (.cpr3 .byte (.short 1#3) 5#3) [] := by decide

/-- CP A, B: bytes CA F1 (`95_test_vectors.md`). -/
theorem test_decode_cpRr : decode [0xCA#8, 0xF1#8] = .ok (.cpRr .byte 1#3 (.short 2#3)) [] := by decide

/-- LDIW (XDE+), (XHL+): bytes 93 10 (`95_test_vectors.md`). -/
theorem test_decode_ldiDE : decode [0x93#8, 0x10#8] = .ok (.ldiDE .word) [] := by decide

/-- LDI (XIX+), (XIY+): bytes 85 10 (`95_test_vectors.md`). -/
theorem test_decode_ldiIX : decode [0x85#8, 0x10#8] = .ok (.ldiIX .byte) [] := by decide

/-- LDIR (XDE+), (XHL+): bytes 83 11 (`95_test_vectors.md`). -/
theorem test_decode_ldirDE : decode [0x83#8, 0x11#8] = .ok (.ldirDE .byte) [] := by decide

/-- LDIR (XIX+), (XIY+): bytes 85 11 (`95_test_vectors.md`). -/
theorem test_decode_ldirIX : decode [0x85#8, 0x11#8] = .ok (.ldirIX .byte) [] := by decide

/-- LDD (XDE-), (XHL-): bytes 83 12 (`95_test_vectors.md`). -/
theorem test_decode_lddDE : decode [0x83#8, 0x12#8] = .ok (.lddDE .byte) [] := by decide

/-- LDDW (XIX-), (XIY-): bytes 95 12 (`95_test_vectors.md`). -/
theorem test_decode_lddIX : decode [0x95#8, 0x12#8] = .ok (.lddIX .word) [] := by decide

/-- LDDRW (XDE-), (XHL-): bytes 93 13 (`95_test_vectors.md`). -/
theorem test_decode_lddrDE : decode [0x93#8, 0x13#8] = .ok (.lddrDE .word) [] := by decide

/-- LDDR (XIX-), (XIY-): bytes 85 13 (`95_test_vectors.md`). -/
theorem test_decode_lddrIX : decode [0x85#8, 0x13#8] = .ok (.lddrIX .byte) [] := by decide

/-- CPI A, (XIX+): bytes 84 14 (`95_test_vectors.md`). -/
theorem test_decode_cpi : decode [0x84#8, 0x14#8] = .ok (.cpi .byte 4#3) [] := by decide

/-- CPIR WA, (XHL+): bytes 93 15 (`95_test_vectors.md`). -/
theorem test_decode_cpir : decode [0x93#8, 0x15#8] = .ok (.cpir .word 3#3) [] := by decide

/-- CPD A, (XIX-): bytes 84 16 (`95_test_vectors.md`). -/
theorem test_decode_cpd : decode [0x84#8, 0x16#8] = .ok (.cpd .byte 4#3) [] := by decide

/-- CPDR A, (XIX-): bytes 84 17 (`95_test_vectors.md`). -/
theorem test_decode_cpdr : decode [0x84#8, 0x17#8] = .ok (.cpdr .byte 4#3) [] := by decide

/-- LDW (2000H), (XHL): bytes 93 19 00 20 (`95_test_vectors.md`). -/
theorem test_decode_ldDir16Mem :
    decode [0x93#8, 0x19#8, 0x00#8, 0x20#8] = .ok (.ldDir16Mem .word 0x2000#16 (.ind 3#3)) [] := by decide

/-- LD WA, (-XIX): bytes D4 F1 20 (`95_test_vectors.md`). -/
theorem test_decode_ldRMem : decode [0xD4#8, 0xF1#8, 0x20#8] = .ok (.ldRMem .word 0#3 (.preDec .xix .two)) [] := by decide

/-- EX (XHL), A: bytes 83 31 (`95_test_vectors.md`). -/
theorem test_decode_exMemR : decode [0x83#8, 0x31#8] = .ok (.exMemR .byte (.ind 3#3) 1#3) [] := by decide

/-- ADDW (100H), 0001H: bytes D1 00 01 38 01 00 (`95_test_vectors.md`). -/
theorem test_decode_addMemImm :
    decode [0xD1#8, 0x00#8, 0x01#8, 0x38#8, 0x01#8, 0x00#8] = .ok (.addMemImm (.abs16 0x0100#16) (.w 0x0001#16)) [] := by decide

/-- ADC (10H), 05H: bytes C0 10 39 05 (`95_test_vectors.md`). -/
theorem test_decode_adcMemImm :
    decode [0xC0#8, 0x10#8, 0x39#8, 0x05#8] = .ok (.adcMemImm (.abs8 0x10#8) (.b 0x05#8)) [] := by decide

/-- ANDW (10H), 00FFH: bytes D0 10 3C FF 00 (`95_test_vectors.md`). -/
theorem test_decode_andMemImm :
    decode [0xD0#8, 0x10#8, 0x3C#8, 0xFF#8, 0x00#8] = .ok (.andMemImm (.abs8 0x10#8) (.w 0x00FF#16)) [] := by decide

/-- CP (100H), 40H: bytes C1 00 01 3F 40 (`95_test_vectors.md`). -/
theorem test_decode_cpMemImm :
    decode [0xC1#8, 0x00#8, 0x01#8, 0x3F#8, 0x40#8] = .ok (.cpMemImm (.abs16 0x0100#16) (.b 0x40#8)) [] := by decide

/-- DIV XWA, (XHL): bytes 93 50 (`95_test_vectors.md`). -/
theorem test_decode_divRMem : decode [0x93#8, 0x50#8] = .ok (.divRMem .word 0#3 (.ind 3#3)) [] := by decide

/-- DIVS XWA, (XHL): bytes 93 58 (`95_test_vectors.md`). -/
theorem test_decode_divsRMem : decode [0x93#8, 0x58#8] = .ok (.divsRMem .word 0#3 (.ind 3#3)) [] := by decide

/-- INCW 1, (100H): bytes D1 00 01 61 (`95_test_vectors.md`). -/
theorem test_decode_inc3Mem :
    decode [0xD1#8, 0x00#8, 0x01#8, 0x61#8] = .ok (.inc3Mem .word 1#3 (.abs16 0x0100#16)) [] := by decide

/-- DEC 1, (XHL): bytes 83 69 (`95_test_vectors.md`). -/
theorem test_decode_dec3Mem : decode [0x83#8, 0x69#8] = .ok (.dec3Mem .byte 1#3 (.ind 3#3)) [] := by decide

/-- ADD A, (XHL): bytes 83 81 (`95_test_vectors.md`). -/
theorem test_decode_addRMem : decode [0x83#8, 0x81#8] = .ok (.addRMem .byte 1#3 (.ind 3#3)) [] := by decide

/-- ADD (XHL), A: bytes 83 89 (`95_test_vectors.md`). -/
theorem test_decode_addMemR : decode [0x83#8, 0x89#8] = .ok (.addMemR .byte (.ind 3#3) 1#3) [] := by decide

/-- ADC WA, (XIX+2): bytes 9C 02 90 (`95_test_vectors.md`). -/
theorem test_decode_adcRMem : decode [0x9C#8, 0x02#8, 0x90#8] = .ok (.adcRMem .word 0#3 (.disp8 4#3 0x02#8)) [] := by decide

/-- ADC (XDE), A: bytes 82 99 (`95_test_vectors.md`). -/
theorem test_decode_adcMemR : decode [0x82#8, 0x99#8] = .ok (.adcMemR .byte (.ind 2#3) 1#3) [] := by decide

/-- AND WA, (XHL): bytes 93 C0 (`95_test_vectors.md`). -/
theorem test_decode_andRMem : decode [0x93#8, 0xC0#8] = .ok (.andRMem .word 0#3 (.ind 3#3)) [] := by decide

/-- AND (XHL), A: bytes 83 C9 (`95_test_vectors.md`). -/
theorem test_decode_andMemR : decode [0x83#8, 0xC9#8] = .ok (.andMemR .byte (.ind 3#3) 1#3) [] := by decide

/-- CP A, (XHL): bytes 83 F1 (`95_test_vectors.md`). -/
theorem test_decode_cpRMem : decode [0x83#8, 0xF1#8] = .ok (.cpRMem .byte 1#3 (.ind 3#3)) [] := by decide

/-- CP (XHL), A: bytes 83 F9 (`95_test_vectors.md`). -/
theorem test_decode_cpMemR : decode [0x83#8, 0xF9#8] = .ok (.cpMemR .byte (.ind 3#3) 1#3) [] := by decide

/-- LD (100H), 40H: bytes F1 00 01 00 40 (`95_test_vectors.md`). -/
theorem test_decode_ldMemImmB :
    decode [0xF1#8, 0x00#8, 0x01#8, 0x00#8, 0x40#8] = .ok (.ldMemImmB (.abs16 0x0100#16) 0x40#8) [] := by decide

/-- LDW (XIX+5), 1234H: bytes BC 05 02 34 12 (`95_test_vectors.md`). -/
theorem test_decode_ldMemImmW :
    decode [0xBC#8, 0x05#8, 0x02#8, 0x34#8, 0x12#8] = .ok (.ldMemImmW (.disp8 4#3 0x05#8) 0x1234#16) [] := by decide

/-- LD (XDE), (2000H): bytes B2 14 00 20 (`95_test_vectors.md`). -/
theorem test_decode_ldMemDir16B :
    decode [0xB2#8, 0x14#8, 0x00#8, 0x20#8] = .ok (.ldMemDir16B (.ind 2#3) 0x2000#16) [] := by decide

/-- LDW (XDE), (2000H), by rule R130: bytes B2 16 00 20 (the encoding of that rule). -/
theorem test_decode_ldMemDir16W :
    decode [0xB2#8, 0x16#8, 0x00#8, 0x20#8] = .ok (.ldMemDir16W (.ind 2#3) 0x2000#16) [] := by decide

/-- LDA IX, XIY+33H: bytes BD 33 24 (`95_test_vectors.md`). -/
theorem test_decode_ldaW : decode [0xBD#8, 0x33#8, 0x24#8] = .ok (.ldaW 4#3 (.disp8 5#3 0x33#8)) [] := by decide

/-- LDA XIX, XIY+33H: bytes BD 33 34 (`95_test_vectors.md`). -/
theorem test_decode_ldaL : decode [0xBD#8, 0x33#8, 0x34#8] = .ok (.ldaL 4#3 (.disp8 5#3 0x33#8)) [] := by decide

/-- ANDCF A, (XHL): bytes B3 28 (`95_test_vectors.md`). -/
theorem test_decode_andcfAMem : decode [0xB3#8, 0x28#8] = .ok (.andcfAMem (.ind 3#3)) [] := by decide

/-- LDCF A, (XHL): bytes B3 2B (`95_test_vectors.md`). -/
theorem test_decode_ldcfAMem : decode [0xB3#8, 0x2B#8] = .ok (.ldcfAMem (.ind 3#3)) [] := by decide

/-- LD (XHL), A, by rule R126: bytes B3 41 (the encoding of that rule). -/
theorem test_decode_ldMemRB : decode [0xB3#8, 0x41#8] = .ok (.ldMemRB (.ind 3#3) 1#3) [] := by decide

/-- LD (40H), WA: bytes F0 40 50 (`95_test_vectors.md`). -/
theorem test_decode_ldMemRW : decode [0xF0#8, 0x40#8, 0x50#8] = .ok (.ldMemRW (.abs8 0x40#8) 0#3) [] := by decide

/-- LD (-XSP), XWA: bytes F4 FE 60 (`95_test_vectors.md`). -/
theorem test_decode_ldMemRL : decode [0xF4#8, 0xFE#8, 0x60#8] = .ok (.ldMemRL (.preDec .xsp .four) 0#3) [] := by decide

/-- ANDCF 6, (100H): bytes F1 00 01 86 (`95_test_vectors.md`). -/
theorem test_decode_andcf3Mem :
    decode [0xF1#8, 0x00#8, 0x01#8, 0x86#8] = .ok (.andcf3Mem 6#3 (.abs16 0x0100#16)) [] := by decide

/-- LDCF 6, (100H): bytes F1 00 01 9E (`95_test_vectors.md`). -/
theorem test_decode_ldcf3Mem :
    decode [0xF1#8, 0x00#8, 0x01#8, 0x9E#8] = .ok (.ldcf3Mem 6#3 (.abs16 0x0100#16)) [] := by decide

/-- CHG 5, (100H): bytes F1 00 01 C5 (`95_test_vectors.md`). -/
theorem test_decode_chg3Mem :
    decode [0xF1#8, 0x00#8, 0x01#8, 0xC5#8] = .ok (.chg3Mem 5#3 (.abs16 0x0100#16)) [] := by decide

/-- BIT 7, (40H): bytes F0 40 CF (`95_test_vectors.md`). -/
theorem test_decode_bit3Mem : decode [0xF0#8, 0x40#8, 0xCF#8] = .ok (.bit3Mem 7#3 (.abs8 0x40#8)) [] := by decide

/-- JP C, XIX+2: bytes BC 02 D7 (`95_test_vectors.md`). -/
theorem test_decode_jpMem : decode [0xBC#8, 0x02#8, 0xD7#8] = .ok (.jpMem .c (.disp8 4#3 0x02#8)) [] := by decide

/-- CALL Z, XHL: bytes B3 E6 (`95_test_vectors.md`). -/
theorem test_decode_callMem : decode [0xB3#8, 0xE6#8] = .ok (.callMem .z (.ind 3#3)) [] := by decide

/-- LDAR XIX, $+1345H: bytes F3 13 41 13 34 (`95_test_vectors.md`). -/
theorem test_decode_ldar : decode [0xF3#8, 0x13#8, 0x41#8, 0x13#8, 0x34#8] = .ok (.ldar .long 4#3 0x1341#16) [] := by decide

/-! ## The other addressing modes (vectors T9 to T20) -/

theorem test_mode_ind : decode [0x83#8, 0x21#8] = .ok (.ldRMem .byte 1#3 (.ind 3#3)) [] := by decide

theorem test_mode_disp8 : decode [0x8C#8, 0xFE#8, 0x21#8] = .ok (.ldRMem .byte 1#3 (.disp8 4#3 0xFE#8)) [] := by decide

theorem test_mode_abs24 :
    decode [0xC2#8, 0x00#8, 0x20#8, 0x01#8, 0x21#8] = .ok (.ldRMem .byte 1#3 (.abs24 0x012000#24)) [] := by decide

theorem test_mode_ind32 :
    decode [0xC3#8, 0xE4#8, 0x21#8] = .ok (.ldRMem .byte 1#3 (.ind32 (.bank .cur .xbc))) [] := by decide

theorem test_mode_disp16 :
    decode [0xC3#8, 0xF1#8, 0x00#8, 0x10#8, 0x21#8] = .ok (.ldRMem .byte 1#3 (.disp16 .xix 0x1000#16)) [] := by decide

theorem test_mode_index8 :
    decode [0xC3#8, 0x03#8, 0xF0#8, 0xE0#8, 0x22#8] =
      .ok (.ldRMem .byte 2#3 (.index8 .xix ⟨.bank .cur .xwa, 0#2⟩)) [] := by decide

theorem test_mode_index16 :
    decode [0xD3#8, 0x07#8, 0xF0#8, 0xE4#8, 0x20#8] =
      .ok (.ldRMem .word 0#3 (.index16 .xix ⟨.bank .cur .xbc, 0#2⟩)) [] := by decide

theorem test_mode_postInc :
    decode [0xC5#8, 0xF0#8, 0x21#8] = .ok (.ldRMem .byte 1#3 (.postInc .xix .one)) [] := by decide

/-! ## Refused encodings (vectors Z1 to Z9, J14, S17, S18, K24, B25) -/

theorem test_refuse_nop : decode [0x00#8] = .refuse (.listed "NOP") := by decide

theorem test_refuse_step_code : decode [0xC4#8, 0xE3#8, 0x21#8] = .refuse .undefined := by decide

theorem test_refuse_odd_code : decode [0xD7#8, 0xE1#8, 0x88#8] = .refuse .undefined := by decide

theorem test_refuse_no_register : decode [0xC7#8, 0x40#8, 0x06#8] = .refuse .undefined := by decide

/-- An undefined register code or mode byte before a listed-only second opcode. -/
theorem test_refuse_first_in_order :
    decode [0xC7#8, 0x40#8, 0x04#8] = .refuse .undefined ∧ decode [0xC3#8, 0x02#8, 0x04#8] = .refuse .undefined ∧
    decode [0xC7#8, 0xE0#8, 0x04#8] = .refuse (.listed "PUSH") := by decide

theorem test_refuse_sub_mode : decode [0xC3#8, 0x02#8, 0x21#8] = .refuse .undefined := by decide

theorem test_refuse_mode : decode [0xF6#8, 0x00#8] = .refuse .undefined := by decide

theorem test_refuse_stepping_jump : decode [0xF5#8, 0xFE#8, 0xD8#8] = .refuse .notAdmitted := by decide

theorem test_refuse_control_size : decode [0xD8#8, 0x2E#8, 0x00#8] = .refuse .undefined := by decide

theorem test_refuse_control_code : decode [0xE8#8, 0x2E#8, 0x30#8] = .refuse .undefined := by decide

theorem test_refuse_bit_byte : decode [0xDB#8, 0x33#8, 0x15#8] = .refuse .undefined := by decide

theorem test_refuse_block_register : decode [0x81#8, 0x10#8] = .refuse .undefined := by decide

/-! ## Words of the opcode table (rule R115) -/

theorem test_table_word_di : decodeTableWord 16 0x0607 = some .di := by decide

theorem test_table_word_add : decodeTableWord 16 0xC880 = some (.addRr .byte 0#3 (.short 0#3)) := by decide

theorem test_table_word_ldar : decodeTableWord 24 0xF31320 = some (.ldar .word 0#3 0#16) := by decide

theorem test_first_step_from_reset : after (State.reset.withFetchWord 16 0x0603) (fun t => t.iff == 3#3) := by decide

/-! ## One step of each instruction -/

/-- Vector S13. -/
theorem test_step_halt :
    after
      (start 0x00001000#32 [0x05#8] [])
      fun t =>
        t.halted && t.pc == 0x00001001#32 := by
  decide

/-- Vector S1. -/
theorem test_step_ei :
    after
      (start 0x00001000#32 [0x06#8, 0x03#8] [])
      fun t =>
        t.iff == 3#3 && t.pc == 0x00001002#32 := by
  decide

/-- Vector S3. -/
theorem test_step_di :
    after
      (start 0x00001000#32 [0x06#8, 0x07#8] [])
      fun t =>
        t.iff == 7#3 && t.pc == 0x00001002#32 := by
  decide

/-- Vector T25. -/
theorem test_step_ldDir8B :
    after
      (start 0x00001000#32 [0x08#8, 0xFF#8, 0x5A#8] [])
      fun t =>
        t.mem.read 0xFF == some 0x5A#8 && t.pc == 0x00001003#32 := by
  decide

/-- Vector T24. -/
theorem test_step_ldDir8W :
    after
      (start 0x00001000#32 [0x0A#8, 0x20#8, 0x34#8, 0x12#8] [])
      fun t =>
        t.mem.read 0x20 == some 0x34#8 && t.mem.read 0x21 == some 0x12#8 && t.pc == 0x00001004#32 := by
  decide

/-- Vector S10. -/
theorem test_step_incf :
    after
      (withRfp 3#2 (start 0x00001000#32 [0x0C#8] []))
      fun t =>
        t.rfp == 0#2 && t.pc == 0x00001001#32 := by
  decide

/-- Vector S11. -/
theorem test_step_decf :
    after
      (withRfp 0#2 (start 0x00001000#32 [0x0D#8] []))
      fun t =>
        t.rfp == 3#2 && t.pc == 0x00001001#32 := by
  decide

/-- Vector K17. -/
theorem test_step_ccf :
    after
      (flags true true true true true true (start 0x00001000#32 [0x12#8] []))
      fun t =>
        t.f.s == true && t.f.z == true && t.f.v == true && t.f.n == false && t.f.c == false && t.pc == 0x00001001#32 := by
  decide

/-- Vector X3. -/
theorem test_step_exFF :
    after
      (backFlags false true false true false true (flags true false true false true false (start 0x00001000#32
      [0x16#8] [])))
      fun t =>
        t.f == ⟨false, true, false, true, false, true⟩ && t.fAlt == ⟨true, false, true, false, true, false⟩ && t.pc
        == 0x00001001#32 := by
  decide

/-- Vector S5. -/
theorem test_step_ldf :
    after
      (withRfp 0#2 (start 0x00001000#32 [0x17#8, 0x02#8] []))
      fun t =>
        t.rfp == 2#2 && t.pc == 0x00001002#32 := by
  decide

/-- Vector J9. -/
theorem test_step_jp16 :
    after
      (start 0x00001000#32 [0x1A#8, 0x00#8, 0x20#8] [])
      fun t =>
        t.pc == 0x00002000#32 := by
  decide

/-- Vector J10. -/
theorem test_step_jp24 :
    after
      (start 0x00001000#32 [0x1B#8, 0x56#8, 0x34#8, 0x12#8] [])
      fun t =>
        t.pc == 0x00123456#32 := by
  decide

/-- Vector J15. -/
theorem test_step_call16 :
    after
      (put .long 0xFC#8 0x00000100#32 (start 0x00008000#32 [0x1C#8, 0x00#8, 0x90#8] []))
      fun t =>
        get .long 0xFC#8 t == 0x000000FC#32 && t.mem.read 0xFC == some 0x03#8 && t.mem.read 0xFD == some 0x80#8 &&
        t.mem.read 0xFE == some 0x00#8 && t.mem.read 0xFF == some 0x00#8 && t.pc == 0x00009000#32 := by
  decide

/-- Vector J16. -/
theorem test_step_call24 :
    after
      (put .long 0xFC#8 0x00000100#32 (start 0x00001000#32 [0x1D#8, 0x56#8, 0x34#8, 0x12#8] []))
      fun t =>
        get .long 0xFC#8 t == 0x000000FC#32 && t.mem.read 0xFC == some 0x04#8 && t.mem.read 0xFD == some 0x10#8 &&
        t.mem.read 0xFE == some 0x00#8 && t.mem.read 0xFF == some 0x00#8 && t.pc == 0x00123456#32 := by
  decide

/-- Vector J21. -/
theorem test_step_calr :
    after
      (put .long 0xFC#8 0x00000100#32 (start 0x00001000#32 [0x1E#8, 0xFD#8, 0xFF#8] []))
      fun t =>
        get .long 0xFC#8 t == 0x000000FC#32 && t.mem.read 0xFC == some 0x03#8 && t.mem.read 0xFD == some 0x10#8 &&
        t.mem.read 0xFE == some 0x00#8 && t.mem.read 0xFF == some 0x00#8 && t.pc == 0x00001000#32 := by
  decide

/-- P1, step 2. -/
theorem test_step_ldRImmB :
    after
      (start 0x1002#32 [0x22#8, 0x05#8] [])
      fun t =>
        get .byte 0xE5#8 t == 0x05#8 && t.pc == 0x1004#32 := by
  decide

/-- Vector T6. -/
theorem test_step_ldRImmW :
    after
      (start 0x00001000#32 [0x30#8, 0x34#8, 0x12#8] [])
      fun t =>
        get .word 0xE0#8 t == 0x1234#16 && t.pc == 0x00001003#32 := by
  decide

/-- Vector T7. -/
theorem test_step_ldRImmL :
    after
      (start 0x00001000#32 [0x44#8, 0x78#8, 0x56#8, 0x34#8, 0x12#8] [])
      fun t =>
        get .long 0xF0#8 t == 0x12345678#32 && t.pc == 0x00001005#32 := by
  decide

/-- Vector J2. -/
theorem test_step_jr :
    after
      (flags false true false false false false (start 0x00001000#32 [0x66#8, 0x80#8] []))
      fun t =>
        t.pc == 0x00000F82#32 := by
  decide

/-- Vector J6. -/
theorem test_step_jrl :
    after
      (flags false false false false false false (start 0x00001000#32 [0x7E#8, 0xFD#8, 0xFF#8] []))
      fun t =>
        t.pc == 0x00001000#32 := by
  decide

/-- Vector T8. -/
theorem test_step_ldrImm :
    after
      (put .long 0xE0#8 0x00000000#32 (start 0x00001000#32 [0xD7#8, 0xE2#8, 0x03#8, 0x78#8, 0x56#8] []))
      fun t =>
        get .long 0xE0#8 t == 0x56780000#32 && t.pc == 0x00001005#32 := by
  decide

/-- Vector L9. -/
theorem test_step_cpl :
    after
      (flags true false false false false true (put .word 0xE0#8 0x1234#16 (start 0x00001000#32 [0xD8#8, 0x06#8]
      [])))
      fun t =>
        get .word 0xE0#8 t == 0xEDCB#16 && t.f == ⟨true, false, true, false, true, true⟩ && t.pc == 0x00001002#32 := by
  decide

/-- Vector A77. -/
theorem test_step_divrImm :
    after
      (put .word 0xF0#8 0x0064#16 (start 0x00001000#32 [0xC7#8, 0xF0#8, 0x0A#8, 0x07#8] []))
      fun t =>
        get .word 0xF0#8 t == 0x020E#16 && t.f.v == false && t.pc == 0x00001004#32 := by
  decide

/-- Vector A84. -/
theorem test_step_divsrImm :
    after
      (put .word 0xE0#8 0xFFF9#16 (start 0x00001000#32 [0xC9#8, 0x0B#8, 0x03#8] []))
      fun t =>
        get .word 0xE0#8 t == 0xFFFE#16 && t.f.v == false && t.pc == 0x00001003#32 := by
  decide

/-- Vector K33. -/
theorem test_step_bs1b :
    after
      (put .word 0xE0#8 0x0100#16 (start 0x00001000#32 [0xD8#8, 0x0F#8] []))
      fun t =>
        get .word 0xE0#8 t == 0x0108#16 && t.f == ⟨false, false, false, false, false, false⟩ && t.pc ==
        0x00001002#32 := by
  decide

/-- Vector A50. -/
theorem test_step_daa :
    after
      (flags false false false false false false (put .byte 0xE0#8 0x6C#8 (start 0x00001000#32 [0xC9#8, 0x10#8]
      [])))
      fun t =>
        get .byte 0xE0#8 t == 0x72#8 && t.f == ⟨false, false, true, true, false, false⟩ && t.pc == 0x00001002#32 := by
  decide

/-- Vector A42. -/
theorem test_step_extz :
    after
      (put .long 0xF0#8 0x12345678#32 (start 0x00001000#32 [0xEC#8, 0x12#8] []))
      fun t =>
        get .long 0xF0#8 t == 0x00005678#32 && t.pc == 0x00001002#32 := by
  decide

/-- Vector A43. -/
theorem test_step_exts :
    after
      (put .long 0xEC#8 0xAAAA6789#32 (start 0x00001000#32 [0xDB#8, 0x13#8] []))
      fun t =>
        get .long 0xEC#8 t == 0xAAAAFF89#32 && t.pc == 0x00001002#32 := by
  decide

/-- Vector J27. -/
theorem test_step_djnz :
    after
      (put .word 0xF0#8 0x0005#16 (start 0x00001000#32 [0xD7#8, 0xF0#8, 0x1C#8, 0xFC#8] []))
      fun t =>
        get .word 0xF0#8 t == 0x0004#16 && t.pc == 0x00001000#32 := by
  decide

/-- Vector K12. -/
theorem test_step_andcf4r :
    after
      (flags true true true true true true (put .word 0xEC#8 0x0000#16 (start 0x00001000#32 [0xDB#8, 0x20#8, 0x06#8]
      [])))
      fun t =>
        t.f == ⟨true, true, true, true, true, false⟩ && t.pc == 0x00001003#32 := by
  decide

/-- Vector K2. -/
theorem test_step_ldcf4r :
    after
      (flags false false false false false true (put .word 0xEC#8 0xFFBF#16 (start 0x00001000#32 [0xDB#8, 0x23#8,
      0x06#8] [])))
      fun t =>
        t.f == ⟨false, false, false, false, false, false⟩ && t.pc == 0x00001003#32 := by
  decide

/-- Vector K14. -/
theorem test_step_andcfAr :
    after
      (flags false false false false false true (put .byte 0xE0#8 0x06#8 (put .word 0xEC#8 0x0040#16 (start
      0x00001000#32 [0xDB#8, 0x28#8] []))))
      fun t =>
        t.f == ⟨false, false, false, false, false, true⟩ && t.pc == 0x00001002#32 := by
  decide

/-- Vector K6. -/
theorem test_step_ldcfAr :
    after
      (put .word 0xE0#8 0x801F#16 (start 0x00001000#32 [0xD8#8, 0x2B#8] []))
      fun t =>
        t.f == ⟨false, false, false, false, false, true⟩ && t.pc == 0x00001002#32 := by
  decide

/-- E32. -/
theorem test_step_ldcCrR :
    after
      (put .word 0xE0#8 0x1234#16 (start 0x1000#32 [0xD8#8, 0x2E#8, 0x20#8] []))
      fun t =>
        t.cr.dmac0 == 0x1234#16 && t.cr.dmac1 == 0x0000#16 && t.pc == 0x1003#32 := by
  decide

/-- S15, second instruction. -/
theorem test_step_ldcRCr :
    after
      (withCr 0x5A#8 (start 0x1000#32 [0xCA#8, 0x2F#8, 0x22#8] []))
      fun t =>
        get .byte 0xE5#8 t == 0x5A#8 && t.pc == 0x1003#32 := by
  decide

/-- Vector K26. -/
theorem test_step_chg4r :
    after
      (put .word 0xE0#8 0xFFFF#16 (start 0x00001000#32 [0xD8#8, 0x32#8, 0x0F#8] []))
      fun t =>
        get .word 0xE0#8 t == 0x7FFF#16 && t.f == ⟨false, false, false, false, false, false⟩ && t.pc ==
        0x00001003#32 := by
  decide

/-- Vector K20. -/
theorem test_step_bit4r :
    after
      (flags false false false false false true (put .word 0xEC#8 0xFFDF#16 (start 0x00001000#32 [0xDB#8, 0x33#8,
      0x05#8] [])))
      fun t =>
        t.f.z == true && t.f.h == true && t.f.n == false && t.f.c == true && t.pc == 0x00001003#32 := by
  decide

/-- Vector A70. -/
theorem test_step_divRr :
    after
      (flags false false false true false false (put .word 0xF4#8 0x89AB#16 (put .long 0xF0#8 0x12345678#32 (start
      0x00001000#32 [0xDD#8, 0x54#8] []))))
      fun t =>
        get .long 0xF0#8 t == 0x0FDA21DA#32 && t.f.v == false && t.pc == 0x00001002#32 := by
  decide

/-- Vector A82. -/
theorem test_step_divsRr :
    after
      (put .word 0xF4#8 0x89AB#16 (put .long 0xF0#8 0x12345678#32 (start 0x00001000#32 [0xDD#8, 0x5C#8] [])))
      fun t =>
        get .long 0xF0#8 t == 0x16EED89E#32 && t.f.v == false && t.pc == 0x00001002#32 := by
  decide

/-- Vector A32. -/
theorem test_step_inc3r :
    after
      (put .byte 0xE0#8 0x00#8 (start 0x00001000#32 [0xC9#8, 0x60#8] []))
      fun t =>
        get .byte 0xE0#8 t == 0x08#8 && t.f == ⟨false, false, false, false, false, false⟩ && t.pc == 0x00001002#32 := by
  decide

/-- Vector A36. -/
theorem test_step_dec3r :
    after
      (flags false false false false false true (put .byte 0xE0#8 0x00#8 (start 0x00001000#32 [0xC9#8, 0x69#8] [])))
      fun t =>
        get .byte 0xE0#8 t == 0xFF#8 && t.f == ⟨true, false, true, false, true, true⟩ && t.pc == 0x00001002#32 := by
  decide

/-- Vector A1. -/
theorem test_step_addRr :
    after
      (put .byte 0xE5#8 0x01#8 (put .byte 0xE0#8 0x7F#8 (start 0x00001000#32 [0xCA#8, 0x81#8] [])))
      fun t =>
        get .byte 0xE0#8 t == 0x80#8 && t.f == ⟨true, false, true, true, false, false⟩ && t.pc == 0x00001002#32 := by
  decide

/-- Vector T1. -/
theorem test_step_ldRr :
    after
      (put .long 0xF0#8 0xAAAA0000#32 (put .word 0xE8#8 0x4567#16 (start 0x00001000#32 [0xDA#8, 0x8C#8] [])))
      fun t =>
        get .long 0xF0#8 t == 0xAAAA4567#32 && t.pc == 0x00001002#32 := by
  decide

/-- Vector A15. -/
theorem test_step_adcRr :
    after
      (flags false false false false false true (put .byte 0xE5#8 0xF0#8 (put .byte 0xE0#8 0x0F#8 (start
      0x00001000#32 [0xCA#8, 0x91#8] []))))
      fun t =>
        get .byte 0xE0#8 t == 0x00#8 && t.f == ⟨false, true, true, false, false, true⟩ && t.pc == 0x00001002#32 := by
  decide

/-- Vector T2. -/
theorem test_step_ldrR :
    after
      (put .long 0xF0#8 0x0000BEEF#32 (put .word 0xE0#8 0x1234#16 (start 0x00001000#32 [0xD7#8, 0xF2#8, 0x98#8]
      [])))
      fun t =>
        get .long 0xF0#8 t == 0x1234BEEF#32 && t.pc == 0x00001003#32 := by
  decide

/-- Vector T3. -/
theorem test_step_ldr3 :
    after
      (start 0x00001000#32 [0xE8#8, 0xAD#8] [])
      fun t =>
        get .long 0xE0#8 t == 0x00000005#32 && t.pc == 0x00001002#32 := by
  decide

/-- Vector X1. -/
theorem test_step_exRr :
    after
      (put .byte 0xE5#8 0x34#8 (put .byte 0xE0#8 0x12#8 (start 0x00001000#32 [0xCA#8, 0xB9#8] [])))
      fun t =>
        get .byte 0xE0#8 t == 0x34#8 && get .byte 0xE5#8 t == 0x12#8 && t.pc == 0x00001002#32 := by
  decide

/-- Vector L2. -/
theorem test_step_andRr :
    after
      (flags false false false false false true (put .byte 0xE5#8 0x0F#8 (put .byte 0xE0#8 0xF0#8 (start
      0x00001000#32 [0xCA#8, 0xC1#8] []))))
      fun t =>
        get .byte 0xE0#8 t == 0x00#8 && t.f == ⟨false, true, true, true, false, false⟩ && t.pc == 0x00001002#32 := by
  decide

/-- Vector A5. -/
theorem test_step_addrImm :
    after
      (put .word 0xE0#8 0x1234#16 (start 0x00001000#32 [0xD8#8, 0xC8#8, 0x00#8, 0xF0#8] []))
      fun t =>
        get .word 0xE0#8 t == 0x0234#16 && t.f == ⟨false, false, false, false, false, true⟩ && t.pc == 0x00001004#32 := by
  decide

/-- Vector A13. -/
theorem test_step_adcrImm :
    after
      (flags false false false false false true (put .byte 0xE0#8 0xFF#8 (start 0x00001000#32 [0xC9#8, 0xC9#8,
      0x00#8] [])))
      fun t =>
        get .byte 0xE0#8 t == 0x00#8 && t.f == ⟨false, true, true, false, false, true⟩ && t.pc == 0x00001003#32 := by
  decide

/-- Vector L4. -/
theorem test_step_andrImm :
    after
      (put .byte 0xE0#8 0x80#8 (start 0x00001000#32 [0xC9#8, 0xCC#8, 0xFF#8] []))
      fun t =>
        get .byte 0xE0#8 t == 0x80#8 && t.f == ⟨true, false, true, false, false, false⟩ && t.pc == 0x00001003#32 := by
  decide

/-- Vector A24. -/
theorem test_step_cprImm :
    after
      (put .word 0xE0#8 0x1234#16 (start 0x00001000#32 [0xD8#8, 0xCF#8, 0x35#8, 0x12#8] []))
      fun t =>
        t.f == ⟨true, false, true, false, true, true⟩ && t.pc == 0x00001004#32 := by
  decide

/-- Vector A22. -/
theorem test_step_cpr3 :
    after
      (put .byte 0xE0#8 0x05#8 (start 0x00001000#32 [0xC9#8, 0xDD#8] []))
      fun t =>
        t.f == ⟨false, true, false, false, true, false⟩ && t.pc == 0x00001002#32 := by
  decide

/-- Vector A20. -/
theorem test_step_cpRr :
    after
      (put .byte 0xE5#8 0x01#8 (put .byte 0xE0#8 0x80#8 (start 0x00001000#32 [0xCA#8, 0xF1#8] [])))
      fun t =>
        t.f == ⟨false, false, true, true, true, false⟩ && t.pc == 0x00001002#32 := by
  decide

/-- Vector B4. -/
theorem test_step_ldiDE :
    after
      (put .word 0xE4#8 0x0003#16 (put .long 0xEC#8 0x00003000#32 (put .long 0xE8#8 0x00003100#32 (start
      0x00001000#32 [0x93#8, 0x10#8] [(0x3000, 0x34#8), (0x3001, 0x12#8)]))))
      fun t =>
        get .long 0xE8#8 t == 0x00003102#32 && get .long 0xEC#8 t == 0x00003002#32 && get .word 0xE4#8 t ==
        0x0002#16 && t.mem.read 0x3100 == some 0x34#8 && t.mem.read 0x3101 == some 0x12#8 && t.f == ⟨false, false,
        false, true, false, false⟩ && t.pc == 0x00001002#32 := by
  decide

/-- E36. -/
theorem test_step_ldiIX :
    after
      (put .word 0xE4#8 0x0700#16 (put .long 0xF0#8 0x00123456#32 (put .long 0xF4#8 0x00335577#32 (start 0x1000#32
      [0x85#8, 0x10#8] [(0x335577, 0x9A#8)]))))
      fun t =>
        t.mem.read 0x123456 == some 0x9A#8 && get .long 0xF0#8 t == 0x00123457#32 && get .long 0xF4#8 t ==
        0x00335578#32 && get .word 0xE4#8 t == 0x06FF#16 && t.f.v == true := by
  decide

/-- Vector B8. -/
theorem test_step_ldirDE :
    after
      (flags true true true true true true (put .word 0xE4#8 0x0003#16 (put .long 0xEC#8 0x00003000#32 (put .long
      0xE8#8 0x00003100#32 (start 0x00001000#32 [0x83#8, 0x11#8] [(0x3000, 0x11#8), (0x3001, 0x22#8), (0x3002,
      0x33#8)])))))
      fun t =>
        get .long 0xE8#8 t == 0x00003101#32 && get .long 0xEC#8 t == 0x00003001#32 && get .word 0xE4#8 t ==
        0x0002#16 && t.mem.read 0x3100 == some 0x11#8 && t.f == ⟨true, true, false, true, false, true⟩ && t.pc ==
        0x00001000#32 := by
  decide

/-- E37, first element. -/
theorem test_step_ldirIX :
    after
      (put .word 0xE4#8 0x0003#16 (put .long 0xF0#8 0x00123456#32 (put .long 0xF4#8 0x00335577#32 (start 0x1000#32
      [0x85#8, 0x11#8] [(0x335577, 0x9A#8)]))))
      fun t =>
        t.mem.read 0x123456 == some 0x9A#8 && get .long 0xF0#8 t == 0x00123457#32 && get .word 0xE4#8 t == 0x0002#16
        && t.pc == 0x1000#32 := by
  decide

/-- Vector B6. -/
theorem test_step_lddDE :
    after
      (put .word 0xE4#8 0x0002#16 (put .long 0xEC#8 0x00003003#32 (put .long 0xE8#8 0x00003103#32 (start
      0x00001000#32 [0x83#8, 0x12#8] [(0x3003, 0xBB#8)]))))
      fun t =>
        get .long 0xE8#8 t == 0x00003102#32 && get .long 0xEC#8 t == 0x00003002#32 && get .word 0xE4#8 t ==
        0x0001#16 && t.mem.read 0x3103 == some 0xBB#8 && t.f == ⟨false, false, false, true, false, false⟩ && t.pc ==
        0x00001002#32 := by
  decide

/-- Vector B7. -/
theorem test_step_lddIX :
    after
      (put .word 0xE4#8 0x0001#16 (put .long 0xF4#8 0x00003002#32 (put .long 0xF0#8 0x00003102#32 (start
      0x00001000#32 [0x95#8, 0x12#8] [(0x3002, 0x34#8), (0x3003, 0x12#8)]))))
      fun t =>
        get .long 0xF0#8 t == 0x00003100#32 && get .long 0xF4#8 t == 0x00003000#32 && get .word 0xE4#8 t ==
        0x0000#16 && t.mem.read 0x3102 == some 0x34#8 && t.mem.read 0x3103 == some 0x12#8 && t.f == ⟨false, false,
        false, false, false, false⟩ && t.pc == 0x00001002#32 := by
  decide

/-- B12, first element. -/
theorem test_step_lddrDE :
    after
      (put .word 0xE4#8 0x0002#16 (put .long 0xE8#8 0x3102#32 (put .long 0xEC#8 0x3002#32 (start 0x1000#32 [0x93#8,
      0x13#8] [(0x3002, 0x33#8), (0x3003, 0x44#8)]))))
      fun t =>
        t.mem.read 0x3102 == some 0x33#8 && t.mem.read 0x3103 == some 0x44#8 && get .long 0xE8#8 t == 0x3100#32 &&
        get .long 0xEC#8 t == 0x3000#32 && t.pc == 0x1000#32 := by
  decide

/-- E35, last element. -/
theorem test_step_lddrIX :
    after
      (put .word 0xE4#8 0x0001#16 (put .long 0xF0#8 0x00123454#32 (put .long 0xF4#8 0x00335575#32 (start 0x1000#32
      [0x85#8, 0x13#8] [(0x335575, 0x9A#8)]))))
      fun t =>
        t.mem.read 0x123454 == some 0x9A#8 && get .long 0xF0#8 t == 0x00123453#32 && get .word 0xE4#8 t == 0x0000#16
        && t.f.v == false && t.pc == 0x1002#32 := by
  decide

/-- Vector B14. -/
theorem test_step_cpi :
    after
      (flags false false false false false true (put .word 0xE4#8 0x0001#16 (put .long 0xEC#8 0x00003000#32 (put
      .byte 0xE0#8 0x10#8 (start 0x00001000#32 [0x83#8, 0x14#8] [(0x3000, 0x11#8), (0x3001, 0x22#8), (0x3002,
      0x33#8), (0x3003, 0x44#8), (0x3004, 0x55#8)])))))
      fun t =>
        get .long 0xEC#8 t == 0x00003001#32 && get .word 0xE4#8 t == 0x0000#16 && t.f == ⟨true, false, true, false,
        true, true⟩ && t.pc == 0x00001002#32 := by
  decide

/-- B23, first element. -/
theorem test_step_cpir :
    after
      (put .word 0xE0#8 0x4433#16 (put .word 0xE4#8 0x0002#16 (put .long 0xEC#8 0x3000#32 (start 0x1000#32 [0x93#8,
      0x15#8] [(0x3000, 0x11#8), (0x3001, 0x22#8)]))))
      fun t =>
        get .long 0xEC#8 t == 0x3002#32 && get .word 0xE4#8 t == 0x0001#16 && t.f.z == false && t.pc == 0x1000#32 := by
  decide

/-- Vector B17. -/
theorem test_step_cpd :
    after
      (put .word 0xE4#8 0x0002#16 (put .long 0xEC#8 0x00003002#32 (put .byte 0xE0#8 0x33#8 (start 0x00001000#32
      [0x83#8, 0x16#8] [(0x3000, 0x11#8), (0x3001, 0x22#8), (0x3002, 0x33#8), (0x3003, 0x44#8), (0x3004,
      0x55#8)]))))
      fun t =>
        get .long 0xEC#8 t == 0x00003001#32 && get .word 0xE4#8 t == 0x0001#16 && t.f == ⟨false, true, false, true,
        true, false⟩ && t.pc == 0x00001002#32 := by
  decide

/-- Vector B21. -/
theorem test_step_cpdr :
    after
      (put .word 0xE4#8 0x0005#16 (put .long 0xEC#8 0x00003004#32 (put .byte 0xE0#8 0x55#8 (start 0x00001000#32
      [0x83#8, 0x17#8] [(0x3000, 0x11#8), (0x3001, 0x22#8), (0x3002, 0x33#8), (0x3003, 0x44#8), (0x3004,
      0x55#8)]))))
      fun t =>
        get .long 0xEC#8 t == 0x00003003#32 && get .word 0xE4#8 t == 0x0004#16 && t.f == ⟨false, true, false, true,
        true, false⟩ && t.pc == 0x00001002#32 := by
  decide

/-- Vector T28. -/
theorem test_step_ldDir16Mem :
    after
      (put .long 0xEC#8 0x00003000#32 (start 0x00001000#32 [0x93#8, 0x19#8, 0x00#8, 0x20#8] [(0x3000, 0xEF#8),
      (0x3001, 0xBE#8)]))
      fun t =>
        t.mem.read 0x2000 == some 0xEF#8 && t.mem.read 0x2001 == some 0xBE#8 && t.pc == 0x00001004#32 := by
  decide

/-- Vector T19. -/
theorem test_step_ldRMem :
    after
      (put .long 0xF0#8 0x00002004#32 (start 0x00001000#32 [0xD4#8, 0xF1#8, 0x20#8] [(0x2000, 0x10#8), (0x2001,
      0x20#8), (0x2002, 0x30#8), (0x2003, 0x40#8), (0x2004, 0x50#8), (0x2005, 0x60#8), (0x2006, 0x70#8), (0x2007,
      0x80#8)]))
      fun t =>
        get .long 0xF0#8 t == 0x00002002#32 && get .word 0xE0#8 t == 0x4030#16 && t.pc == 0x00001003#32 := by
  decide

/-- Vector X4. -/
theorem test_step_exMemR :
    after
      (put .byte 0xE0#8 0x12#8 (put .long 0xEC#8 0x00002001#32 (start 0x00001000#32 [0x83#8, 0x31#8] [(0x2000,
      0x10#8), (0x2001, 0x20#8), (0x2002, 0x30#8), (0x2003, 0x40#8), (0x2004, 0x50#8), (0x2005, 0x60#8), (0x2006,
      0x70#8), (0x2007, 0x80#8)])))
      fun t =>
        get .byte 0xE0#8 t == 0x20#8 && t.mem.read 0x2001 == some 0x12#8 && t.pc == 0x00001002#32 := by
  decide

/-- Vector A11. -/
theorem test_step_addMemImm :
    after
      (start 0x00001000#32 [0xD1#8, 0x00#8, 0x01#8, 0x38#8, 0x01#8, 0x00#8] [(0x100, 0xFF#8), (0x101, 0x00#8)])
      fun t =>
        t.mem.read 0x100 == some 0x00#8 && t.mem.read 0x101 == some 0x01#8 && t.f == ⟨false, false, true, false,
        false, false⟩ && t.pc == 0x00001006#32 := by
  decide

/-- Vector A18. -/
theorem test_step_adcMemImm :
    after
      (flags false false false false false true (start 0x00001000#32 [0xC0#8, 0x10#8, 0x39#8, 0x05#8] [(0x10,
      0xFA#8)]))
      fun t =>
        t.mem.read 0x10 == some 0x00#8 && t.f == ⟨false, true, true, false, false, true⟩ && t.pc == 0x00001004#32 := by
  decide

/-- Vector L8. -/
theorem test_step_andMemImm :
    after
      (start 0x00001000#32 [0xD0#8, 0x10#8, 0x3C#8, 0xFF#8, 0x00#8] [(0x10, 0x34#8), (0x11, 0x12#8)])
      fun t =>
        t.mem.read 0x10 == some 0x34#8 && t.mem.read 0x11 == some 0x00#8 && t.f == ⟨false, false, true, false,
        false, false⟩ && t.pc == 0x00001005#32 := by
  decide

/-- Vector A28. -/
theorem test_step_cpMemImm :
    after
      (start 0x00001000#32 [0xC1#8, 0x00#8, 0x01#8, 0x3F#8, 0x40#8] [(0x100, 0x40#8)])
      fun t =>
        t.f == ⟨false, true, false, false, true, false⟩ && t.pc == 0x00001005#32 := by
  decide

/-- Vector A78. -/
theorem test_step_divRMem :
    after
      (put .long 0xEC#8 0x00002100#32 (put .long 0xE0#8 0x00010000#32 (start 0x00001000#32 [0x93#8, 0x50#8]
      [(0x2100, 0x00#8), (0x2101, 0x80#8)])))
      fun t =>
        get .long 0xE0#8 t == 0x00000002#32 && t.f.v == false && t.pc == 0x00001002#32 := by
  decide

/-- Vector A89. -/
theorem test_step_divsRMem :
    after
      (put .long 0xEC#8 0x00002100#32 (put .long 0xE0#8 0xFFFFFF9C#32 (start 0x00001000#32 [0x93#8, 0x58#8]
      [(0x2100, 0x0A#8), (0x2101, 0x00#8)])))
      fun t =>
        get .long 0xE0#8 t == 0x0000FFF6#32 && t.f.v == false && t.pc == 0x00001002#32 := by
  decide

/-- Vector A34. -/
theorem test_step_inc3Mem :
    after
      (start 0x00001000#32 [0xD1#8, 0x00#8, 0x01#8, 0x61#8] [(0x100, 0xFF#8), (0x101, 0x7F#8)])
      fun t =>
        t.mem.read 0x100 == some 0x00#8 && t.mem.read 0x101 == some 0x80#8 && t.f == ⟨true, false, true, true,
        false, false⟩ && t.pc == 0x00001004#32 := by
  decide

/-- Vector A40. -/
theorem test_step_dec3Mem :
    after
      (put .long 0xEC#8 0x00002100#32 (start 0x00001000#32 [0x93#8, 0x69#8] [(0x2100, 0x00#8), (0x2101, 0x00#8)]))
      fun t =>
        t.mem.read 0x2100 == some 0xFF#8 && t.mem.read 0x2101 == some 0xFF#8 && t.f == ⟨true, false, true, false,
        true, false⟩ && t.pc == 0x00001002#32 := by
  decide

/-- Vector A9. -/
theorem test_step_addRMem :
    after
      (put .long 0xEC#8 0x00002100#32 (put .byte 0xE0#8 0x0F#8 (start 0x00001000#32 [0x83#8, 0x81#8] [(0x2100,
      0x01#8)])))
      fun t =>
        get .byte 0xE0#8 t == 0x10#8 && t.f == ⟨false, false, true, false, false, false⟩ && t.pc == 0x00001002#32 := by
  decide

/-- Vector A10. -/
theorem test_step_addMemR :
    after
      (put .long 0xEC#8 0x00002100#32 (put .byte 0xE0#8 0x01#8 (start 0x00001000#32 [0x83#8, 0x89#8] [(0x2100,
      0xFF#8)])))
      fun t =>
        t.mem.read 0x2100 == some 0x00#8 && t.f == ⟨false, true, true, false, false, true⟩ && t.pc == 0x00001002#32 := by
  decide

/-- Vector A16. -/
theorem test_step_adcRMem :
    after
      (flags false false false false false true (put .long 0xF0#8 0x00002000#32 (put .word 0xE0#8 0xFFFF#16 (start
      0x00001000#32 [0x9C#8, 0x02#8, 0x90#8] [(0x2000, 0x10#8), (0x2001, 0x20#8), (0x2002, 0x30#8), (0x2003,
      0x40#8), (0x2004, 0x50#8), (0x2005, 0x60#8), (0x2006, 0x70#8), (0x2007, 0x80#8)]))))
      fun t =>
        get .word 0xE0#8 t == 0x4030#16 && t.f == ⟨false, false, true, false, false, true⟩ && t.pc == 0x00001003#32 := by
  decide

/-- Vector A17. -/
theorem test_step_adcMemR :
    after
      (flags false false false false false true (put .long 0xE8#8 0x00002000#32 (put .byte 0xE0#8 0x01#8 (start
      0x00001000#32 [0x82#8, 0x99#8] [(0x2000, 0x10#8), (0x2001, 0x20#8), (0x2002, 0x30#8), (0x2003, 0x40#8),
      (0x2004, 0x50#8), (0x2005, 0x60#8), (0x2006, 0x70#8), (0x2007, 0x80#8)]))))
      fun t =>
        t.mem.read 0x2000 == some 0x12#8 && t.f == ⟨false, false, false, false, false, false⟩ && t.pc ==
        0x00001002#32 := by
  decide

/-- Vector L5. -/
theorem test_step_andRMem :
    after
      (put .long 0xEC#8 0x00002000#32 (put .word 0xE0#8 0xFFFF#16 (start 0x00001000#32 [0x93#8, 0xC0#8] [(0x2000,
      0x10#8), (0x2001, 0x20#8), (0x2002, 0x30#8), (0x2003, 0x40#8), (0x2004, 0x50#8), (0x2005, 0x60#8), (0x2006,
      0x70#8), (0x2007, 0x80#8)])))
      fun t =>
        get .word 0xE0#8 t == 0x2010#16 && t.f == ⟨false, false, true, true, false, false⟩ && t.pc == 0x00001002#32 := by
  decide

/-- Vector L7. -/
theorem test_step_andMemR :
    after
      (put .long 0xEC#8 0x00002100#32 (put .byte 0xE0#8 0x0F#8 (start 0x00001000#32 [0x83#8, 0xC9#8] [(0x2100,
      0x3C#8)])))
      fun t =>
        t.mem.read 0x2100 == some 0x0C#8 && t.f == ⟨false, false, true, true, false, false⟩ && t.pc == 0x00001002#32 := by
  decide

/-- Vector A26. -/
theorem test_step_cpRMem :
    after
      (put .long 0xEC#8 0x00002003#32 (put .byte 0xE0#8 0x40#8 (start 0x00001000#32 [0x83#8, 0xF1#8] [(0x2000,
      0x10#8), (0x2001, 0x20#8), (0x2002, 0x30#8), (0x2003, 0x40#8), (0x2004, 0x50#8), (0x2005, 0x60#8), (0x2006,
      0x70#8), (0x2007, 0x80#8)])))
      fun t =>
        t.f == ⟨false, true, false, false, true, false⟩ && t.pc == 0x00001002#32 := by
  decide

/-- Vector A27. -/
theorem test_step_cpMemR :
    after
      (put .long 0xEC#8 0x00002003#32 (put .byte 0xE0#8 0x41#8 (start 0x00001000#32 [0x83#8, 0xF9#8] [(0x2000,
      0x10#8), (0x2001, 0x20#8), (0x2002, 0x30#8), (0x2003, 0x40#8), (0x2004, 0x50#8), (0x2005, 0x60#8), (0x2006,
      0x70#8), (0x2007, 0x80#8)])))
      fun t =>
        t.f == ⟨true, false, true, false, true, true⟩ && t.pc == 0x00001002#32 := by
  decide

/-- Vector T27. -/
theorem test_step_ldMemImmB :
    after
      (start 0x00001000#32 [0xF1#8, 0x00#8, 0x01#8, 0x00#8, 0x40#8] [])
      fun t =>
        t.mem.read 0x100 == some 0x40#8 && t.pc == 0x00001005#32 := by
  decide

/-- Vector T26. -/
theorem test_step_ldMemImmW :
    after
      (put .long 0xF0#8 0x00003000#32 (start 0x00001000#32 [0xBC#8, 0x05#8, 0x02#8, 0x34#8, 0x12#8] []))
      fun t =>
        t.mem.read 0x3005 == some 0x34#8 && t.mem.read 0x3006 == some 0x12#8 && t.pc == 0x00001005#32 := by
  decide

/-- Vector T29. -/
theorem test_step_ldMemDir16B :
    after
      (put .long 0xE8#8 0x00003000#32 (start 0x00001000#32 [0xB2#8, 0x14#8, 0x00#8, 0x20#8] [(0x2000, 0x77#8)]))
      fun t =>
        t.mem.read 0x3000 == some 0x77#8 && t.pc == 0x00001004#32 := by
  decide

/-- Rule R130. -/
theorem test_step_ldMemDir16W :
    after
      (put .long 0xE8#8 0x3000#32 (start 0x1000#32 [0xB2#8, 0x16#8, 0x00#8, 0x20#8] [(0x2000, 0x77#8), (0x2001,
      0x88#8)]))
      fun t =>
        t.mem.read 0x3000 == some 0x77#8 && t.mem.read 0x3001 == some 0x88#8 && t.pc == 0x1004#32 := by
  decide

/-- Vector T31. -/
theorem test_step_ldaW :
    after
      (put .long 0xF0#8 0xFFFF0000#32 (put .long 0xF4#8 0x00123456#32 (start 0x00001000#32 [0xBD#8, 0x33#8, 0x24#8]
      [])))
      fun t =>
        get .long 0xF0#8 t == 0xFFFF3489#32 && t.pc == 0x00001003#32 := by
  decide

/-- Vector T32. -/
theorem test_step_ldaL :
    after
      (put .word 0xE4#8 0xFFFE#16 (put .long 0xF0#8 0x00001000#32 (start 0x00001000#32 [0xF3#8, 0x07#8, 0xF0#8,
      0xE4#8, 0x30#8] [])))
      fun t =>
        get .long 0xE0#8 t == 0x00000FFE#32 && t.pc == 0x00001005#32 := by
  decide

/-- Vector K16. -/
theorem test_step_andcfAMem :
    after
      (flags false false false false false true (put .byte 0xE0#8 0x04#8 (put .long 0xEC#8 0x00002000#32 (start
      0x00001000#32 [0xB3#8, 0x28#8] [(0x2000, 0x10#8)]))))
      fun t =>
        t.f == ⟨false, false, false, false, false, true⟩ && t.pc == 0x00001002#32 := by
  decide

/-- Vector K8. -/
theorem test_step_ldcfAMem :
    after
      (put .byte 0xE0#8 0x07#8 (put .long 0xEC#8 0x00002000#32 (start 0x00001000#32 [0xB3#8, 0x2B#8] [(0x2000,
      0x80#8)])))
      fun t =>
        t.f == ⟨false, false, false, false, false, true⟩ && t.pc == 0x00001002#32 := by
  decide

/-- Rule R126. -/
theorem test_step_ldMemRB :
    after
      (put .byte 0xE0#8 0x12#8 (put .long 0xEC#8 0x2001#32 (start 0x1000#32 [0xB3#8, 0x41#8] [])))
      fun t =>
        t.mem.read 0x2001 == some 0x12#8 && t.mem.read 0x2002 == none && t.pc == 0x1002#32 := by
  decide

/-- Vector T23. -/
theorem test_step_ldMemRW :
    after
      (put .word 0xE0#8 0x0234#16 (start 0x00001000#32 [0xF0#8, 0x40#8, 0x50#8] []))
      fun t =>
        t.mem.read 0x40 == some 0x34#8 && t.mem.read 0x41 == some 0x02#8 && t.pc == 0x00001003#32 := by
  decide

/-- Vector T22. -/
theorem test_step_ldMemRL :
    after
      (put .long 0xE0#8 0x11223344#32 (put .long 0xFC#8 0x00000100#32 (start 0x00001000#32 [0xF4#8, 0xFE#8, 0x60#8]
      [])))
      fun t =>
        get .long 0xFC#8 t == 0x000000FC#32 && t.mem.read 0xFC == some 0x44#8 && t.mem.read 0xFD == some 0x33#8 &&
        t.mem.read 0xFE == some 0x22#8 && t.mem.read 0xFF == some 0x11#8 && t.pc == 0x00001003#32 := by
  decide

/-- Vector K15. -/
theorem test_step_andcf3Mem :
    after
      (flags false false false false false true (start 0x00001000#32 [0xF1#8, 0x00#8, 0x01#8, 0x87#8] [(0x100,
      0x7F#8)]))
      fun t =>
        t.f == ⟨false, false, false, false, false, false⟩ && t.pc == 0x00001004#32 := by
  decide

/-- Vector K7. -/
theorem test_step_ldcf3Mem :
    after
      (put .long 0xEC#8 0x00002000#32 (start 0x00001000#32 [0xB3#8, 0x9B#8] [(0x2000, 0x08#8)]))
      fun t =>
        t.f == ⟨false, false, false, false, false, true⟩ && t.pc == 0x00001002#32 := by
  decide

/-- Vector K27. -/
theorem test_step_chg3Mem :
    after
      (put .long 0xEC#8 0x00002100#32 (start 0x00001000#32 [0xB3#8, 0xC0#8] [(0x2100, 0xFF#8)]))
      fun t =>
        t.mem.read 0x2100 == some 0xFE#8 && t.f == ⟨false, false, false, false, false, false⟩ && t.pc ==
        0x00001002#32 := by
  decide

/-- Vector K22. -/
theorem test_step_bit3Mem :
    after
      (start 0x00001000#32 [0xF0#8, 0x40#8, 0xCF#8] [(0x40, 0x80#8)])
      fun t =>
        t.f.z == false && t.f.h == true && t.f.n == false && t.f.c == false && t.pc == 0x00001003#32 := by
  decide

/-- Vector J12. -/
theorem test_step_jpMem :
    after
      (flags false false false false false false (put .long 0xEC#8 0x00003000#32 (start 0x00001000#32 [0xB3#8,
      0xD6#8] [])))
      fun t =>
        t.pc == 0x00001002#32 := by
  decide

/-- Vector J19. -/
theorem test_step_callMem :
    after
      (flags false false false false false false (put .long 0xFC#8 0x00000100#32 (start 0x00001000#32 [0xBF#8,
      0x00#8, 0xEF#8] [])))
      fun t =>
        get .long 0xFC#8 t == 0x000000FC#32 && t.mem.read 0xFC == some 0x03#8 && t.mem.read 0xFD == some 0x10#8 &&
        t.mem.read 0xFE == some 0x00#8 && t.mem.read 0xFF == some 0x00#8 && t.pc == 0x00000100#32 := by
  decide

/-- Vector T34. -/
theorem test_step_ldar :
    after
      (put .long 0xE0#8 0xAAAA0000#32 (start 0x00001000#32 [0xF3#8, 0x13#8, 0xEC#8, 0xFF#8, 0x20#8] []))
      fun t =>
        get .long 0xE0#8 t == 0xAAAA0FF0#32 && t.pc == 0x00001005#32 := by
  decide

/-! ## Steps that stop (vectors Z10, Z11) and undefined values (vectors A58, A73) -/

theorem test_store_into_text :
    step (start 0x1000#32 [0xF1#8, 0x00#8, 0x10#8, 0x41#8] []) = .refused .storeIntoText := by rfl

theorem test_no_memory :
    step { start 0x1000#32 [0xC1#8, 0x00#8, 0x50#8, 0x21#8] [] with
      launch := ⟨32, [⟨0x1000, 4⟩], [⟨0x1000, 4⟩]⟩ } = .fault .noMemory := by rfl

theorem test_no_value : step (start 0x1000#32 [0xC1#8, 0x00#8, 0x50#8, 0x21#8] []) = .fault .noValue := by rfl

theorem test_divide_by_zero_goes_on :
    after (put .word 0xE0#8 0x0064#16 (start 0x1000#32 [0xC9#8, 0x0A#8, 0x00#8] []))
      fun t => t.f.v == true && t.pc == 0x1003#32 && t.draws == 1 := by
  decide

/-! ## Reset -/

theorem test_reset_not_halted : State.reset.halted = false := by decide

theorem test_reset_memory_form : Memory.wf State.reset.mem := by decide

theorem test_reset_text_empty : step State.reset = .fault .outsideText := by rfl

/-! ## Witnesses: states and operands that meet the hypotheses of a statement -/

/-- A state with four bytes at 2000H and 0FFFFFFFEH, pointers to them, a counter and a stack. -/
def scene : State :=
  put .long 0xEC#8 0x2000#32 <| put .long 0xE8#8 0x2100#32 <| put .long 0xF0#8 0x2102#32 <|
    put .long 0xF4#8 0x2000#32 <| put .long 0xFC#8 0x0100#32 <| put .word 0xE4#8 0x0001#16 <|
      start 0x1000#32 [0xE7#8, 0xE0#8, 0xC8#8, 0x78#8, 0x56#8, 0x34#8, 0x12#8]
        [(0x0000, 0x7A#8), (0x0001, 0x7B#8), (0x2000, 0x10#8), (0x2001, 0x20#8), (0x2002, 0x30#8), (0x2003, 0x40#8),
          (0xFFFFFFFE, 0x5A#8), (0xFFFFFFFF, 0x5B#8)]

theorem witness_DecodeEncode :
    WellFormed (.divRr .byte 7#3 (.short 0#3)) ∧ WellFormed (.ldRMem .word 0#3 (.index16 .xsp ⟨.xsp, 2#2⟩)) := by decide

theorem witness_DecodedBytesAreTheEncoding :
    decode [0xF3#8, 0x13#8, 0xEC#8, 0xFF#8, 0x20#8, 0x05#8] = .ok (.ldar .word 0#3 0xFFEC#16) [0x05#8] := by decide

theorem witness_InstructionLength : 7 ≤ [0#8, 0#8, 0#8, 0#8, 0#8, 0#8, 0#8].length := by decide

/-- The longest instruction, and one of one byte. -/
theorem witness_StepRunsDecoded :
    (interruptAccepted scene = false ∧ scene.halted = false ∧
      TextAt scene.pc [0xE7#8, 0xE0#8, 0xC8#8, 0x78#8, 0x56#8, 0x34#8, 0x12#8] scene ∧
      decode [0xE7#8, 0xE0#8, 0xC8#8, 0x78#8, 0x56#8, 0x34#8, 0x12#8] =
        .ok (.addrImm (.ext ⟨.bank .cur .xwa, 0#2⟩) (.l 0x12345678#32)) []) ∧
    TextAt 0xFFFFFFFF#32 [0x05#8] (start 0xFFFFFFFF#32 [0x05#8] []) ∧ decode [0x05#8] = .ok .halt [] := by
  decide

/-- The reset machine with `pc` at the first address above ADDR_BITS. -/
def outOfReach : State := { State.reset with pc := 0x01000000#32 }

/-- The last clause at an address below 2^ADDR_BITS and at 2^ADDR_BITS itself. -/
theorem witness_StepStopsOnBadText :
    (TextAt 0x1000#32 [0x00#8] (start 0x1000#32 [0x00#8] []) ∧ decode [0x00#8] = .refuse (.listed "NOP")) ∧
    interruptAccepted State.reset = false ∧ State.reset.halted = false ∧
    State.reset.launch.inText State.reset.pc.toNat = false ∧
    2 ^ outOfReach.launch.addrBits ≤ outOfReach.pc.toNat ∧ interruptAccepted outOfReach = false ∧
    outOfReach.halted = false ∧ outOfReach.launch.inText outOfReach.pc.toNat = false := by
  decide

/-- A machine all of whose addresses are plain memory, halted, with a request at the level of the mask and one below. -/
def interrupted : State :=
  { State.reset with launch := ⟨32, [⟨0, 2 ^ 32⟩], []⟩, halted := true, iff := 6#3, pending := [⟨0, 6#3⟩, ⟨1, 5#3⟩] }

theorem interrupted_writable (a : Long) : ByteWritable a interrupted :=
  ⟨a.isLt, by simpa [interrupted, Launch.has, Region.has] using a.isLt, rfl⟩

/-- A request at the level of the mask is accepted, and one just below it is not. -/
theorem witness_InterruptsAndHalt :
    (∃ r ∈ interrupted.pending, interrupted.iff.toNat ≤ r.level.toNat) ∧ (∃ t, step interrupted = .next t) ∧
    (∀ r ∈ ([⟨0, 6#3⟩] : List Request), r.level.toNat < State.reset.iff.toNat) ∧
    step { State.reset with pending := [⟨0, 6#3⟩], halted := true } =
      .next { State.reset with pending := [⟨0, 6#3⟩], halted := true } := by
  refine ⟨by decide, ?_, by decide, rfl⟩
  unfold step
  split
  · exact takeInterrupt_of_writable fun c _ => interrupted_writable c.1
  · exact ⟨_, rfl⟩

theorem test_request_at_the_mask_is_accepted :
    interruptAccepted interrupted = true ∧ interruptAccepted { interrupted with iff := 7#3 } = false ∧
    interruptAccepted { interrupted with iff := 0#3, pending := [⟨0, 0#3⟩] } = true := by
  decide

theorem witness_InterruptEntry :
    ∀ c ∈ (Config.interruptEntry interrupted 0 6#3).stores, ByteWritable c.1 interrupted :=
  fun c _ => interrupted_writable c.1

theorem witness_InvariantKept : scene.Inv ∧ ∃ t, step scene = .next t := ⟨⟨by decide, by decide⟩, _, rfl⟩

theorem witness_TextKept :
    (∃ t, step scene = .next t) ∧ interruptAccepted scene = false ∧ scene.launch.inText 0x1000 = true ∧
      scene.launch.inText 0x1006 = true :=
  ⟨⟨_, rfl⟩, by decide, by decide, by decide⟩

theorem witness_NamedWritersOfControl :
    (∃ t, exec .ccf scene = .next t) ∧ (∀ n, Instr.ccf ≠ .ei n) ∧ Instr.ccf ≠ .di ∧ (∀ n, Instr.ccf ≠ .ldf n) ∧
      Instr.ccf ≠ .incf ∧ Instr.ccf ≠ .decf ∧ (∀ cr r, Instr.ccf ≠ .ldcCrR cr r) ∧ Instr.ccf ≠ .exFF ∧
      Instr.ccf ≠ .halt :=
  ⟨⟨_, rfl⟩, nofun, nofun, nofun, nofun, nofun, nofun, nofun, nofun⟩

/-- Across the top of the address space. -/
theorem witness_StoreThenLoad : Writable .long 0xFFFFFFFE#32 scene := by decide

/-- The first byte of the text is the last byte stored, and the last byte of the text is the first byte stored. -/
theorem witness_StoreIntoTextRefused :
    (Present .long 0x0FFD#32 scene ∧ scene.launch.inText (byteAddr 0x0FFD#32 3).toNat = true) ∧
    Present .word 0x1006#32 scene ∧ scene.launch.inText (byteAddr 0x1006#32 0).toNat = true := by
  decide

/-- A machine with addresses up to 0FFFFFFH and the text at 1000H, of which 0FFFFFEH is the last that exists. -/
def edge : State :=
  let s := start 0x1000#32 [0x05#8] [(0xFFFFFD, 0x11#8), (0xFFFFFE, 0x22#8)]
  { s with launch := { s.launch with addrBits := 24, present := [⟨0, 0xFFFFFF⟩] } }

/-- The first byte, a later byte and the last one that cannot be reached or read or written. -/
theorem witness_AccessOutsideMemory :
    2 ^ edge.launch.addrBits ≤ (byteAddr 0x01000000#32 0).toNat ∧
    ((∀ j, j < 2 → ByteReadable (byteAddr 0xFFFFFD#32 j) edge ∧ ByteWritable (byteAddr 0xFFFFFD#32 j) edge) ∧
      (byteAddr 0xFFFFFD#32 2).toNat < 2 ^ edge.launch.addrBits ∧
      edge.launch.has (byteAddr 0xFFFFFD#32 2).toNat = false) ∧
    ((∀ j, j < 1 → ByteReadable (byteAddr 0x1000#32 j) edge) ∧ edge.mem.read (byteAddr 0x1000#32 1).toNat = none) ∧
    (∀ j, j < 3 → ByteWritable (byteAddr 0x0FFD#32 j) edge) ∧
    edge.launch.inText (byteAddr 0x0FFD#32 3).toNat = true := by
  decide

theorem witness_EffectiveAddresses : (Mode.index8 .xix ⟨.xiy, 3#2⟩).steps = false := by decide

theorem witness_LdIntoRegister :
    WellFormed (.ldrR .word (.ext ⟨.xix, 2#2⟩) 0#3) ∧ WellFormed (.ldr3 .long (.short 0#3) 0#3) ∧
    WellFormed (.ldrImm (.ext ⟨.bank (.num 3#2) .xhl, 3#2⟩) (.b 0xFF#8)) := by
  decide

theorem witness_LdFromMemory :
    Readable .word (eaAddr (.postInc .xiy .two) scene) 0x2010#16 scene ∧
    Readable .long (eaAddr (.abs8 0x00#8) { scene with mem := scene.mem.write 2 0x7C#8 |>.write 3 0x7D#8 })
      0x7D7C7B7A#32 { scene with mem := scene.mem.write 2 0x7C#8 |>.write 3 0x7D#8 } := by
  decide

theorem witness_LdIntoMemory :
    Writable .byte (eaAddr (.ind 3#3) scene) scene ∧ Writable .word (eaAddr (.preDec .xsp .two) scene) scene ∧
    Writable .long (eaAddr (.preDec .xsp .four) scene) scene ∧
    Writable .byte (BitVec.ofNat 32 (0xFF#8).toNat) scene ∧ Writable .word (BitVec.ofNat 32 (0xFF#8).toNat) scene := by
  decide

theorem witness_LdMemoryToMemory :
    (Readable .word (eaAddr (.ind 3#3) scene) 0x2010#16 scene ∧
      Writable .word (BitVec.ofNat 32 (0xFFFF#16).toNat) scene) ∧
    (Readable .byte (BitVec.ofNat 32 (0x2001#16).toNat) 0x20#8 scene ∧ Writable .byte (eaAddr (.ind 2#3) scene) scene) ∧
    Readable .word (BitVec.ofNat 32 (0x2001#16).toNat) 0x3020#16 scene ∧
    Writable .word (eaAddr (.ind 2#3) scene) scene := by
  decide

theorem witness_LoadAddress : (Mode.disp8 5#3 0x33#8).steps = false := by decide

theorem witness_ExchangeData :
    WellFormed (.exRr .byte 1#3 (.short 1#3)) ∧ Readable .word (eaAddr (.ind 3#3) scene) 0x2010#16 scene ∧
    Writable .word (eaAddr (.ind 3#3) scene) scene := by
  decide

/-- BC is 1, so the count ends here. -/
theorem witness_BlockMoveOne :
    (Readable .word (readRow (.bank .cur .xhl) scene) 0x2010#16 scene ∧
      Writable .word (readRow (.bank .cur .xde) scene) scene) ∧
    Readable .word (readRow .xiy scene) 0x2010#16 scene ∧ Writable .word (readRow .xix scene) scene := by
  decide

/-- With BC 1 the instruction is left, and with BC 0 it is repeated. -/
theorem witness_BlockMoveRepeat :
    (Readable .byte (readRow (.bank .cur .xhl) scene) 0x10#8 scene ∧
      Writable .byte (readRow (.bank .cur .xde) scene) scene) ∧
    (Readable .byte (readRow .xiy scene) 0x10#8 scene ∧ Writable .byte (readRow .xix scene) scene) ∧
    Readable .byte (readRow .xiy (put .word 0xE4#8 0x0000#16 scene)) 0x10#8 (put .word 0xE4#8 0x0000#16 scene) := by
  decide

theorem witness_BlockSearch :
    Readable .word (readR .long 3#3 scene) 0x2010#16 scene ∧
    Readable .byte (readR .long 1#3 (put .long 0xE4#8 0x2003#32 scene)) 0x40#8 (put .long 0xE4#8 0x2003#32 scene) := by
  decide

theorem witness_memory_operand :
    Readable .byte (eaAddr (.ind 3#3) scene) 0x10#8 scene ∧ Readable .word (eaAddr (.ind 3#3) scene) 0x2010#16 scene ∧
    Readable .long (eaAddr (.ind 3#3) scene) 0x40302010#32 scene ∧ Writable .byte (eaAddr (.ind 3#3) scene) scene ∧
    Writable .word (eaAddr (.ind 3#3) scene) scene ∧ Writable .long (eaAddr (.ind 3#3) scene) scene := by
  decide

theorem witness_AddForms : WellFormed (.addrImm (.ext ⟨.xsp, 2#2⟩) (.w 0xFFFF#16)) := by decide

theorem witness_AdcForms : WellFormed (.adcrImm (.ext ⟨.xsp, 0#2⟩) (.l 0xFFFFFFFF#32)) := by decide

theorem witness_CpForms : Readable .long (eaAddr (.ind 3#3) scene) 0x40302010#32 scene := by decide

theorem witness_IncForms : WellFormed (.inc3r .byte 0#3 (.short 1#3)) ∧ WellFormed (.inc3r .long 7#3 (.short 0#3)) := by
  decide

theorem witness_DecForms : WellFormed (.dec3r .byte 0#3 (.short 1#3)) ∧ WellFormed (.dec3r .long 7#3 (.short 0#3)) := by
  decide

theorem witness_ExtendForms :
    WellFormed (.extz .word (.ext ⟨.xix, 2#2⟩)) ∧ WellFormed (.extz .long (.ext ⟨.xix, 0#2⟩)) ∧
    WellFormed (.exts .word (.ext ⟨.xix, 2#2⟩)) ∧ WellFormed (.exts .long (.ext ⟨.xix, 0#2⟩)) := by
  decide

/-- The table covers an input at its upper bounds, and not the one above them. -/
theorem witness_DaaForm :
    WellFormed (.daa (.short 1#3)) ∧
    DaaCovers ⟨false, false, true, false, false, true⟩ 0x33#8 = true ∧
    DaaCovers ⟨false, false, true, false, false, true⟩ 0x34#8 = false ∧
    DaaCovers ⟨false, false, true, false, true, true⟩ 0x66#8 = true ∧
    DaaCovers ⟨false, false, true, false, true, true⟩ 0x65#8 = false := by
  decide

theorem witness_DecimalAddition :
    get .byte 0xE0#8 (put .byte 0xE0#8 0x99#8 (put .byte 0xE5#8 0x99#8 scene)) = 0x99#8 ∧
    get .byte 0xE5#8 (put .byte 0xE0#8 0x99#8 (put .byte 0xE5#8 0x99#8 scene)) = 0x99#8 := by
  decide

/-- The largest quotient that fits, the smallest that does not, and a zero divisor. -/
theorem witness_DivForms :
    WellFormed (.divRr .byte 1#3 (.short 3#3)) ∧ WellFormed (.divrImm (.ext ⟨.xix, 0#2⟩) (.b 0x02#8)) ∧
    WellFormed (.divRMem .word 0#3 (.ind 3#3)) ∧ QuotientFits .byte false 0x01FE#16 0x02#8 ∧
    ¬ QuotientFits .byte false 0x0200#16 0x02#8 ∧ ¬ QuotientFits .byte false 0x0064#16 0x00#8 := by
  refine ⟨by decide, by decide, by decide, ?_, ?_, ?_⟩ <;> unfold QuotientFits <;> decide

/-- -128 fits and +128 does not. -/
theorem witness_DivsForms :
    WellFormed (.divsRr .byte 1#3 (.short 3#3)) ∧ WellFormed (.divsrImm (.short 1#3) (.b 0x01#8)) ∧
    WellFormed (.divsRMem .word 0#3 (.ind 3#3)) ∧ QuotientFits .byte true 0xFF80#16 0x01#8 ∧
    ¬ QuotientFits .byte true 0x0080#16 0x01#8 ∧ ¬ QuotientFits .byte true 0x0064#16 0x00#8 := by
  refine ⟨by decide, by decide, by decide, ?_, ?_, ?_⟩ <;> unfold QuotientFits <;> decide

theorem witness_AndForms : WellFormed (.andrImm (.ext ⟨.xsp, 3#2⟩) (.b 0xFF#8)) := by decide

theorem witness_CplForm : WellFormed (.cpl .word (.ext ⟨.xix, 2#2⟩)) := by decide

theorem witness_CarryFromMemoryBit : Readable .byte (eaAddr (.ind 3#3) scene) 0x10#8 scene := by decide

theorem witness_BitForms :
    (7#4).toNat < BW.byte.size.bits ∧ 8 ≤ (8#4).toNat ∧ (15#4).toNat < BW.word.size.bits ∧
    Readable .byte (eaAddr (.ind 3#3) scene) 0x10#8 scene := by
  decide

theorem witness_ChgForms :
    WellFormed (.chg4r .byte 7#4 (.short 1#3)) ∧ WellFormed (.chg4r .word 15#4 (.short 1#3)) ∧ 8 ≤ (8#4).toNat ∧
    Readable .byte (eaAddr (.ind 3#3) scene) 0x10#8 scene ∧ Writable .byte (eaAddr (.ind 3#3) scene) scene := by
  decide

theorem witness_Bs1bForm : readOp .word (.short 1#3) scene ≠ 0#16 ∧ readOp .word (.short 0#3) scene = 0#16 := by decide

theorem witness_LdcForms :
    WellFormed (.ldcRCr (.ext ⟨.xix, 3#2⟩) (.dmam 3#2)) ∧ CReg.dmam 3#2 ≠ CReg.dmac 3#2 := by
  decide

theorem witness_JpMemory :
    (Mode.ind 4#3).steps = false ∧ condTrue .nc scene.f = true ∧ condTrue .c scene.f = false := by
  decide

theorem witness_DirectCalls :
    Writable .long (readReg .long ⟨.xsp, 0#2⟩ scene - 4#32) scene ∧
    Writable .long (readReg .long ⟨.xsp, 0#2⟩ (put .long 0xFC#8 0x0002#32 scene) - 4#32)
      (put .long 0xFC#8 0x0002#32 scene) := by
  decide

theorem witness_CallMemory :
    (Mode.disp8 7#3 0x00#8).steps = false ∧ condTrue .nc scene.f = true ∧ condTrue .c scene.f = false ∧
    Writable .long (readReg .long ⟨.xsp, 0#2⟩ scene - 4#32) scene := by
  decide

theorem witness_DjnzForm : WellFormed (.djnz .word (.ext ⟨.xix, 0#2⟩) 0xFC#8) := by decide

theorem witness_SteppingModesNotAdmitted : (Mode.postInc .xsp .four).steps = true := by decide

theorem witness_ConditionsAfterCompare :
    CompareFlags .byte 0x80#8 0x01#8 ⟨false, false, true, true, true, false⟩ ∧
    CompareFlags .long 0x00000001#32 0x00000002#32 ⟨true, false, false, false, true, true⟩ :=
  ⟨⟨true, by decide, by decide⟩, ⟨false, by decide, by decide⟩⟩

end Sys2Proof.Tests.Slice0
end

section
/-! PROOFS. ADD, ADC, CP, INC and DEC (44_arithmetic.md): what each shared shape answers for an instruction that runs
it, the meaning of the operations as values and flags, and the five statements. -/

namespace Sys2Proof.Machine

/-! ## The shapes, for an instruction `i` that runs them

`hx` says which shape `i` runs, and `hl` that the shape goes past exactly the bytes of `i`. -/

section Shapes

variable {i : Instr} {s : State} {n : Nat}

theorem past_of_pc {t : State} (hl : (encode i).length = n) (hp : t.pc = s.pc + BitVec.ofNat 32 n) : Past i s t := by
  rw [Past, hl, hp]

/-- The register write of `writeReg` after an operation that otherwise only writes flags. -/
theorem exec_regOnly {sz : Size} {c : RegCode} {x : BitVec sz.bits} {e u : State} (hc : c.legal sz = true)
    (hu : FlagsStep e u) (he : e.pc = s.pc) (hx : exec i s = .next (advance n (writeReg sz c x u)))
    (hl : (encode i).length = n) :
    ∃ t, exec i s = .next t ∧ RegOnly sz c x e t ∧ t.f = u.f ∧ Past i s t :=
  ⟨_, hx, regOnly_write hc x hu n, rfl, past_of_pc hl (by rw [advance_pc, writeReg_pc, hu.pc, he])⟩

theorem exec_opRr {op : BinOp} {sz : Size} {R : R3} {r : RegOp} (hop : ∀ x y u, FlagsStep u (op sz x y u).2)
    (hx : exec i s = opRr op sz R r s) (hl : (encode i).length = regLen r 0) :
    ∃ t, exec i s = .next t ∧ RegOnly sz (code3 sz R) (op sz (readR sz R s) (readOp sz r s) s).1 s t ∧
      t.f = (op sz (readR sz R s) (readOp sz r s) s).2.f ∧ Past i s t :=
  exec_regOnly (code3_legal sz R) (hop _ _ s) rfl hx hl

theorem exec_oprImm {op : BinOp} {r : RegOp} {v : Imm} (hr : r.legal v.size = true)
    (hop : ∀ x y u, FlagsStep u (op v.size x y u).2) (hx : exec i s = oprImm op r v s)
    (hl : (encode i).length = regLen r v.size.bytes) :
    ∃ t, exec i s = .next t ∧ RegOnly v.size (codeOf v.size r) (op v.size (readOp v.size r s) v.value s).1 s t ∧
      t.f = (op v.size (readOp v.size r s) v.value s).2.f ∧ Past i s t :=
  exec_regOnly (codeOf_legal hr) (hop _ _ s) rfl hx hl

theorem exec_opRMem {op : BinOp} {sz : Size} {R : R3} {m : Mode} {v : BitVec sz.bits}
    (hv : Readable sz (eaAddr m s) v s) (hop : ∀ x y u, FlagsStep u (op sz x y u).2)
    (hx : exec i s = opRMem op sz R m s) (hl : (encode i).length = memLen m 0) :
    ∃ t, exec i s = .next t ∧
      RegOnly sz (code3 sz R) (op sz (readR sz R (eaState m s)) v (eaState m s)).1 (eaState m s) t ∧
      t.f = (op sz (readR sz R (eaState m s)) v (eaState m s)).2.f ∧ Past i s t :=
  exec_regOnly (code3_legal sz R) (hop _ _ (eaState m s)) (eaState_pc s m) (hx.trans (opRMem_next hv)) hl

theorem exec_opMem {op : BinOp} {sz : Size} {m : Mode} {b : State → BitVec sz.bits} {a : BitVec sz.bits}
    (ha : Readable sz (eaAddr m s) a s) (hw : Writable sz (eaAddr m s) s)
    (hop : ∀ x y u, FlagsStep u (op sz x y u).2) (hx : exec i s = opMem op sz m b n s)
    (hl : (encode i).length = memLen m n) :
    ∃ t, exec i s = .next t ∧
      MemOnly sz (eaAddr m s) (op sz a (b (eaState m s)) (eaState m s)).1 (eaState m s) t ∧
      t.f = (op sz a (b (eaState m s)) (eaState m s)).2.f ∧ Past i s t := by
  obtain ⟨w, hnext, hf, hpc, hmem⟩ := opMem_next (b := b) (n := n) ha hw hop
  exact ⟨_, hx.trans hnext, hmem, hf, past_of_pc hl (by rw [advance_pc, hpc])⟩

end Shapes

/-! ## The operations of ADD and ADC (rules R161, R162) -/

/-- `op` adds its two operands and the carry that `cin` takes from F, and writes the flags of that sum. -/
structure AddsWithCarry (op : BinOp) (cin : Flags → Bool) : Prop where
  res : ∀ sz a b s, (op sz a b s).1 = sumOf a b (cin s.f)
  flags : ∀ sz a b s, AddFlags sz a b (cin s.f) (op sz a b s).2.f
  frame : ∀ sz a b s, FlagsStep s (op sz a b s).2

theorem addOp_addsWithCarry : AddsWithCarry addOp (fun _ => false) where
  res _ a b _ := addN_res a b false
  flags sz a b s := addFlags_arithFlags sz a b false s
  frame sz a b s := flagsStep_arithFlags sz (addN a b false) false s

theorem adcOp_addsWithCarry : AddsWithCarry adcOp Flags.c where
  res _ a b s := addN_res a b s.f.c
  flags sz a b s := addFlags_arithFlags sz a b s.f.c s
  frame sz a b s := flagsStep_arithFlags sz (addN a b s.f.c) false s

namespace AddsWithCarry

variable {op : BinOp} {cin : Flags → Bool} {i : Instr} {s : State} {n : Nat}

theorem exec_opRr (h : AddsWithCarry op cin) {sz : Size} {R : R3} {r : RegOp} (hx : exec i s = opRr op sz R r s)
    (hl : (encode i).length = regLen r 0) :
    ∃ t, exec i s = .next t ∧
      RegOnly sz (code3 sz R) (sumOf (readR sz R s) (readOp sz r s) (cin s.f)) s t ∧
      AddFlags sz (readR sz R s) (readOp sz r s) (cin s.f) t.f ∧ Past i s t := by
  obtain ⟨t, ht, hreg, hf, hpast⟩ := Machine.exec_opRr (h.frame sz) hx hl
  rw [h.res] at hreg
  exact ⟨t, ht, hreg, hf ▸ h.flags _ _ _ _, hpast⟩

theorem exec_oprImm (h : AddsWithCarry op cin) {r : RegOp} {v : Imm} (hr : r.legal v.size = true)
    (hx : exec i s = oprImm op r v s) (hl : (encode i).length = regLen r v.size.bytes) :
    ∃ t, exec i s = .next t ∧
      RegOnly v.size (codeOf v.size r) (sumOf (readOp v.size r s) v.value (cin s.f)) s t ∧
      AddFlags v.size (readOp v.size r s) v.value (cin s.f) t.f ∧ Past i s t := by
  obtain ⟨t, ht, hreg, hf, hpast⟩ := Machine.exec_oprImm hr (h.frame v.size) hx hl
  rw [h.res] at hreg
  exact ⟨t, ht, hreg, hf ▸ h.flags _ _ _ _, hpast⟩

theorem exec_opRMem (h : AddsWithCarry op cin) {sz : Size} {R : R3} {m : Mode} {v : BitVec sz.bits}
    (hv : Readable sz (eaAddr m s) v s) (hx : exec i s = opRMem op sz R m s)
    (hl : (encode i).length = memLen m 0) :
    ∃ t, exec i s = .next t ∧
      RegOnly sz (code3 sz R) (sumOf (readR sz R (eaState m s)) v (cin s.f)) (eaState m s) t ∧
      AddFlags sz (readR sz R (eaState m s)) v (cin s.f) t.f ∧ Past i s t := by
  obtain ⟨t, ht, hreg, hf, hpast⟩ := Machine.exec_opRMem hv (h.frame sz) hx hl
  rw [h.res, eaState_f] at hreg
  exact ⟨t, ht, hreg, hf ▸ eaState_f s m ▸ h.flags _ _ _ _, hpast⟩

theorem exec_opMem (h : AddsWithCarry op cin) {sz : Size} {m : Mode} {b : State → BitVec sz.bits}
    {a : BitVec sz.bits} (ha : Readable sz (eaAddr m s) a s) (hw : Writable sz (eaAddr m s) s)
    (hx : exec i s = opMem op sz m b n s) (hl : (encode i).length = memLen m n) :
    ∃ t, exec i s = .next t ∧
      MemOnly sz (eaAddr m s) (sumOf a (b (eaState m s)) (cin s.f)) (eaState m s) t ∧
      AddFlags sz a (b (eaState m s)) (cin s.f) t.f ∧ Past i s t := by
  obtain ⟨t, ht, hmem, hf, hpast⟩ := Machine.exec_opMem ha hw (h.frame sz) hx hl
  rw [h.res, eaState_f] at hmem
  exact ⟨t, ht, hmem, hf ▸ eaState_f s m ▸ h.flags _ _ _ _, hpast⟩

end AddsWithCarry

/-- Settles O31: each form runs its shape with an operation that adds without a carry. -/
theorem addForms : Obligations.AddForms := by
  unfold Obligations.AddForms
  have h := addOp_addsWithCarry
  refine fun s => ⟨?addRr, ?addrImm, ?addRMem, ?addMemR, ?addMemImm⟩
  case addRr => exact fun _ _ _ => h.exec_opRr rfl (by simp [encode])
  case addrImm => exact fun _ _ hwf => h.exec_oprImm hwf rfl (by simp [encode])
  case addRMem => exact fun _ _ _ _ hv => h.exec_opRMem hv rfl (by simp [encode])
  case addMemR => exact fun _ _ _ _ hv hw => h.exec_opMem hv hw rfl (by simp [encode])
  case addMemImm => exact fun _ i _ hv hw => h.exec_opMem (b := fun _ => i.value) hv hw rfl (by simp [encode])

/-- Settles O32: as ADD, with the carry read from F before any flag is written. -/
theorem adcForms : Obligations.AdcForms := by
  unfold Obligations.AdcForms
  have h := adcOp_addsWithCarry
  refine fun s => ⟨?adcRr, ?adcrImm, ?adcRMem, ?adcMemR, ?adcMemImm⟩
  case adcRr => exact fun _ _ _ => h.exec_opRr rfl (by simp [encode])
  case adcrImm => exact fun _ _ hwf => h.exec_oprImm hwf rfl (by simp [encode])
  case adcRMem => exact fun _ _ _ _ hv => h.exec_opRMem hv rfl (by simp [encode])
  case adcMemR => exact fun _ _ _ _ hv hw => h.exec_opMem hv hw rfl (by simp [encode])
  case adcMemImm => exact fun _ i _ hv hw => h.exec_opMem (b := fun _ => i.value) hv hw rfl (by simp [encode])

/-! ## CP (rule R163) -/

section Compare

variable {i : Instr} {s : State} {n : Nat}

/-- A comparison in the state `e` that the effective address leaves: it writes the flags and goes past `i`. -/
theorem exec_cpOp {sz : Size} {a b : BitVec sz.bits} {e : State} (he : e.pc = s.pc)
    (hx : exec i s = .next (advance n (cpOp sz a b e))) (hl : (encode i).length = n) :
    ∃ t, exec i s = .next t ∧ Untouched e t ∧ CompareFlags sz a b t.f ∧ Past i s t := by
  have hframe : FlagsStep e (cpOp sz a b e) := flagsStep_arithFlags sz (subN a b false) true e
  exact ⟨_, hx, untouched_of_flagsStep hframe n, compareFlags_arithFlags sz a b e,
    past_of_pc hl (by rw [advance_pc, hframe.pc, he])⟩

/-- A comparison with memory: `a` and `b` take its two operands from the value read and the stepped state. -/
theorem exec_cpMem {sz : Size} {m : Mode} {a b : BitVec sz.bits → State → BitVec sz.bits} {v : BitVec sz.bits}
    (hv : Readable sz (eaAddr m s) v s) (hx : exec i s = cpMem sz m (fun w u => cpOp sz (a w u) (b w u) u) n s)
    (hl : (encode i).length = memLen m n) :
    ∃ t, exec i s = .next t ∧ Untouched (eaState m s) t ∧
      CompareFlags sz (a v (eaState m s)) (b v (eaState m s)) t.f ∧ Past i s t :=
  exec_cpOp (eaState_pc s m) (hx.trans (cpMem_next hv)) hl

end Compare

/-- Settles O33: each form is one comparison, of registers and immediates or of the value read from memory. -/
theorem cpForms : Obligations.CpForms := by
  unfold Obligations.CpForms
  refine fun s => ⟨?cpRr, ?cpr3, ?cprImm, ?cpRMem, ?cpMemR, ?cpMemImm⟩
  case cpRr => exact fun _ _ _ => exec_cpOp rfl rfl (by simp [encode])
  case cpr3 =>
    intro sz r n
    rw [BitVec.ofNat_toNat]
    exact exec_cpOp rfl rfl (by simp [encode])
  case cprImm => exact fun _ _ => exec_cpOp rfl rfl (by simp [encode])
  case cpRMem =>
    exact fun sz R _ _ hv => exec_cpMem (a := fun _ u => readR sz R u) (b := fun w _ => w) hv rfl (by simp [encode])
  case cpMemR =>
    exact fun sz _ R _ hv => exec_cpMem (a := fun w _ => w) (b := fun _ u => readR sz R u) hv rfl (by simp [encode])
  case cpMemImm =>
    exact fun _ i _ hv => exec_cpMem (a := fun w _ => w) (b := fun _ _ => i.value) hv rfl (by simp [encode])

/-! ## INC and DEC (rule R164) -/

theorem countOf_eq (n : BitVec 3) : countOf n = if n.toNat = 0 then 8 else n.toNat := by
  simp [countOf, BitVec.toNat_eq]

@[simp] theorem sumOf_false {n : Nat} (a b : BitVec n) : sumOf a b false = a + b := by simp [sumOf]

/-- The result and the flags of an addition without carry, in the terms of the statements. -/
theorem addN_eq (sz : Size) (a b : BitVec sz.bits) :
    addN a b false =
      ⟨a + b, (a + b).msb, a + b == 0, halfCarry a b false, sumOverflow a b false, carryOut a b false⟩ := by
  rw [← sumOf_false, ← addN_v_size, ← addN_s, ← addN_z, ← addN_h, ← addN_c, ← addN_res]

/-- The result and the flags of a subtraction without borrow, in the terms of the statements. -/
theorem subN_eq (sz : Size) (a b : BitVec sz.bits) :
    subN a b false =
      ⟨a - b, (a - b).msb, a == b, halfBorrow a b, diffOverflow a b, decide (a.toNat < b.toNat)⟩ := by
  rw [← subN_v_size, ← subN_s, ← subN_z, ← subN_h, ← subN_c, ← subN_res]

theorem flagsStep_countFlagsReg (sz : Size) (o : Alu sz.bits) (sub : Bool) (s : State) :
    FlagsStep s (countFlagsReg sz o sub s) := by
  unfold countFlagsReg
  split
  · exact flagsStep_countFlags o sub s
  · exact FlagsStep.refl s

theorem countFlagsReg_f (sz : Size) (o : Alu sz.bits) (sub : Bool) (s : State) :
    (countFlagsReg sz o sub s).f = if sz = .byte then ⟨o.s, o.z, o.h, o.v, sub, s.f.c⟩ else s.f := by
  unfold countFlagsReg
  split <;> rfl

/-- INC and DEC of a register: the result is written first, then the flags at byte size (rules R186, R188). -/
theorem exec_countReg {i : Instr} {s : State} {sz : Size} {r : RegOp} {o : Alu sz.bits} {sub : Bool}
    (hr : r.legal sz = true)
    (hx : exec i s = .next (advance (regLen r 0) (countFlagsReg sz o sub (writeOp sz r o.res s))))
    (hl : (encode i).length = regLen r 0) :
    ∃ t, exec i s = .next t ∧ RegOnly sz (codeOf sz r) o.res s t ∧
      t.f = (if sz = .byte then ⟨o.s, o.z, o.h, o.v, sub, s.f.c⟩ else s.f) ∧ Past i s t := by
  have hframe := flagsStep_countFlagsReg sz o sub (writeOp sz r o.res s)
  exact ⟨_, hx, regOnly_write_flags (codeOf_legal hr) o.res hframe _, countFlagsReg_f sz o sub _,
    past_of_pc hl (by rw [advance_pc, hframe.pc, writeOp_pc])⟩

/-- INC and DEC of memory: `alu` gives the result and the flags (rules R187, R189). -/
theorem exec_countMem {i : Instr} {s : State} {sz : Size} {m : Mode} {a b : BitVec sz.bits}
    {alu : {k : Nat} → BitVec k → BitVec k → Alu k} {sub : Bool}
    (ha : Readable sz (eaAddr m s) a s) (hw : Writable sz (eaAddr m s) s)
    (hx : exec i s = opMem (fun _ x y u => ((alu x y).res, countFlags (alu x y) sub u)) sz m (fun _ => b) 0 s)
    (hl : (encode i).length = memLen m 0) :
    ∃ t, exec i s = .next t ∧ MemOnly sz (eaAddr m s) (alu a b).res (eaState m s) t ∧
      t.f = ⟨(alu a b).s, (alu a b).z, (alu a b).h, (alu a b).v, sub, s.f.c⟩ ∧ Past i s t := by
  obtain ⟨t, ht, hmem, hf, hpast⟩ := exec_opMem ha hw (fun x y u => flagsStep_countFlags (alu x y) sub u) hx hl
  rw [countFlags, eaState_f] at hf
  exact ⟨t, ht, hmem, hf, hpast⟩

/-- Settles O34: the result and the flags are those of the addition of the count. -/
theorem incForms : Obligations.IncForms := by
  unfold Obligations.IncForms
  intro n s
  rw [← countOf_eq]
  refine ⟨fun sz r hwf => ?inc3r, fun sz m a ha hw => ?inc3Mem⟩
  case inc3r =>
    have h := exec_countReg (i := .inc3r sz n r) (s := s) hwf rfl (by simp [encode])
    rwa [addN_eq] at h
  case inc3Mem =>
    have h := exec_countMem (i := .inc3Mem sz n m) (alu := fun x y => addN x y false) ha hw rfl (by simp [encode])
    rwa [addN_eq] at h

/-- Settles O35: the result and the flags are those of the subtraction of the count. -/
theorem decForms : Obligations.DecForms := by
  unfold Obligations.DecForms
  intro n s
  rw [← countOf_eq]
  refine ⟨fun sz r hwf => ?dec3r, fun sz m a ha hw => ?dec3Mem⟩
  case dec3r =>
    have h := exec_countReg (i := .dec3r sz n r) (s := s) hwf rfl (by simp [encode])
    rwa [subN_eq] at h
  case dec3Mem =>
    have h := exec_countMem (i := .dec3Mem sz n m) (alu := fun x y => subN x y false) ha hw rfl (by simp [encode])
    rwa [subN_eq] at h

end Sys2Proof.Machine
end

section
/-! PROOFS. How an access stops (20_memory.md R39, R56, R69, R77): what a single byte answers when it cannot be reached,
read or written, and that the bytes before it let the access come to it. -/

namespace Sys2Proof.Machine

/-! ## One byte that stops -/

theorem atAddress_of_above {α : Type} {a : Long} {s : State} (h : 2 ^ s.launch.addrBits ≤ a.toNat) (k : Res α) :
    atAddress a s k = .refused .aboveAddrBits := if_pos h

theorem atAddress_of_absent {α : Type} {a : Long} {s : State} (h : a.toNat < 2 ^ s.launch.addrBits)
    (hp : s.launch.has a.toNat = false) (k : Res α) : atAddress a s k = .fault .noMemory := by
  simp [atAddress, Nat.not_le.2 h, hp]

theorem loadByte_of_readable {a : Long} {s : State} (h : ByteReadable a s) : ∃ b, loadByte a s = .next b := by
  obtain ⟨hbits, hhas, hread⟩ := h
  obtain ⟨b, hb⟩ := Option.ne_none_iff_exists'.1 hread
  exact ⟨b, loadByte_of_present hbits hhas hb⟩

theorem loadByte_of_none {a : Long} {s : State} (h : a.toNat < 2 ^ s.launch.addrBits)
    (hp : s.launch.has a.toNat = true) (hb : s.mem.read a.toNat = none) : loadByte a s = .fault .noValue := by
  rw [loadByte, atAddress_of_present h hp, hb]

theorem storeByte_of_inText {a : Long} {s : State} (b : Byte) (h : a.toNat < 2 ^ s.launch.addrBits)
    (hp : s.launch.has a.toNat = true) (ht : s.launch.inText a.toNat = true) :
    storeByte a b s = .refused .storeIntoText := by
  rw [storeByte, atAddress_of_present h hp, if_pos ht]

/-! ## What a sequence comes to -/

/-- `r` does `q` first of all that can still stop it. -/
def Reaches {α β : Type} (r : Res β) (q : Res α) : Prop := ∃ rest : α → Res β, r = andThen q rest

namespace Reaches

variable {α β γ : Type} {r : Res β} {q : Res α} {k : α → Res β}

theorem self (r : Res β) : Reaches r r := ⟨.next, by cases r <;> rfl⟩

theorem head (q : Res α) (k : α → Res β) : Reaches (andThen q k) q := ⟨k, rfl⟩

/-- A part that answers is passed. -/
theorem tail {x : α} {p : Res γ} (hq : q = .next x) (h : Reaches (k x) p) : Reaches (andThen q k) p := by
  rwa [hq]

theorem fault {e : Fault} (h : Reaches r q) (hq : q = .fault e) : r = .fault e := by
  obtain ⟨rest, rfl⟩ := h
  rw [hq, andThen_fault]

theorem refused {e : Refusal} (h : Reaches r q) (hq : q = .refused e) : r = .refused e := by
  obtain ⟨rest, rfl⟩ := h
  rw [hq, andThen_refused]

end Reaches

/-! ## The bytes of an access, lowest first (log entry 20) -/

/-- When the bytes below byte `k` can be read, a load comes to byte `k`. -/
theorem load_reaches_byte {sz : Size} {a : Long} {s : State} {k : Nat} (hk : k < sz.bytes)
    (h : ∀ j, j < k → ByteReadable (byteAddr a j) s) : Reaches (load sz a s) (loadByte (byteAddr a k) s) := by
  have ok := fun j hj => loadByte_of_readable (h j hj)
  match k with
  | 0 =>
    rw [byteAddr_zero]
    cases sz with
    | byte => exact .self _
    | word | long => exact .head _ _
  | k + 1 =>
    obtain ⟨b0, h0⟩ := ok 0 (by omega)
    rw [byteAddr_zero] at h0
    cases sz with
    | byte => exact absurd hk (by simp)
    | word =>
      obtain rfl : k = 0 := by simpa using hk
      exact .tail h0 (.head _ _)
    | long =>
      match k with
      | 0 => exact .tail h0 (.head _ _)
      | 1 =>
        obtain ⟨b1, h1⟩ := ok 1 (by decide)
        exact .tail h0 (.tail h1 (.head _ _))
      | 2 =>
        obtain ⟨b1, h1⟩ := ok 1 (by decide)
        obtain ⟨b2, h2⟩ := ok 2 (by decide)
        exact .tail h0 (.tail h1 (.tail h2 (.head _ _)))

/-- One more byte of a store, when that byte can be written. -/
theorem storeByte_withBytes_of_writable {w : Nat} {a : Long} {s : State} {j : Nat} (v : BitVec w)
    (h : ByteWritable (byteAddr a j) s) :
    storeByte (byteAddr a j) (byteOf v j) (withBytes a v j s) = .next (withBytes a v (j + 1) s) := by
  obtain ⟨hbits, hhas, htext⟩ := h
  exact storeByte_of_present _ (by simpa using hbits) (by simpa using hhas) (by simpa using htext)

/-- When the bytes below byte `k` can be written, a store comes to byte `k` with those bytes written. -/
theorem store_reaches_byte {sz : Size} {a : Long} {s : State} {k : Nat} (hk : k < sz.bytes) (v : BitVec sz.bits)
    (h : ∀ j, j < k → ByteWritable (byteAddr a j) s) :
    Reaches (store sz a v s) (storeByte (byteAddr a k) (byteOf v k) (withBytes a v k s)) := by
  have ok := fun j hj => storeByte_withBytes_of_writable v (h j hj)
  match k with
  | 0 =>
    rw [byteAddr_zero]
    cases sz with
    | byte => rw [byteOf_byte]; exact .self _
    | word | long => exact .head _ _
  | k + 1 =>
    have h0 := ok 0 (by omega)
    rw [byteAddr_zero] at h0
    cases sz with
    | byte => exact absurd hk (by simp)
    | word =>
      obtain rfl : k = 0 := by simpa using hk
      exact .tail h0 (.self _)
    | long =>
      match k with
      | 0 => exact .tail h0 (.head _ _)
      | 1 => exact .tail h0 (.tail (ok 1 (by decide)) (.head _ _))
      | 2 => exact .tail h0 (.tail (ok 1 (by decide)) (.tail (ok 2 (by decide)) (.self _)))

/-- Settles O18: the access comes to the byte, and what that byte answers is what the access answers. -/
theorem accessOutsideMemory : Obligations.AccessOutsideMemory := by
  unfold Obligations.AccessOutsideMemory
  intro sz a s k hk
  dsimp only
  refine ⟨fun h => ?load, fun v h => ?store⟩
  case load =>
    have hb := load_reaches_byte hk h
    exact ⟨fun habove => hb.refused (atAddress_of_above habove _),
      fun hbits habsent => hb.fault (atAddress_of_absent hbits habsent _),
      fun hbits hhas hnone => hb.fault (loadByte_of_none hbits hhas hnone)⟩
  case store =>
    have hb := store_reaches_byte hk v h
    rw [← withBytes_launch a v k s]
    exact ⟨fun habove => hb.refused (atAddress_of_above habove _),
      fun hbits habsent => hb.fault (atAddress_of_absent hbits habsent _),
      fun hbits hhas htext => hb.refused (storeByte_of_inText _ hbits hhas htext)⟩

end Sys2Proof.Machine
end

section
/-! PROOFS. What an instruction can change (10_state.md R29 to R37): but for the eight that write control state, it
changes general registers, `pc`, F and the bytes that its stores reach, and nothing else. -/

namespace Sys2Proof.Machine

/-! ## Changes of data -/

/-- Control state is kept, and memory is changed by stores alone; registers, `pc`, F and the count of undefined values
are not spoken of. -/
structure DataStep (s t : State) : Prop where
  control : SameControl s t
  mem : MemStep s { s with mem := t.mem }

namespace DataStep

variable {s t u : State}

theorem of_sameControl (h : SameControl s t) (hm : t.mem = s.mem) : DataStep s t :=
  ⟨h, hm ▸ MemStep.refl s⟩

theorem refl (s : State) : DataStep s s := of_sameControl (SameControl.refl s) rfl

theorem of_memStep (h : MemStep s t) : DataStep s t := by
  have hcontrol : SameControl s t := by
    rw [h.eq]
    exact ⟨rfl, rfl, rfl, rfl, rfl, rfl, rfl⟩
  exact ⟨hcontrol, h.eq ▸ h⟩

theorem of_flagsStep (h : FlagsStep s t) : DataStep s t := of_sameControl h.control h.mem

theorem trans (h : DataStep s t) (k : DataStep t u) : DataStep s u := by
  have hlaunch := h.control.launch
  refine ⟨h.control.trans k.control, h.mem.trans ⟨rfl, k.mem.wf, fun c hc => ?_, fun x hx => ?_⟩⟩
  · exact hlaunch ▸ k.mem.cell c hc
  · exact k.mem.text x (hlaunch ▸ hx)

theorem advance (h : DataStep s t) (len : Nat) : DataStep s (advance len t) :=
  h.trans (of_sameControl (sameControl_advance len t) rfl)

theorem jumpTo (h : DataStep s t) (a : Long) : DataStep s (jumpTo a t) :=
  h.trans (of_sameControl ⟨rfl, rfl, rfl, rfl, rfl, rfl, rfl⟩ rfl)

theorem writeReg (h : DataStep s t) {sz : Size} {c : RegCode} (x : BitVec sz.bits) :
    DataStep s (writeReg sz c x t) :=
  h.trans (of_sameControl ⟨rfl, rfl, rfl, rfl, rfl, rfl, rfl⟩ rfl)

theorem setFlags (h : DataStep s t) (f : Flags) : DataStep s { t with f := f } :=
  h.trans (of_sameControl ⟨rfl, rfl, rfl, rfl, rfl, rfl, rfl⟩ rfl)

theorem drawn (h : DataStep s t) (k : Nat) : DataStep s (drawn k t) :=
  h.trans (of_sameControl ⟨rfl, rfl, rfl, rfl, rfl, rfl, rfl⟩ rfl)

theorem eaState (m : Mode) (s : State) : DataStep s (eaState m s) :=
  of_sameControl (by constructor <;> simp) (eaState_mem s m)

theorem divide (h : DataStep s t) {sz : BW} {signed : Bool} {c : RegCode} (d : BitVec sz.size.bits) :
    DataStep s (divide sz signed c d t) := by
  unfold Machine.divide
  split
  · exact (h.setFlags _).writeReg _
  · exact ((h.setFlags _).drawn 1).writeReg _

theorem repeatWhile (h : DataStep s t) (again : State → Bool) : DataStep s (repeatWhile again t) := by
  unfold Machine.repeatWhile
  split
  · exact h
  · exact h.advance 2

end DataStep

/-! ## Answers that change data -/

theorem flagsStep_cpOp (sz : Size) (a b : BitVec sz.bits) (s : State) : FlagsStep s (cpOp sz a b s) :=
  flagsStep_arithFlags sz (subN a b false) true s

theorem flagsStep_andOp (sz : Size) (a b : BitVec sz.bits) (s : State) : FlagsStep s (andOp sz a b s).2 :=
  flagsStep_andFlags sz (a &&& b) s

/-- When `r` answers, it answers a state that differs from `s` in data alone. -/
def ChangesData (s : State) (r : Res State) : Prop := ∀ t, r = .next t → DataStep s t

namespace ChangesData

variable {s u : State}

theorem next {t : State} (h : DataStep s t) : ChangesData s (.next t) := by
  rintro _ ⟨⟩
  exact h

theorem refused (e : Refusal) : ChangesData s (.refused e) := by
  rintro _ ⟨⟩

theorem ite {c : Prop} [Decidable c] {r q : Res State} (hr : ChangesData s r) (hq : ChangesData s q) :
    ChangesData s (if c then r else q) := by
  split
  · exact hr
  · exact hq

/-- A jump that is taken or not. -/
theorem branch {c : Prop} [Decidable c] {t w : State} (ht : DataStep s t) (hw : DataStep s w) :
    ChangesData s (.next (if c then t else w)) := by
  split
  · exact next ht
  · exact next hw

/-- A part that only gives a value, such as a load. -/
theorem read {α : Type} {r : Res α} {k : α → Res State} (hk : ∀ a, ChangesData s (k a)) :
    ChangesData s (andThen r k) := by
  intro t h
  obtain ⟨a, -, ha⟩ := andThen_eq_next h
  exact hk a t ha

theorem andThen {r : Res State} {k : State → Res State} (hr : ChangesData s r)
    (hk : ∀ t, DataStep s t → ChangesData s (k t)) : ChangesData s (andThen r k) := by
  intro t h
  obtain ⟨w, hw, ht⟩ := andThen_eq_next h
  exact hk w (hr w hw) t ht

theorem store (h : DataStep s u) {sz : Size} {a : Long} (v : BitVec sz.bits) : ChangesData s (store sz a v u) :=
  fun _ ht => h.trans (.of_memStep (memStep_store ht))

/-- A store that is the last work of an instruction. -/
theorem store_advance (h : DataStep s u) {sz : Size} {a : Long} (v : BitVec sz.bits) (len : Nat) :
    ChangesData s (Machine.andThen (Machine.store sz a v u) fun w => .next (advance len w)) :=
  (store h v).andThen fun _ hw => next (hw.advance len)

/-! ## The shared shapes -/

/-- An operation that besides its value only writes flags. -/
theorem opRr {op : BinOp} (hop : ∀ sz x y u, FlagsStep u (op sz x y u).2) (sz : Size) (R : R3) (r : RegOp) :
    ChangesData s (opRr op sz R r s) :=
  next (((DataStep.of_flagsStep (hop ..)).writeReg _).advance _)

theorem oprImm {op : BinOp} (hop : ∀ sz x y u, FlagsStep u (op sz x y u).2) (r : RegOp) (v : Imm) :
    ChangesData s (oprImm op r v s) :=
  next (((DataStep.of_flagsStep (hop ..)).writeReg _).advance _)

theorem opRMem {op : BinOp} (hop : ∀ sz x y u, FlagsStep u (op sz x y u).2) (sz : Size) (R : R3) (m : Mode) :
    ChangesData s (opRMem op sz R m s) :=
  read fun _ => next ((((DataStep.eaState m s).trans (.of_flagsStep (hop ..))).writeReg _).advance _)

theorem opMem {op : BinOp} (hop : ∀ sz x y u, FlagsStep u (op sz x y u).2) {sz : Size} (m : Mode)
    (b : State → BitVec sz.bits) (n : Nat) : ChangesData s (opMem op sz m b n s) :=
  read fun _ => store_advance ((DataStep.eaState m s).trans (.of_flagsStep (hop ..))) _ _

/-- INC and DEC of memory: `alu` gives the result and the flags. -/
theorem countMem (alu : {k : Nat} → BitVec k → BitVec k → Alu k) (sub : Bool) (sz : Size) (m : Mode)
    (b : BitVec sz.bits) :
    ChangesData s (Machine.opMem (fun _ x y u => ((alu x y).res, countFlags (alu x y) sub u)) sz m (fun _ => b) 0 s) :=
  opMem (fun _ _ _ _ => flagsStep_countFlags ..) m _ 0

theorem flagsOnly {t : State} (h : FlagsStep s t) (len : Nat) : ChangesData s (.next (advance len t)) :=
  next ((DataStep.of_flagsStep h).advance len)

theorem cpMem {sz : Size} {m : Mode} {flags : BitVec sz.bits → State → State} (h : ∀ v u, FlagsStep u (flags v u))
    (n : Nat) : ChangesData s (cpMem sz m flags n s) :=
  read fun _ => next (((DataStep.eaState m s).trans (.of_flagsStep (h ..))).advance _)

theorem withMemByte {m : Mode} {k : Byte → State → State} (h : ∀ v u, FlagsStep u (k v u)) :
    ChangesData s (withMemByte m k s) :=
  read fun _ => next (((DataStep.eaState m s).trans (.of_flagsStep (h ..))).advance _)

theorem storeMem {sz : Size} (m : Mode) (v : State → BitVec sz.bits) (n : Nat) :
    ChangesData s (storeMem sz m v n s) :=
  store_advance (DataStep.eaState m s) _ _

theorem moveFromDirect (sz : Size) (m : Mode) (a : Word) : ChangesData s (moveFromDirect sz m a s) :=
  read fun _ => store_advance (DataStep.eaState m s) _ _

theorem ifPlain {m : Mode} {r : Res State} (h : ChangesData s r) : ChangesData s (ifPlain m r) :=
  ite (refused _) h

theorem withDividend {sz : BW} {c : RegCode} {r : Res State} (h : ChangesData s r) :
    ChangesData s (withDividend sz c r) :=
  ite h (refused _)

theorem divideRr (signed : Bool) (sz : BW) (R : R3) (r : RegOp) : ChangesData s (divideRr signed sz R r s) :=
  withDividend (next (((DataStep.refl s).divide _).advance _))

theorem dividerImm (signed : Bool) (rr : RegOp) (v : ImmBW) : ChangesData s (dividerImm signed rr v s) :=
  withDividend (next (((DataStep.refl s).divide _).advance _))

theorem divideRMem (signed : Bool) (sz : BW) (R : R3) (m : Mode) : ChangesData s (divideRMem signed sz R m s) :=
  withDividend (read fun _ => next (((DataStep.eaState m s).divide _).advance _))

theorem transferElement (sz : BW) (dst src : Row) (down : Bool) :
    ChangesData s (transferElement sz dst src down s) :=
  read fun _ => (store (DataStep.refl s) _).andThen fun _ hw =>
    next ((((hw.writeReg _).writeReg _).writeReg _).setFlags _)

theorem searchElement (sz : BW) (R : R3) (down : Bool) : ChangesData s (searchElement sz R down s) :=
  read fun _ => next ((((DataStep.refl s).writeReg _).writeReg _).setFlags _)

/-- A block instruction that leaves after one element. -/
theorem once {r : Res State} (h : ChangesData s r) :
    ChangesData s (Machine.andThen r fun t => .next (advance 2 t)) :=
  h.andThen fun _ ht => next (ht.advance 2)

/-- A block instruction that repeats. -/
theorem repeated {r : Res State} (h : ChangesData s r) (again : State → Bool) :
    ChangesData s (Machine.andThen r fun t => .next (repeatWhile again t)) :=
  h.andThen fun _ ht => next (ht.repeatWhile again)

theorem pushLong (v : Long) : ChangesData s (pushLong v s) := 
  store (sz := .long) ((DataStep.refl s).writeReg (sz := .long) _) v

theorem callTo (len : Nat) (target : Long) : ChangesData s (callTo len target s) :=
  (pushLong _).andThen fun _ hw => next (hw.jumpTo target)

end ChangesData

/-! ## The writers of control state -/

/-- The instructions that write control state (rules R29 to R31, R34, R37). -/
inductive ControlWriter : Instr → Prop
  | ei (n : BitVec 3) : ControlWriter (.ei n)
  | di : ControlWriter .di
  | ldf (n : BitVec 3) : ControlWriter (.ldf n)
  | incf : ControlWriter .incf
  | decf : ControlWriter .decf
  | ldcCrR (cr : CReg) (r : RegOp) : ControlWriter (.ldcCrR cr r)
  | exFF : ControlWriter .exFF
  | halt : ControlWriter .halt

/-- All that an instruction can do when it answers, unless it is a writer of control state. -/
theorem exec_changesData {i : Instr} (hi : ¬ ControlWriter i) (s : State) : ChangesData s (exec i s) := by
  have h := DataStep.refl s
  cases i with
  | ei n => exact absurd (.ei n) hi
  | di => exact absurd .di hi
  | ldf n => exact absurd (.ldf n) hi
  | incf => exact absurd .incf hi
  | decf => exact absurd .decf hi
  | ldcCrR cr r => exact absurd (.ldcCrR cr r) hi
  | exFF => exact absurd .exFF hi
  | halt => exact absurd .halt hi
  | ldRImmB | ldRImmW | ldRImmL | ldrImm | extz | exts | ldcRCr | ldRr | ldrR | ldr3 | ldar =>
    exact .next ((h.writeReg _).advance _)
  | ldDir8B | ldDir8W => exact .store_advance h _ _
  | ccf => exact .next (((h.setFlags _).drawn 1).advance 1)
  | jp16 | jp24 => exact .next (h.jumpTo _)
  | jr | jrl => exact .branch (h.jumpTo _) (h.advance _)
  | jpMem => exact .ifPlain (.branch (h.jumpTo _) (h.advance _))
  | djnz => exact .branch ((h.writeReg _).advance _) (((h.writeReg _).advance _).jumpTo _)
  | call16 | call24 | calr => exact .callTo _ _
  | callMem => exact .ifPlain (.ite (.callTo _ _) (.next (h.advance _)))
  | cpl => exact .next (((h.writeReg _).setFlags _).advance _)
  | exRr => exact .next (((h.writeReg _).writeReg _).advance _)
  | exMemR sz m R =>
    exact .read fun _ => (ChangesData.store (DataStep.eaState m s) _).andThen fun _ hw =>
      .next ((hw.writeReg _).advance _)
  | divrImm | divsrImm => exact .dividerImm _ _ _
  | divRr | divsRr => exact .divideRr _ _ _ _
  | divRMem | divsRMem => exact .divideRMem _ _ _ _
  | bs1b r =>
    refine .next (DataStep.advance ?_ _)
    split
    · exact (h.setFlags _).writeReg _
    · exact ((h.setFlags _).drawn 1).writeReg _
  | daa => exact .next (((DataStep.of_flagsStep (flagsStep_daaOp _ s)).writeReg _).advance _)
  | andcf4r | ldcf4r | andcfAr | ldcfAr => exact .flagsOnly (flagsStep_carryFromBit ..) _
  | andcf3Mem | ldcf3Mem | andcfAMem | ldcfAMem => exact .withMemByte fun _ _ => flagsStep_carryFromBit ..
  | bit4r => exact .ite (.flagsOnly (flagsStep_bitFlags ..) _) (.refused _)
  | bit3Mem => exact .withMemByte fun _ _ => flagsStep_bitFlags ..
  | chg4r => exact .ite (.next ((h.writeReg _).advance _)) (.refused _)
  | chg3Mem n m | ldDir16Mem _ _ m => exact .read fun _ => .store_advance (DataStep.eaState m s) _ _
  | inc3r | dec3r => exact .next (((h.writeReg _).trans (.of_flagsStep (flagsStep_countFlagsReg ..))).advance _)
  | inc3Mem sz n m => exact .countMem (fun x y => addN x y false) false _ m _
  | dec3Mem sz n m => exact .countMem (fun x y => subN x y false) true _ m _
  | addRr => exact .opRr addOp_addsWithCarry.frame _ _ _
  | adcRr => exact .opRr adcOp_addsWithCarry.frame _ _ _
  | andRr => exact .opRr flagsStep_andOp _ _ _
  | addrImm => exact .oprImm addOp_addsWithCarry.frame _ _
  | adcrImm => exact .oprImm adcOp_addsWithCarry.frame _ _
  | andrImm => exact .oprImm flagsStep_andOp _ _
  | addRMem => exact .opRMem addOp_addsWithCarry.frame _ _ _
  | adcRMem => exact .opRMem adcOp_addsWithCarry.frame _ _ _
  | andRMem => exact .opRMem flagsStep_andOp _ _ _
  | addMemR => exact .opMem addOp_addsWithCarry.frame _ _ _
  | adcMemR => exact .opMem adcOp_addsWithCarry.frame _ _ _
  | andMemR => exact .opMem flagsStep_andOp _ _ _
  | addMemImm m v => exact .opMem addOp_addsWithCarry.frame m (fun _ => v.value) _
  | adcMemImm m v => exact .opMem adcOp_addsWithCarry.frame m (fun _ => v.value) _
  | andMemImm m v => exact .opMem flagsStep_andOp m (fun _ => v.value) _
  | cpRr | cpr3 | cprImm => exact .flagsOnly (flagsStep_cpOp ..) _
  | cpRMem | cpMemR | cpMemImm => exact .cpMem (fun _ _ => flagsStep_cpOp ..) _
  | ldiDE | ldiIX | lddDE | lddIX => exact .once (.transferElement _ _ _ _)
  | ldirDE | ldirIX | lddrDE | lddrIX => exact .repeated (.transferElement _ _ _ _) counting
  | cpi | cpd => exact .once (.searchElement _ _ _)
  | cpir | cpdr => exact .repeated (.searchElement _ _ _) searching
  | ldRMem sz R m => exact .read fun _ => .next (((DataStep.eaState m s).writeReg _).advance _)
  | ldMemRB | ldMemRW | ldMemRL => exact .storeMem _ _ _
  | ldMemImmB m v => exact .storeMem (sz := .byte) m (fun _ => v) 1
  | ldMemImmW m v => exact .storeMem (sz := .word) m (fun _ => v) 2
  | ldMemDir16B | ldMemDir16W => exact .moveFromDirect _ _ _
  | ldaW | ldaL => exact .ifPlain (.next ((h.writeReg _).advance _))

/-- Settles O11: a writer of control state writes its own field, and every other instruction keeps them all. -/
theorem namedWritersOfControl : Obligations.NamedWritersOfControl := by
  unfold Obligations.NamedWritersOfControl
  intro i s t h
  by_cases hi : ControlWriter i
  · cases hi
    all_goals
      obtain ⟨⟩ := h
      simp
  · obtain ⟨hfAlt, hiff, hrfp, hcr, hhalted, -, -⟩ := (exec_changesData hi s t h).control
    exact ⟨fun _ _ => hiff, fun _ _ _ => hrfp, fun _ => hcr, fun _ => hfAlt, fun _ => hhalted⟩

end Sys2Proof.Machine
end

section
/-! PROOFS. The registers and the state after reset (10_state.md R21 to R35, R38): the parts of a register, the 3-bit
codes, the bank window, the control registers and LDC, and what reset leaves. -/

namespace Sys2Proof.Machine

/-! ## The parts of a register (rule R21) -/

theorem slice_word_eq_bytes (v : Long) (i : Nat) :
    v.extractLsb' i 16 = v.extractLsb' (i + 8) 8 ++ v.extractLsb' i 8 :=
  (BitVec.extractLsb'_append_extractLsb'_eq_extractLsb' (len₁ := 8) (len₂ := 8) rfl).symm

/-- Settles O12: a value is put together from its bytes, and byte `o` of a register starts at bit `8 * o`. -/
theorem registerParts : Obligations.RegisterParts := by
  unfold Obligations.RegisterParts
  intro row s
  simp only [readReg, getPart]
  exact ⟨(long_of_bytes _).symm, slice_word_eq_bytes _ 0, slice_word_eq_bytes _ 16⟩

/-! ## The 3-bit codes (rule R23) -/

/-- Settles O13, code by code. -/
theorem threeBitCodes : Obligations.ThreeBitCodes := by
  unfold Obligations.ThreeBitCodes
  decide

/-! ## The bank window (rules R22, R31, R32) -/

/-- A bank register is read alike in two states when its name means the same bank in both. -/
theorem readReg_bank_congr {s t : State} {b b' : BankSel} {sz : Size} {q : Quad} {o : BitVec 2}
    (hr : t.regs = s.regs) (hb : bankNumber t b = bankNumber s b') :
    readReg sz ⟨.bank b q, o⟩ t = readReg sz ⟨.bank b' q, o⟩ s := by
  simp only [readReg, placeOf, hr, hb]

theorem rfp3_add_one_low (n : BitVec 2) : ((0#1 ++ n : BitVec 3) + 1#3).extractLsb' 0 2 = n + 1#2 := by
  revert n; decide

theorem rfp3_sub_one_low (n : BitVec 2) : ((0#1 ++ n : BitVec 3) - 1#3).extractLsb' 0 2 = n - 1#2 := by
  revert n; decide

theorem rfp3_toNat (s : State) : s.rfp3.toNat = s.rfp.toNat := by
  rw [State.rfp3, toNat_concat]
  simp

theorem exec_incf (s : State) : exec .incf s = .next { s with rfp := s.rfp + 1#2, pc := s.pc + 1#32 } := by
  rw [← rfp3_add_one_low]
  rfl

theorem exec_decf (s : State) : exec .decf s = .next { s with rfp := s.rfp - 1#2, pc := s.pc + 1#32 } := by
  rw [← rfp3_sub_one_low]
  rfl

/-- Settles O14: INCF and DECF move RFP by one, so the name that follows it keeps its bank. -/
theorem bankSwitching : Obligations.BankSwitching := by
  unfold Obligations.BankSwitching
  refine fun sz q o s => ⟨⟨rfl, rfl⟩, ⟨_, exec_incf s, rfl, ?incf, ?incfPrev⟩,
    ⟨_, exec_decf s, rfl, ?decf, ?decfCur⟩⟩
  case incf => exact BitVec.toNat_add s.rfp 1#2
  case incfPrev => exact readReg_bank_congr rfl (BitVec.add_sub_cancel s.rfp 1#2)
  case decf =>
    rw [BitVec.toNat_sub]
    exact congrArg (· % 4) (Nat.add_comm _ _)
  case decfCur => exact readReg_bank_congr rfl rfl

/-- Settles O15: RFP takes the low two bits of the number. -/
theorem ldfSelectsBank : Obligations.LdfSelectsBank := by
  unfold Obligations.LdfSelectsBank
  intro n s
  have hlow : (n.extractLsb' 0 2).toNat = n.toNat % 4 := by simp
  exact ⟨advance 2 (setRfp n s), rfl, rfl, hlow, (rfp3_toNat _).trans hlow⟩

/-! ## Control registers (rules R34, R35) -/

@[simp] theorem readCr_writeCr_same (c : CReg) (x : BitVec c.size.bits) (r : CtrlRegs) :
    readCr c (writeCr c x r) = x := by
  cases c with
  | intnest => rfl
  | dmas n | dmad n | dmac n | dmam n => obtain rfl | rfl | rfl | rfl := bank_number_cases n <;> rfl

theorem readCr_writeCr_other {c d : CReg} (h : d ≠ c) (x : BitVec c.size.bits) (r : CtrlRegs) :
    readCr d (writeCr c x r) = readCr d r := by
  cases c with
  | intnest =>
    cases d with
    | intnest => exact absurd rfl h
    | dmas m | dmad m | dmac m | dmam m => obtain rfl | rfl | rfl | rfl := bank_number_cases m <;> rfl
  | dmas n | dmad n | dmac n | dmam n =>
    obtain rfl | rfl | rfl | rfl := bank_number_cases n
    all_goals
      cases d with
      | intnest => rfl
      | dmas m | dmad m | dmac m | dmam m =>
        obtain rfl | rfl | rfl | rfl := bank_number_cases m <;> first | exact absurd rfl h | rfl

/-- Settles O51: LDC is one write, of the control register or of the general one. -/
theorem ldcForms : Obligations.LdcForms := by
  unfold Obligations.LdcForms
  refine fun cr r s => ⟨⟨_, rfl, ?value, fun other h => ?others, rfl, ?past⟩, fun hwf => ?read⟩
  case value => exact readCr_writeCr_same cr _ s.cr
  case others => exact readCr_writeCr_other h _ s.cr
  case past => exact past_of_pc (by simp [encode]) rfl
  case read => exact exec_regOnly (codeOf_legal hwf) (FlagsStep.refl s) rfl rfl (by simp [encode])

/-! ## Reset (rules R38, R39) -/

/-- Settles O9: no byte of memory holds a value at reset. -/
theorem invariantAtReset : Obligations.InvariantAtReset := ⟨reset_mem_wf, nofun⟩

theorem reset_regs_get {p : Place} (hp : p ≠ .xsp) : State.reset.regs.get p = 0#32 := by
  cases p with
  | bank n q => obtain rfl | rfl | rfl | rfl := bank_number_cases n <;> cases q <;> rfl
  | xsp => exact absurd rfl hp
  | xix | xiy | xiz => rfl

theorem reset_readCr (c : CReg) : readCr c State.reset.cr = 0 := by
  cases c with
  | intnest => rfl
  | dmas n | dmad n | dmac n | dmam n => obtain rfl | rfl | rfl | rfl := bank_number_cases n <;> rfl

theorem reset_launch_has (a : Nat) : State.reset.launch.has a = decide (a < 0x1000000) := by
  simp [State.reset, Launch.has, Region.has, Config.resetAddrBits]

/-- Settles O59: each value is the one that `State.reset` names. -/
theorem resetState : Obligations.ResetState := by
  unfold Obligations.ResetState
  exact ⟨rfl, rfl, rfl, rfl, rfl, fun _ => reset_regs_get, reset_readCr, rfl, rfl, rfl, fun _ => rfl, rfl,
    reset_launch_has, fun _ => rfl⟩

end Sys2Proof.Machine
end

section
/-! PROOFS. One step (20_memory.md R51, R56, R69, R77; 60_exceptions.md R322 to R325; 70_reset_and_hazards.md R346):
what a step can be, what every step keeps of memory, the launch and the requests, and what a fetch makes of the text
at `pc`. -/

namespace Sys2Proof.Machine

/-! ## What every step keeps -/

/-- The launch is kept, and memory is changed by stores alone. -/
structure StoresOnly (s t : State) : Prop where
  launch : t.launch = s.launch
  mem : MemStep s { s with mem := t.mem }

theorem DataStep.storesOnly {s t : State} (h : DataStep s t) : StoresOnly s t := ⟨h.control.launch, h.mem⟩

/-- Every instruction, a writer of control state too, leaves the launch and the requests and changes memory by its
stores alone (rules R77, R321, R345). -/
theorem exec_storesOnly {i : Instr} {s t : State} (h : exec i s = .next t) :
    StoresOnly s t ∧ t.pending = s.pending := by
  by_cases hi : ControlWriter i
  · cases hi
    all_goals
      obtain ⟨⟩ := h
      exact ⟨⟨rfl, MemStep.refl s⟩, rfl⟩
  · have hdata := exec_changesData hi s t h
    exact ⟨hdata.storesOnly, hdata.control.pending⟩

/-- An interrupt entry changes memory by its stores alone, and the launch not at all (rule R325, log entry 24). -/
theorem takeInterrupt_storesOnly {r : Request} {s t : State} (h : takeInterrupt r s = .next t) : StoresOnly s t := by
  obtain ⟨u, -, hu, rfl⟩ := takeInterrupt_eq_next h
  exact ⟨rfl, hu.eq ▸ hu⟩

theorem step_of_accepted {s : State} {r : Request} (h : acceptedRequest s = some r) : step s = takeInterrupt r s := by
  rw [step, h]

theorem step_of_halted {s : State} (h : interruptAccepted s = false) (hh : s.halted = true) : step s = .next s := by
  rw [step, acceptedRequest_eq_none.2 h]
  exact if_pos hh

theorem step_of_running {s : State} (h : interruptAccepted s = false) (hh : s.halted = false) :
    step s = andThen (fetch s) fun i => exec i s := by
  rw [step, acceptedRequest_eq_none.2 h]
  exact if_neg (by rw [hh]; exact Bool.false_ne_true)

/-- All that a step can be when it answers: an interrupt entry, the rest of a halted machine, or an instruction. -/
theorem step_eq_next {s t : State} (h : step s = .next t) :
    (interruptAccepted s = true ∧ ∃ r, takeInterrupt r s = .next t) ∨ t = s ∨ ∃ i, exec i s = .next t := by
  cases hacc : interruptAccepted s with
  | true =>
    cases hr : acceptedRequest s with
    | some r => exact .inl ⟨rfl, r, step_of_accepted hr ▸ h⟩
    | none => exact absurd (acceptedRequest_eq_none.1 hr) (by simp [hacc])
  | false =>
    cases hh : s.halted with
    | true =>
      rw [step_of_halted hacc hh] at h
      obtain ⟨⟩ := h
      exact .inr (.inl rfl)
    | false =>
      rw [step_of_running hacc hh] at h
      obtain ⟨i, -, hi⟩ := andThen_eq_next h
      exact .inr (.inr ⟨i, hi⟩)

/-- What every step keeps (rules R77, R321, R345). -/
theorem step_storesOnly {s t : State} (h : step s = .next t) :
    StoresOnly s t ∧ (interruptAccepted s = false → t.pending = s.pending) := by
  obtain ⟨hacc, r, hr⟩ | rfl | ⟨i, hi⟩ := step_eq_next h
  · exact ⟨takeInterrupt_storesOnly hr, fun hnot => absurd (hacc.symm.trans hnot) Bool.noConfusion⟩
  · exact ⟨⟨rfl, MemStep.refl t⟩, fun _ => rfl⟩
  · obtain ⟨hmem, hpending⟩ := exec_storesOnly hi
    exact ⟨hmem, fun _ => hpending⟩

theorem StoresOnly.inv {s t : State} (h : StoresOnly s t) (hs : s.Inv) : t.Inv := by
  obtain ⟨hwf, hcells⟩ := hs
  refine ⟨h.mem.wf hwf, fun c hc => ?_⟩
  rw [h.launch]
  exact (h.mem.cell c hc).elim (hcells c) id

/-- Settles O8: every step changes memory by stores alone, and each store reaches the byte that it writes. -/
theorem invariantKept : Obligations.InvariantKept := by
  unfold Obligations.InvariantKept
  exact fun s t hs h => (step_storesOnly h).1.inv hs

/-- Settles O10: no store changes a byte of the program text. -/
theorem textKept : Obligations.TextKept := by
  unfold Obligations.TextKept
  intro s t h
  obtain ⟨⟨hlaunch, hmem⟩, hpending⟩ := step_storesOnly h
  exact ⟨hlaunch, hpending, hmem.text⟩

/-! ## Fetch -/

theorem byteAddr_succ (a : Long) (k : Nat) : byteAddr (a + 1#32) k = byteAddr a (k + 1) := by
  rw [byteAddr, byteAddr, BitVec.add_assoc, Nat.add_comm, BitVec.ofNat_add]

/-- Text at `a` is its first byte, which can be fetched, and the text after it. -/
theorem textAt_cons {a : Long} {b : Byte} {bs : List Byte} {s : State} (h : TextAt a (b :: bs) s) :
    fetchByte a s = .next b ∧ TextAt (a + 1#32) bs s := by
  constructor
  · obtain ⟨hbits, hhas, htext, hread⟩ := h 0 (Nat.succ_pos _)
    rw [byteAddr_zero] at hbits hhas htext hread
    rw [fetchByte, if_pos htext, loadByte_of_present hbits hhas hread]
    rfl
  · intro k hk
    rw [byteAddr_succ]
    exact h (k + 1) (Nat.succ_lt_succ hk)

/-- The fetch window begins with the bytes that stand there as text. -/
theorem fetchWindow_of_textAt {bs : List Byte} {a : Long} {n : Nat} {s : State} (hn : bs.length ≤ n)
    (h : TextAt a bs s) : ∃ more, fetchWindow s n a = bs ++ more := by
  induction bs generalizing a n with
  | nil => exact ⟨_, rfl⟩
  | cons b bs ih =>
    obtain ⟨hb, htail⟩ := textAt_cons h
    cases n with
    | zero => exact absurd hn (Nat.not_succ_le_zero _)
    | succ n =>
      obtain ⟨more, hmore⟩ := ih (Nat.le_of_succ_le_succ hn) htail
      exact ⟨more, by rw [fetchWindow, hb, hmore, List.cons_append]⟩

/-- Bytes that decode are fetched as their instruction, whatever follows them (rule R101). -/
theorem fetch_of_decode {s : State} {bs rest : List Byte} {i : Instr} (hn : bs.length ≤ 7) (h : TextAt s.pc bs s)
    (hd : decode bs = .ok i rest) : fetch s = .next i := by
  obtain ⟨more, hmore⟩ := fetchWindow_of_textAt hn h
  rw [fetch, maxLength, hmore, front_decode.ok bs i rest more hd]

/-- Bytes that the decoder refuses stop the fetch under the same name, whatever follows them (rule R112). -/
theorem fetch_of_refuse {s : State} {bs : List Byte} {r : DecodeRefusal} (hn : bs.length ≤ 7) (h : TextAt s.pc bs s)
    (hd : decode bs = .refuse r) : fetch s = .refused (refusalOf r) := by
  obtain ⟨more, hmore⟩ := fetchWindow_of_textAt hn h
  rw [fetch, maxLength, hmore, front_decode.refuse bs r more hd]

/-- Outside the text nothing is fetched (rule R346, log entry 20). -/
theorem fetch_of_outsideText {s : State} (h : s.launch.inText s.pc.toNat = false) : fetch s = .fault .outsideText := by
  have hbyte : fetchByte s.pc s = .fault .outsideText := by rw [fetchByte, h]; rfl
  have hwindow : fetchWindow s maxLength s.pc = [] := by rw [maxLength, fetchWindow, hbyte]
  have hshort : decode [] = .short := rfl
  rw [fetch, hwindow, hshort]
  simp [hbyte]

/-- Settles O6: the fetch stops, and so does the step. -/
theorem stepStopsOnBadText : Obligations.StepStopsOnBadText := by
  unfold Obligations.StepStopsOnBadText
  intro s hacc hhalt
  rw [step_of_running hacc hhalt]
  refine ⟨fun bs r hn htext hd => ?refused, fun hout => ?outside⟩
  case refused => rw [fetch_of_refuse hn htext hd, andThen_refused]
  case outside => rw [fetch_of_outsideText hout, andThen_fault]

/-- Settles O5: the fetch answers the decoded instruction. -/
theorem stepRunsDecoded : Obligations.StepRunsDecoded := by
  unfold Obligations.StepRunsDecoded
  intro s bs i rest hacc hhalt hn htext hd
  rw [step_of_running hacc hhalt, fetch_of_decode hn htext hd, andThen_next]

end Sys2Proof.Machine
end

section
/-! PROOFS. Memory and addresses (20_memory.md R53 to R66, R77): a store and the load after it, a store that meets the
program text, and the effective address of every mode. -/

namespace Sys2Proof.Machine

/-! ## Stores -/

/-- Settles O16: the store keeps the launch, so the bytes it wrote are the bytes that a load reaches. -/
theorem storeThenLoad : Obligations.StoreThenLoad := by
  unfold Obligations.StoreThenLoad
  intro sz a v s hw
  obtain ⟨m, hm, hwrote⟩ := store_next_of_writable v hw
  have hreadable : Readable sz a v { s with mem := m } := ⟨hw.1, hwrote.1⟩
  exact ⟨_, hm, hwrote, load_of_readable hreadable, rfl⟩

/-- Settles O17: the store comes to its first byte that is program text, and that byte refuses it. -/
theorem storeIntoTextRefused : Obligations.StoreIntoTextRefused := by
  unfold Obligations.StoreIntoTextRefused
  intro sz a v s hp htext
  obtain ⟨hk, hin⟩ := Nat.find_spec htext
  have hbefore : ∀ j, j < Nat.find htext → ByteWritable (byteAddr a j) s := by
    intro j hj
    have hjk : j < sz.bytes := Nat.lt_trans hj hk
    exact ⟨(hp j hjk).1, (hp j hjk).2, Bool.eq_false_iff.2 fun e => Nat.find_min htext hj ⟨hjk, e⟩⟩
  refine (store_reaches_byte hk v hbefore).refused (storeByte_of_inText _ ?bits ?has ?text)
  case bits => rw [withBytes_launch]; exact (hp _ hk).1
  case has => rw [withBytes_launch]; exact (hp _ hk).2
  case text => rw [withBytes_launch]; exact hin

/-! ## Effective addresses -/

/-- Adding a sign-extended displacement is adding its integer, modulo 2^32 (rules R59, R64, R65, R93). -/
theorem add_sext32 {n : Nat} (a : Long) (d : BitVec n) : a + sext32 d = BitVec.ofInt 32 (a.toInt + d.toInt) := by
  rw [BitVec.ofInt_add, BitVec.ofInt_toInt]
  rfl

/-- Zero extension is the same number, when it is no truncation (rules R60 to R62, decision D31). -/
theorem zext32_toNat {n : Nat} (hn : n ≤ 32) (a : BitVec n) : (zext32 a).toNat = a.toNat :=
  BitVec.toNat_setWidth_of_le hn

/-- Settles O19, mode by mode. -/
theorem effectiveAddresses : Obligations.EffectiveAddresses := by
  unfold Obligations.EffectiveAddresses
  intro k r c d8 a8 d16 a16 a24 s
  exact ⟨rfl, add_sext32 _ _, zext32_toNat (by decide) a8, zext32_toNat (by decide) a16, zext32_toNat (by decide) a24,
    rfl, add_sext32 _ _, add_sext32 _ _, add_sext32 _ _, fun m hm => eaState_of_plain hm s⟩

theorem regOnly_writeReg {sz : Size} {c : RegCode} (hc : c.legal sz = true) (v : BitVec sz.bits) (s : State) :
    RegOnly sz c v s (writeReg sz c v s) :=
  ⟨onlyReg_writeReg hc v s, rfl, ⟨rfl, rfl, rfl, rfl, rfl, rfl, rfl⟩⟩

/-- Settles O20: the step is one write of the base register. -/
theorem steppingModes : Obligations.SteppingModes := by
  unfold Obligations.SteppingModes
  intro r z s step base
  have hstep : step = stepSize z := by cases z <;> rfl
  rw [hstep]
  exact ⟨⟨rfl, regOnly_writeReg (row_legal r) _ s, rfl, rfl⟩, ⟨rfl, regOnly_writeReg (row_legal r) _ s, rfl, rfl⟩⟩

end Sys2Proof.Machine
end

section
/-! PROOFS. LD, LDA, LDAR and EX with memory and addresses (20_memory.md R67, R68; 41_transfer.md R125 to R133;
42_exchange.md R141, R142): a store that ends an instruction, addresses as values, and registers that are exchanged. -/

namespace Sys2Proof.Machine

/-! ## Instructions that end in a store -/

section Stores

variable {i : Instr} {s : State} {sz : Size} {a : Long} {v : BitVec sz.bits} {n : Nat}

/-- A store in the state `e` that the effective address leaves. -/
theorem exec_store {e : State} (he : e.pc = s.pc) (hw : Writable sz a e)
    (hx : exec i s = andThen (store sz a v e) fun w => .next (advance n w)) (hl : (encode i).length = n) :
    ∃ t, exec i s = .next t ∧ MemOnly sz a v e t ∧ t.f = e.f ∧ Past i s t := by
  obtain ⟨w, hstore, hf, hpc, hmem⟩ := store_after_flags v (FlagsStep.refl e) hw
  rw [hstore, andThen_next] at hx
  exact ⟨_, hx, hmem n, hf, past_of_pc hl (by rw [advance_pc, hpc, he])⟩

/-- A store after the effective address of `m`, with the base register stepped (rule R68). -/
theorem exec_store_ea {m : Mode} (hw : Writable sz a s)
    (hx : exec i s = andThen (store sz a v (eaState m s)) fun w => .next (advance n w))
    (hl : (encode i).length = n) :
    ∃ t, exec i s = .next t ∧ MemOnly sz a v (eaState m s) t ∧ t.f = s.f ∧ Past i s t :=
  eaState_f s m ▸ exec_store (eaState_pc s m) (hw.congr (eaState_launch s m)) hx hl

/-- A datum read after the effective address of `m` and stored: memory to memory (rules R129, R130). -/
theorem exec_load_store_ea {m : Mode} {src : Long} (hv : Readable sz src v s) (hw : Writable sz a s)
    (hx : exec i s = andThen (load sz src (eaState m s)) fun x =>
      andThen (store sz a x (eaState m s)) fun w => .next (advance n w))
    (hl : (encode i).length = n) :
    ∃ t, exec i s = .next t ∧ MemOnly sz a v (eaState m s) t ∧ t.f = s.f ∧ Past i s t := by
  rw [load_ea hv, andThen_next] at hx
  exact exec_store_ea hw hx hl

end Stores

/-! ## LD -/

/-- Settles O22: the register is written in the state that the address step leaves. -/
theorem ldFromMemory : Obligations.LdFromMemory := by
  unfold Obligations.LdFromMemory
  intro sz R m v s hv
  have hx : exec (.ldRMem sz R m) s = .next (advance (memLen m 0) (writeR sz R v (eaState m s))) := by
    change execLdRMem sz R m s = _
    simp only [execLdRMem, load_ea hv, andThen_next]
  obtain ⟨t, ht, hreg, hf, hpast⟩ :=
    exec_regOnly (code3_legal sz R) (FlagsStep.refl (eaState m s)) (eaState_pc s m) hx (by simp [encode])
  exact ⟨t, ht, hreg, hf.trans (eaState_f s m), hpast⟩

/-- Settles O23: each form is one store, after the address step where it has a mode. -/
theorem ldIntoMemory : Obligations.LdIntoMemory := by
  unfold Obligations.LdIntoMemory
  simp only [BitVec.ofNat_toNat]
  refine fun m R s => ⟨?ldMemRB, ?ldMemRW, ?ldMemRL, ?ldMemImmB, ?ldMemImmW, ?ldDir8B, ?ldDir8W⟩
  case ldMemRB | ldMemRW | ldMemRL => exact fun hw => exec_store_ea hw rfl (by simp [encode])
  case ldMemImmB | ldMemImmW => exact fun _ hw => exec_store_ea hw rfl (by simp [encode])
  case ldDir8B | ldDir8W => exact fun _ _ hw => exec_store rfl hw rfl rfl

/-- Settles O24: each form is one load and one store, both after the address step. -/
theorem ldMemoryToMemory : Obligations.LdMemoryToMemory := by
  unfold Obligations.LdMemoryToMemory
  simp only [BitVec.ofNat_toNat]
  refine fun a m s => ⟨?ldDir16Mem, ?ldMemDir16B, ?ldMemDir16W⟩
  case ldDir16Mem => exact fun _ _ hv hw => exec_load_store_ea hv hw rfl (by simp [encode])
  case ldMemDir16B | ldMemDir16W => exact fun _ hv hw => exec_load_store_ea hv hw rfl (by simp [encode])

/-! ## Addresses as values -/

/-- An address relative to `pc` is a sum of integers, modulo 2^32 (rules R67, R93). -/
theorem pc_add_sext32 {n : Nat} (pc : Long) (k : Int) (d : BitVec n) :
    pc + BitVec.ofInt 32 k + sext32 d = BitVec.ofInt 32 (pc.toInt + k + d.toInt) := by
  rw [BitVec.ofInt_add, BitVec.ofInt_add, BitVec.ofInt_toInt]
  rfl

theorem low_word_ofInt (x : Int) : (BitVec.ofInt 32 x).setWidth 16 = BitVec.ofInt 16 x := by
  apply BitVec.eq_of_toNat_eq
  simp only [BitVec.toNat_setWidth, BitVec.toNat_ofInt, Nat.reducePow]
  omega

/-- Settles O25: each form is one register write; LDA goes on to it in a plain mode. -/
theorem loadAddress : Obligations.LoadAddress := by
  unfold Obligations.LoadAddress
  refine fun R s => ⟨fun m hm => ?ldaW, fun m hm => ?ldaL, fun d => ?ldarW, fun d => ?ldarL⟩
  case ldaW =>
    rw [BitVec.ofNat_toNat, BitVec.setWidth_eq_extractLsb' (by decide)]
    exact exec_regOnly (code3_legal .word R) (FlagsStep.refl s) rfl (ifPlain_of_plain hm _) (by simp [encode])
  case ldaL =>
    exact exec_regOnly (code3_legal .long R) (FlagsStep.refl s) rfl (ifPlain_of_plain hm _) (by simp [encode])
  case ldarW =>
    rw [← low_word_ofInt, ← pc_add_sext32]
    exact exec_regOnly (code3_legal .word R) (FlagsStep.refl s) rfl rfl rfl
  case ldarL =>
    rw [← pc_add_sext32, ← BitVec.setWidth_eq (s.pc + _ + _)]
    exact exec_regOnly (code3_legal .long R) (FlagsStep.refl s) rfl rfl rfl

/-! ## EX -/

/-- Two values that agree in the bytes of a part agree in that part (rule R21). -/
theorem getPart_congr {sz : Size} {c : RegCode} (h : c.legal sz = true) {v w : Long}
    (hb : ∀ o : BitVec 2, c.off.toNat ≤ o.toNat → o.toNat < c.off.toNat + sz.bytes →
      v.extractLsb' (8 * o.toNat) 8 = w.extractLsb' (8 * o.toNat) 8) :
    getPart sz c.off v = getPart sz c.off w := by
  cases sz with
  | byte => exact hb c.off (le_refl _) (Nat.lt_succ_self _)
  | word =>
    obtain e | e := RegCode.legal_word h
    · rw [e] at hb ⊢
      change v.extractLsb' 0 16 = w.extractLsb' 0 16
      rw [slice_word_eq_bytes, slice_word_eq_bytes]
      exact congrArg₂ (· ++ ·) (hb 1#2 (by decide) (by decide)) (hb 0#2 (by decide) (by decide))
    · rw [e] at hb ⊢
      change v.extractLsb' 16 16 = w.extractLsb' 16 16
      rw [slice_word_eq_bytes, slice_word_eq_bytes]
      exact congrArg₂ (· ++ ·) (hb 3#2 (by decide) (by decide)) (hb 2#2 (by decide) (by decide))
  | long =>
    rw [RegCode.legal_long h] at hb
    have hbyte : ∀ o : BitVec 2, byteOf v o.toNat = byteOf w o.toNat := fun o => hb o (Nat.zero_le _) (by
      have := o.isLt
      simp only [BitVec.toNat_ofNat, Size.bytes]
      omega)
    change v = w
    rw [← long_of_bytes v, ← long_of_bytes w]
    exact congrArg₂ (· ++ ·) (congrArg₂ (· ++ ·) (congrArg₂ (· ++ ·) (hbyte 3#2) (hbyte 2#2)) (hbyte 1#2)) (hbyte 0#2)

/-- Legal codes of one size at different offsets name parts that share no byte (rules R21, R25). -/
theorem parts_disjoint {sz : Size} {c d : RegCode} (hc : c.legal sz = true) (hd : d.legal sz = true)
    (h : d.off ≠ c.off) {o : BitVec 2} (h1 : d.off.toNat ≤ o.toNat) (h2 : o.toNat < d.off.toNat + sz.bytes) :
    ¬ (c.off.toNat ≤ o.toNat ∧ o.toNat < c.off.toNat + sz.bytes) := by
  have hne : d.off.toNat ≠ c.off.toNat := fun e => h (BitVec.eq_of_toNat_eq e)
  cases sz with
  | byte =>
    simp only [Size.bytes] at h2 ⊢
    omega
  | word =>
    obtain ec | ec := RegCode.legal_word hc <;> obtain ed | ed := RegCode.legal_word hd <;>
      simp only [ec, ed, ne_eq, not_true_eq_false, Size.bytes, BitVec.toNat_ofNat, Nat.reducePow, Nat.reduceMod]
        at h h1 h2 ⊢ <;>
      omega
  | long => exact absurd ((RegCode.legal_long hd).trans (RegCode.legal_long hc).symm) h

/-- A write leaves every other part of its size. -/
theorem readReg_writeReg_disjoint {sz : Size} {c d : RegCode} {s : State} (hc : c.legal sz = true)
    (hd : d.legal sz = true) (h : ¬ (placeOf s d.row = placeOf s c.row ∧ d.off = c.off)) (x : BitVec sz.bits) :
    readReg sz d (writeReg sz c x s) = readReg sz d s := by
  by_cases hp : placeOf s d.row = placeOf s c.row
  · have hoff : d.off ≠ c.off := fun e => h ⟨hp, e⟩
    rw [readReg, placeOf_writeReg, hp, writeReg_regs, Regs.get_set_same, readReg, hp]
    exact getPart_congr hd fun o h1 h2 => setPart_other hc (parts_disjoint hc hd hoff h1 h2) _ x
  · exact readReg_writeReg_other hp x

/-- Two codes that name one part read alike. -/
theorem readReg_of_same_part {sz : Size} {c d : RegCode} {s : State} (hp : placeOf s d.row = placeOf s c.row)
    (ho : d.off = c.off) : readReg sz d s = readReg sz c s := by
  rw [readReg, readReg, hp, ho]

/-- Two registers read, and each written with the other's value: they are exchanged, be they one register or two
(rule R141). -/
theorem exchange_regs {sz : Size} {c d : RegCode} (hc : c.legal sz = true) (hd : d.legal sz = true) {s t : State}
    (ht : t = writeReg sz d (readReg sz c s) (writeReg sz c (readReg sz d s) s)) :
    readReg sz c t = readReg sz d s ∧ readReg sz d t = readReg sz c s ∧
      ∀ p o, ¬ InPart s sz c p o → ¬ InPart s sz d p o → regByte t p o = regByte s p o := by
  have hplace : ∀ r, placeOf t r = placeOf s r := placeOf_congr (by rw [ht]; rfl)
  have hdt : readReg sz d t = readReg sz c s := by rw [ht, readReg_writeReg_same hd]
  refine ⟨?first, hdt, fun p o hpc hpd => ?frame⟩
  case first =>
    by_cases h : placeOf s c.row = placeOf s d.row ∧ c.off = d.off
    · obtain ⟨hp, ho⟩ := h
      have hpt : placeOf t c.row = placeOf t d.row := by rw [hplace, hplace, hp]
      rw [readReg_of_same_part hpt ho, hdt, readReg_of_same_part hp ho]
    · rw [ht, readReg_writeReg_disjoint hd hc (by rwa [placeOf_writeReg, placeOf_writeReg]),
        readReg_writeReg_same hc]
  case frame =>
    rw [ht, regByte_writeReg_other hd (by rwa [InPart, placeOf_writeReg]), regByte_writeReg_other hc hpc]

/-- What a write is seen to do depends on memory alone. -/
theorem Wrote.congr {sz : Size} {a : Long} {v : BitVec sz.bits} {s t s' t' : State} (h : Wrote sz a v s t)
    (hs : s'.mem = s.mem) (ht : t'.mem = t.mem) : Wrote sz a v s' t' := by
  obtain ⟨hholds, hother⟩ := h
  exact ⟨fun k hk => ht ▸ hholds k hk, fun b hb => by rw [hs, ht]; exact hother b hb⟩

/-- Settles O27: with a register both are read before either is written; with memory the datum is read, the register is
stored over it, and the datum is written to the register. -/
theorem exchangeData : Obligations.ExchangeData := by
  unfold Obligations.ExchangeData
  refine fun sz R s => ⟨fun r hwf => ?exRr, fun m v hv hw => ?exMemR⟩
  case exRr =>
    obtain ⟨hR, hr, hframe⟩ := exchange_regs (code3_legal sz.size R) (codeOf_legal (r := r) hwf) (s := s) rfl
    exact ⟨_, rfl, hR, hr, hframe, rfl, ⟨rfl, rfl, rfl, rfl, rfl, rfl, rfl⟩, rfl,
      past_of_pc (by simp [encode]) rfl⟩
  case exMemR =>
    obtain ⟨mem, hstore, hwrote⟩ :=
      store_next_of_writable (readR sz.size R (eaState m s)) (hw.congr (eaState_launch s m))
    have hx : exec (.exMemR sz m R) s =
        .next (advance (memLen m 0) (writeR sz.size R v { eaState m s with mem := mem })) := by
      change execExMemR sz m R s = _
      simp only [execExMemR, load_ea hv, hstore, andThen_next]
    exact ⟨_, hx, (onlyReg_writeReg (code3_legal _ R) v _).congr rfl rfl rfl rfl,
      hwrote.congr (eaState_mem s m).symm rfl,
      (DataStep.eaState m s).control.trans ⟨rfl, rfl, rfl, rfl, rfl, rfl, rfl⟩, eaState_f s m,
      past_of_pc (by simp [encode]) (congrArg (· + _) (eaState_pc s m))⟩

end Sys2Proof.Machine
end

section
/-! PROOFS. DIV and DIVS (44_arithmetic.md R193 to R200): when a quotient is given and what it is packed with, what
the shared division leaves, and the two statements. -/

namespace Sys2Proof.Machine

/-! ## Quotient and remainder (rules R196, R200) -/

theorem packDiv_low (sz : BW) (m q : Int) :
    (packDiv sz m q).extractLsb' 0 sz.size.bits = BitVec.ofInt sz.size.bits q := by
  cases sz <;> exact BitVec.extractLsb'_append_eq_right

theorem packDiv_high (sz : BW) (m q : Int) :
    (packDiv sz m q).extractLsb' sz.size.bits sz.size.bits = BitVec.ofInt sz.size.bits m := by
  cases sz <;> exact BitVec.extractLsb'_append_eq_left

theorem toNat_ofInt_natCast {n k : Nat} (h : k < 2 ^ n) : (BitVec.ofInt n (k : Int)).toNat = k := by
  rw [BitVec.ofInt_natCast, BitVec.toNat_ofNat, Nat.mod_eq_of_lt h]

theorem divU_eq (n a d : Nat) : divU n a d = if d = 0 ∨ 2 ^ n ≤ a / d then none else some (a / d, a % d) := by
  rw [divU, Nat.mod_eq_sub_div_mul]

theorem divS_eq (n : Nat) (a d : Int) :
    divS n a d = if d = 0 ∨ fitsSigned n (a.tdiv d) = false then none else some (a.tdiv d, a.tmod d) := by
  have hfits : fitsSigned n (a.tdiv d) = false ↔ a.tdiv d < -2 ^ (n - 1) ∨ 2 ^ (n - 1) - 1 < a.tdiv d := by
    rw [fitsSigned, Bool.and_eq_false_iff, decide_eq_false_iff_not, decide_eq_false_iff_not]
    omega
  simp only [divS, hfits, Int.tmod_def, Int.mul_comm d]

/-- The integer in the lower or the upper half of the result, when it is in the signed range. -/
theorem toInt_ofInt_of_fits {n : Nat} (hn : 0 < n) {x : Int} (h : fitsSigned n x = true) :
    (BitVec.ofInt n x).toInt = x := by
  simp only [fitsSigned, Bool.and_eq_true, decide_eq_true_eq] at h
  exact BitVec.toInt_ofInt_eq_self hn h.1 h.2

/-- A remainder is in the signed range of its divisor. -/
theorem fitsSigned_tmod {n : Nat} (a : Int) {d : BitVec n} (hd : d.toInt ≠ 0) :
    fitsSigned n (a.tmod d.toInt) = true := by
  have hlow := BitVec.le_toInt d
  have hhigh := BitVec.toInt_le (x := d)
  have habs : (a.tmod d.toInt).natAbs < d.toInt.natAbs := by
    rw [Int.natAbs_tmod]
    exact Nat.mod_lt _ (Int.natAbs_pos.2 hd)
  simp only [fitsSigned, Bool.and_eq_true, decide_eq_true_eq]
  omega

theorem toNat_eq_zero_iff {n : Nat} {d : BitVec n} : d.toNat = 0 ↔ d = 0 := by
  rw [← BitVec.toNat_inj, BitVec.ofNat_eq_ofNat, BitVec.toNat_ofNat, Nat.zero_mod]

theorem toInt_eq_zero_iff {n : Nat} {d : BitVec n} : d.toInt = 0 ↔ d = 0 := by
  rw [← BitVec.toInt_inj, BitVec.ofNat_eq_ofNat, BitVec.toInt_zero]

/-- A quotient that fits is given, and packed with its remainder. -/
theorem quotient_of_fits {sz : BW} {signed : Bool} {a : BitVec sz.double.bits} {d : BitVec sz.size.bits}
    (h : QuotientFits sz signed a d) :
    ∃ q m, quotient sz signed a d = some (q, m) ∧ QuotientIn sz signed a d (packDiv sz m q) := by
  cases signed with
  | true =>
    obtain ⟨hd, hq⟩ : d ≠ 0 ∧ fitsSigned sz.size.bits (a.toInt.tdiv d.toInt) = true := h
    have hdi : d.toInt ≠ 0 := fun e => hd (toInt_eq_zero_iff.1 e)
    have hn : 0 < sz.size.bits := by cases sz <;> decide
    refine ⟨a.toInt.tdiv d.toInt, a.toInt.tmod d.toInt, ?_, ?_, ?_⟩
    · exact (divS_eq _ _ _).trans (if_neg (by simp [hdi, hq]))
    · rw [packDiv_low, toInt_ofInt_of_fits hn hq]
    · rw [packDiv_high, toInt_ofInt_of_fits hn (fitsSigned_tmod _ hdi)]
  | false =>
    obtain ⟨hd, hq⟩ : d ≠ 0 ∧ a.toNat / d.toNat < 2 ^ sz.size.bits := h
    have hdn : d.toNat ≠ 0 := fun e => hd (toNat_eq_zero_iff.1 e)
    have hm : a.toNat % d.toNat < 2 ^ sz.size.bits :=
      Nat.lt_trans (Nat.mod_lt _ (Nat.pos_of_ne_zero hdn)) d.isLt
    refine ⟨(a.toNat / d.toNat : Nat), (a.toNat % d.toNat : Nat), ?_, ?_, ?_⟩
    · change (divU _ _ _).map _ = _
      rw [divU_eq, if_neg (not_or.2 ⟨hdn, Nat.not_le.2 hq⟩)]
      rfl
    · rw [packDiv_low, toNat_ofInt_natCast hq]
    · rw [packDiv_high, toNat_ofInt_natCast hm]

theorem quotient_of_not_fits {sz : BW} {signed : Bool} {a : BitVec sz.double.bits} {d : BitVec sz.size.bits}
    (h : ¬ QuotientFits sz signed a d) : quotient sz signed a d = none := by
  cases signed with
  | true =>
    have h' : ¬ (d ≠ 0 ∧ fitsSigned sz.size.bits (a.toInt.tdiv d.toInt) = true) := h
    rw [not_and_or, not_not, Bool.not_eq_true, ← toInt_eq_zero_iff] at h'
    exact (divS_eq _ _ _).trans (if_pos h')
  | false =>
    have h' : ¬ (d ≠ 0 ∧ a.toNat / d.toNat < 2 ^ sz.size.bits) := h
    rw [not_and_or, not_not, Nat.not_lt, ← toNat_eq_zero_iff] at h'
    change (divU _ _ _).map _ = _
    rw [divU_eq, if_pos h']
    rfl

/-! ## DIV and DIVS -/

theorem flagsStep_setFlags (f : Flags) (s : State) : FlagsStep s { s with f := f } :=
  ⟨rfl, rfl, rfl, ⟨rfl, rfl, rfl, rfl, rfl, rfl, rfl⟩⟩

theorem flagsStep_drawn_setFlags (k : Nat) (f : Flags) (s : State) : FlagsStep s (drawn k { s with f := f }) :=
  ⟨rfl, rfl, rfl, ⟨rfl, rfl, rfl, rfl, rfl, rfl, rfl⟩⟩

section Divide

variable {sz : BW} {signed : Bool} {c : RegCode} {d : BitVec sz.size.bits} {s : State}

theorem divide_of_some {q m : Int} (h : quotient sz signed (readReg sz.double c s) d = some (q, m)) :
    divide sz signed c d s = writeReg sz.double c (packDiv sz m q) { s with f := { s.f with v := false } } := by
  rw [divide, h]

theorem divide_of_none (h : quotient sz signed (readReg sz.double c s) d = none) :
    divide sz signed c d s =
      writeReg sz.double c (undefVal sz.double.bits 0 s) (drawn 1 { s with f := { s.f with v := true } }) := by
  rw [divide, h]

/-- `divide` leaves what the statements ask of DIV and DIVS. -/
theorem divided_divide (hc : c.legal sz.double = true) (len : Nat) :
    Divided sz signed c d s (advance len (divide sz signed c d s)) := by
  refine ⟨fun hfits => ?fits, fun hnot => ?overflow⟩
  case fits =>
    obtain ⟨q, m, hq, hin⟩ := quotient_of_fits hfits
    rw [divide_of_some hq]
    exact ⟨_, hin, regOnly_write hc _ (flagsStep_setFlags _ s) len, rfl⟩
  case overflow =>
    rw [divide_of_none (quotient_of_not_fits hnot)]
    exact ⟨_, regOnly_write hc _ (flagsStep_drawn_setFlags 1 _ s) len, rfl⟩

end Divide

theorem divide_pc (sz : BW) (signed : Bool) (c : RegCode) (d : BitVec sz.size.bits) (s : State) :
    (divide sz signed c d s).pc = s.pc := by
  unfold divide
  split <;> rfl

section Division

variable {i : Instr} {s : State} {sz : BW} {signed : Bool} {c : RegCode} {d : BitVec sz.size.bits} {n : Nat}

/-- A division in the state `e` that the effective address leaves. -/
theorem exec_divide {e : State} (hc : c.legal sz.double = true) (he : e.pc = s.pc)
    (hx : exec i s = withDividend sz c (.next (advance n (divide sz signed c d e))))
    (hl : (encode i).length = n) :
    ∃ t, exec i s = .next t ∧ Divided sz signed c d e t ∧ Past i s t :=
  ⟨_, hx.trans (withDividend_of_legal hc _), divided_divide hc n,
    past_of_pc hl (by rw [advance_pc, divide_pc, he])⟩

theorem exec_divideRMem {R : R3} {m : Mode} (hR : R3.dividend sz R = true) (hd : Readable sz.size (eaAddr m s) d s)
    (hx : exec i s = divideRMem signed sz R m s) (hl : (encode i).length = memLen m 0) :
    ∃ t, exec i s = .next t ∧ Divided sz signed (code3 sz.size R) d (eaState m s) t ∧ Past i s t := by
  simp only [divideRMem, load_ea hd, andThen_next] at hx
  exact exec_divide (dividend_legal hR) (eaState_pc s m) hx hl

end Division

/-- Settles O39: each form names a dividend and divides unsigned. -/
theorem divForms : Obligations.DivForms := by
  unfold Obligations.DivForms
  refine fun s => ⟨fun sz R r hwf => ?divRr, fun rr v hwf => ?divrImm, fun sz R m d hwf hd => ?divRMem⟩
  case divRr => exact exec_divide (dividend_legal (Bool.and_eq_true_iff.1 hwf).1) rfl rfl (by simp [encode])
  case divrImm => exact exec_divide (codeOf_dividend_legal hwf) rfl rfl (by simp [encode])
  case divRMem => exact exec_divideRMem (Bool.and_eq_true_iff.1 hwf).1 hd rfl (by simp [encode])

/-- Settles O40: each form names a dividend and divides signed. -/
theorem divsForms : Obligations.DivsForms := by
  unfold Obligations.DivsForms
  refine fun s => ⟨fun sz R r hwf => ?divsRr, fun rr v hwf => ?divsrImm, fun sz R m d hwf hd => ?divsRMem⟩
  case divsRr => exact exec_divide (dividend_legal (Bool.and_eq_true_iff.1 hwf).1) rfl rfl (by simp [encode])
  case divsrImm => exact exec_divide (codeOf_dividend_legal hwf) rfl rfl (by simp [encode])
  case divsRMem => exact exec_divideRMem (Bool.and_eq_true_iff.1 hwf).1 hd rfl (by simp [encode])

end Sys2Proof.Machine
end

section
/-! PROOFS. AND, LDCF and ANDCF on memory, and the calls (45_logic.md R218; 46_bit.md R222 to R234; 20_memory.md R78;
49_jump_call.md R295 to R298): one lemma for each shape that several forms run, and the statements. -/

namespace Sys2Proof.Machine

/-! ## AND (rule R218) -/

/-- An answer of AND with the flags of its result. -/
theorem and_flags {i : Instr} {s e : State} {sz : Size} {x : BitVec sz.bits} {P : State → Prop}
    (h : ∃ t, exec i s = .next t ∧ P t ∧ t.f = (andFlags sz x e).f ∧ Past i s t) :
    ∃ t, exec i s = .next t ∧ P t ∧ AndFlags sz x t.f ∧ Past i s t := by
  obtain ⟨t, ht, hP, hf, hpast⟩ := h
  exact ⟨t, ht, hP, hf ▸ andFlags_andFlags sz x e, hpast⟩

/-- Settles O41: each form runs its shape with AND. -/
theorem andForms : Obligations.AndForms := by
  unfold Obligations.AndForms
  refine fun s => ⟨?andRr, ?andrImm, ?andRMem, ?andMemR, ?andMemImm⟩
  case andRr => exact fun sz _ _ => and_flags (exec_opRr (flagsStep_andOp sz) rfl (by simp [encode]))
  case andrImm => exact fun _ v hwf => and_flags (exec_oprImm hwf (flagsStep_andOp v.size) rfl (by simp [encode]))
  case andRMem => exact fun sz _ _ _ hv => and_flags (exec_opRMem hv (flagsStep_andOp sz) rfl (by simp [encode]))
  case andMemR => exact fun sz _ _ _ hv hw => and_flags (exec_opMem hv hw (flagsStep_andOp sz) rfl (by simp [encode]))
  case andMemImm =>
    exact fun _ i _ hv hw =>
      and_flags (exec_opMem (b := fun _ => i.value) hv hw (flagsStep_andOp i.bw.size) rfl (by simp [encode]))

/-! ## LDCF and ANDCF on a byte of memory (rule R234) -/

theorem numberInA_eq (s : State) : numberInA s = (readReg .byte codeA s).toNat % 16 := by
  simp [numberInA]

/-- With a number inside the operand, C is the stated value. -/
theorem CarryFrom.eq_of_lt {sz : Size} {v : BitVec sz.bits} {num : Nat} {keep : Bool} {f g : Flags}
    (h : CarryFrom sz v num keep f g) (hn : num < sz.bits) :
    g = { f with c := if keep then f.c && v.getLsbD num else v.getLsbD num } := by
  obtain ⟨c, hc, rfl⟩ := h
  rw [hc hn]

/-- C from the byte `v` in memory; `num` gives the bit number in the stepped state. -/
theorem exec_carryFromMem {i : Instr} {s : State} {m : Mode} {v : Byte} {num : State → Nat} {keep : Bool}
    (hv : Readable .byte (eaAddr m s) v s)
    (hx : exec i s = withMemByte m (fun w u => carryFromBit .byte w (num u) keep u) s)
    (hl : (encode i).length = memLen m 0) :
    ∃ t, exec i s = .next t ∧ Untouched (eaState m s) t ∧
      CarryFrom .byte v (num (eaState m s)) keep s.f t.f ∧ Past i s t := by
  have hframe := flagsStep_carryFromBit .byte v (num (eaState m s)) keep (eaState m s)
  have hflags := carryFrom_carryFromBit .byte v (num (eaState m s)) keep (eaState m s)
  rw [eaState_f] at hflags
  exact ⟨_, hx.trans (withMemByte_next hv), untouched_of_flagsStep hframe _, hflags,
    past_of_pc hl (by rw [advance_pc, hframe.pc, eaState_pc])⟩

/-- The forms with a 3-bit number, which lies in the byte. -/
theorem exec_carryFromMem3 {i : Instr} {s : State} {m : Mode} {v : Byte} {n : BitVec 3} {keep : Bool}
    (hv : Readable .byte (eaAddr m s) v s)
    (hx : exec i s = withMemByte m (fun w u => carryFromBit .byte w n.toNat keep u) s)
    (hl : (encode i).length = memLen m 0) :
    ∃ t, exec i s = .next t ∧ Untouched (eaState m s) t ∧
      t.f = { s.f with c := if keep then s.f.c && v.getLsbD n.toNat else v.getLsbD n.toNat } ∧ Past i s t := by
  obtain ⟨t, ht, hsame, hflags, hpast⟩ := exec_carryFromMem (num := fun _ => n.toNat) hv hx hl
  exact ⟨t, ht, hsame, hflags.eq_of_lt n.isLt, hpast⟩

/-- Settles O44: each form reads the byte after the address step and writes C alone. -/
theorem carryFromMemoryBit : Obligations.CarryFromMemoryBit := by
  unfold Obligations.CarryFromMemoryBit
  intro m v s hv
  rw [← numberInA_eq]
  refine ⟨fun n => ?ldcf3, fun n => ?andcf3, ?ldcfA, ?andcfA⟩
  case ldcf3 => exact exec_carryFromMem3 (keep := false) hv rfl (by simp [encode])
  case andcf3 => exact exec_carryFromMem3 (keep := true) hv rfl (by simp [encode])
  case ldcfA | andcfA => exact exec_carryFromMem hv rfl (by simp [encode])

/-! ## Calls (rules R78, R295 to R298) -/

/-- A call that can push answers: XSP stands 4 lower, on the return address, and `pc` at the target. -/
theorem callTo_next (len : Nat) (target : Long) {s : State} {sp : Long}
    (hsp : sp = readReg .long ⟨.xsp, 0#2⟩ s - 4#32) (hw : Writable .long sp s) :
    ∃ t, callTo len target s = .next t ∧ OnlyReg .long ⟨.xsp, 0#2⟩ sp s t ∧
      Wrote .long sp (s.pc + BitVec.ofNat 32 len) s t ∧ SameControl s t ∧ t.f = s.f ∧ t.pc = target := by
  obtain ⟨m, hstore, hwrote⟩ := store_next_of_writable (sz := .long) (s := writeRow .xsp sp s)
    (s.pc + BitVec.ofNat 32 len) hw
  have hpush : pushLong (s.pc + BitVec.ofNat 32 len) s = .next { writeRow .xsp sp s with mem := m } := by
    rw [hsp] at hstore ⊢
    exact hstore
  refine ⟨jumpTo target { writeRow .xsp sp s with mem := m }, ?answer, ?xsp, ?pushed, ?control, rfl, rfl⟩
  case answer => rw [callTo, hpush, andThen_next]
  case xsp => exact (onlyReg_writeReg (row_legal .xsp) sp s).congr rfl rfl rfl rfl
  case pushed => exact hwrote.congr rfl rfl
  case control => exact ⟨rfl, rfl, rfl, rfl, rfl, rfl, rfl⟩

/-- Settles O54: each form is one call, past its own bytes. -/
theorem directCalls : Obligations.DirectCalls := by
  unfold Obligations.DirectCalls
  intro s sp hw
  simp only [BitVec.ofNat_toNat, ← pc_add_sext32]
  exact ⟨fun a => callTo_next 3 (zext32 a) rfl hw, fun a => callTo_next 4 (zext32 a) rfl hw,
    fun d => callTo_next 3 (s.pc + 3#32 + sext32 d) rfl hw⟩

/-- Settles O55: a plain mode goes on, and the condition decides between the call and going on. -/
theorem callMemory : Obligations.CallMemory := by
  unfold Obligations.CallMemory
  intro cc m s hm sp
  have hl : (encode (.callMem cc m)).length = memLen m 0 := by simp [encode]
  have hx : exec (.callMem cc m) s = if condTrue cc s.f then callTo (memLen m 0) (eaAddr m s) s
      else .next (advance (memLen m 0) s) := ifPlain_of_plain hm _
  refine ⟨fun hcc hw => ?taken, fun hcc => ?untaken⟩
  case taken =>
    rw [hx, if_pos hcc, hl]
    exact callTo_next _ _ rfl hw
  case untaken =>
    rw [hx, if_neg (Bool.eq_false_iff.1 hcc)]
    exact ⟨_, rfl, rfl, past_of_pc hl rfl⟩

end Sys2Proof.Machine
end

section
/-! PROOFS. The readers of the decoder (30_encoding.md R81 to R96, R112): the fields of a byte, the codes and their
names, and what each reader of operands and addressing modes reads, takes and decides. -/

namespace Sys2Proof

/-! ## Fields of a byte -/

@[simp] theorem hi5_append (h : BitVec 5) (k : BitVec 3) : hi5 (h ++ k) = h := BitVec.extractLsb'_append_eq_left
@[simp] theorem lo3_append (h : BitVec 5) (k : BitVec 3) : lo3 (h ++ k) = k := BitVec.extractLsb'_append_eq_right
@[simp] theorem hi4_append (h k : BitVec 4) : hi4 (h ++ k) = h := BitVec.extractLsb'_append_eq_left
@[simp] theorem lo4_append (h k : BitVec 4) : lo4 (h ++ k) = k := BitVec.extractLsb'_append_eq_right
@[simp] theorem hi6_append (h : BitVec 6) (k : BitVec 2) : hi6 (h ++ k) = h := BitVec.extractLsb'_append_eq_left
@[simp] theorem lo2_append (h : BitVec 6) (k : BitVec 2) : lo2 (h ++ k) = k := BitVec.extractLsb'_append_eq_right

@[simp] theorem bit3_append (h : BitVec 1) (k : BitVec 3) : (h ++ k).extractLsb' 3 1 = h :=
  BitVec.extractLsb'_append_eq_left
@[simp] theorem low3_append (h : BitVec 1) (k : BitVec 3) : (h ++ k).extractLsb' 0 3 = k :=
  BitVec.extractLsb'_append_eq_right

theorem bit3_append_low3 (x : BitVec 4) : x.extractLsb' 3 1 ++ x.extractLsb' 0 3 = x :=
  (BitVec.extractLsb'_append_extractLsb'_eq_extractLsb' rfl).trans BitVec.extractLsb'_eq_self

theorem hi5_append_lo3 (b : Byte) : hi5 b ++ lo3 b = b :=
  (BitVec.extractLsb'_append_extractLsb'_eq_extractLsb' rfl).trans BitVec.extractLsb'_eq_self
theorem exists_append_byte (b : Byte) : ∃ (h : BitVec 5) (k : BitVec 3), b = h ++ k :=
  ⟨hi5 b, lo3 b, (hi5_append_lo3 b).symm⟩

theorem hi4_append_lo4 (b : Byte) : hi4 b ++ lo4 b = b :=
  (BitVec.extractLsb'_append_extractLsb'_eq_extractLsb' rfl).trans BitVec.extractLsb'_eq_self

theorem hi6_append_lo2 (b : Byte) : hi6 b ++ lo2 b = b :=
  (BitVec.extractLsb'_append_extractLsb'_eq_extractLsb' rfl).trans BitVec.extractLsb'_eq_self

/-! ## Field codes and their names -/

theorem sizeOfCode_eq_some {zz : BitVec 2} {sz : Size} (h : sizeOfCode zz = some sz) : codeOfSize sz = zz := by
  revert zz sz; decide

@[simp] theorem sizeOfCode_codeOfSize (sz : Size) : sizeOfCode (codeOfSize sz) = some sz := by cases sz <;> rfl

theorem rowOfCode_eq_some {c : BitVec 6} {r : Row} (h : rowOfCode c = some r) : codeOfRow r = c := by
  revert c r; decide

@[simp] theorem rowOfCode_codeOfRow (r : Row) : rowOfCode (codeOfRow r) = some r := by
  cases r with
  | bank b q =>
    cases b with
    | num n => cases q <;> revert n <;> decide
    | prev | cur => cases q <;> rfl
  | xix | xiy | xiz | xsp => rfl

theorem regOfCode_eq_some {b : Byte} {c : RegCode} (h : regOfCode b = some c) : codeOfReg c = b := by
  obtain ⟨r, hr, rfl⟩ := Option.map_eq_some_iff.1 h
  rw [codeOfReg, rowOfCode_eq_some hr, hi6_append_lo2]

@[simp] theorem regOfCode_codeOfReg (c : RegCode) : regOfCode (codeOfReg c) = some c := by
  simp [regOfCode, codeOfReg]

theorem stepOfCode_eq_some {zz : BitVec 2} {z : Step} (h : stepOfCode zz = some z) : codeOfStep z = zz := by
  revert zz z; decide

@[simp] theorem stepOfCode_codeOfStep (z : Step) : stepOfCode (codeOfStep z) = some z := by cases z <;> rfl

@[simp] theorem codeOfCond_condOfCode (c : BitVec 4) : codeOfCond (condOfCode c) = c := by revert c; decide

@[simp] theorem condOfCode_codeOfCond (cc : Cond) : condOfCode (codeOfCond cc) = cc := by cases cc <;> rfl

theorem cregOfCode_eq_some {sz : Size} {b : Byte} {c : CReg} (h : cregOfCode sz b = some c) :
    c.size = sz ∧ codeOfCReg c = b := by
  cases sz <;> revert b c <;> decide

@[simp] theorem cregOfCode_codeOfCReg (c : CReg) : cregOfCode c.size (codeOfCReg c) = some c := by
  cases c with
  | dmas n | dmad n | dmac n | dmam n => revert n; decide
  | intnest => rfl

/-! ## Readers -/

@[simp] theorem Parsed.bind_ok {α β : Type} (a : α) (rest : List Byte) (k : α → List Byte → Parsed β) :
    (Parsed.ok a rest).bind k = k a rest := rfl

/-- After the bytes `pre`, `f` reads the rest of `e a`, the encoding of a value that is `P`; it takes at most `n` bytes,
and on `n` bytes it decides. -/
structure Reads {α : Type} (pre : List Byte) (n : Nat) (e : α → List Byte) (P : α → Prop)
    (f : List Byte → Parsed α) : Prop where
  sound : ∀ {bs a rest}, f bs = .ok a rest → P a ∧ pre ++ bs = e a ++ rest
  takes : ∀ {bs a rest}, f bs = .ok a rest → bs.length ≤ rest.length + n
  decides : ∀ {bs}, n ≤ bs.length → f bs ≠ .short

namespace Reads

variable {α β : Type} {pre : List Byte} {n : Nat} {e : α → List Byte} {P : α → Prop}

theorem refuse (r : DecodeRefusal) : Reads pre n e P fun _ => .refuse r := ⟨nofun, nofun, nofun⟩

theorem ok {a : α} (hP : P a) (he : pre = e a) : Reads pre n e P fun bs => .ok a bs where
  sound | rfl => ⟨hP, he ▸ rfl⟩
  takes | rfl => Nat.le_add_right _ _
  decides := nofun

/-- One reader and then another, which stands after what the first has read. -/
theorem bind {m : Nat} {d : β → List Byte} {Q : β → Prop} {g : List Byte → Parsed β} {k : β → List Byte → Parsed α}
    (hg : Reads [] m d Q g) (hm : m ≤ n) (hk : ∀ b, Q b → Reads (pre ++ d b) (n - m) e P (k b)) :
    Reads pre n e P fun bs => (g bs).bind k where
  sound {bs a rest} h := by
    cases hr : g bs with
    | ok b mid =>
      obtain ⟨hQ, hbs⟩ := hg.sound hr
      rw [hr] at h
      rw [← ((hk b hQ).sound h).2, List.append_assoc, ← hbs]
      exact ⟨((hk b hQ).sound h).1, rfl⟩
    | short | refuse => rw [hr] at h; cases h
  takes {bs a rest} h := by
    cases hr : g bs with
    | ok b mid =>
      rw [hr] at h
      have hfirst := hg.takes hr
      have hthen := (hk b (hg.sound hr).1).takes h
      omega
    | short | refuse => rw [hr] at h; cases h
  decides {bs} hn h := by
    cases hr : g bs with
    | ok b mid =>
      rw [hr] at h
      have hfirst := hg.takes hr
      exact (hk b (hg.sound hr).1).decides (by omega) h
    | short => exact hg.decides (by omega) hr
    | refuse => rw [hr] at h; cases h

theorem ite {c : Prop} [Decidable c] {f g : List Byte → Parsed α} (hf : c → Reads pre n e P f)
    (hg : ¬ c → Reads pre n e P g) : Reads pre n e P fun bs => if c then f bs else g bs := by
  by_cases h : c
  · simpa only [if_pos h] using hf h
  · simpa only [if_neg h] using hg h

end Reads

/-! ## Operand bytes -/

theorem takeByte_reads : Reads [] 1 (fun b => [b]) (fun _ => True) takeByte where
  sound {bs b rest} h := by
    cases bs with
    | nil => cases h
    | cons => cases h; exact ⟨trivial, rfl⟩
  takes {bs b rest} h := by
    cases bs with
    | nil => cases h
    | cons => cases h; exact le_rfl
  decides {bs} hn h := by
    cases bs with
    | nil => cases hn
    | cons => cases h

theorem takeWord_eq : takeWord = fun bs => (takeByte bs).bind fun b0 bs => (takeByte bs).bind fun b1 bs =>
    .ok (b1 ++ b0) bs := by
  funext bs
  rcases bs with _ | ⟨b0, _ | ⟨b1, bs⟩⟩ <;> rfl

theorem take24_eq : take24 = fun bs => (takeByte bs).bind fun b0 bs => (takeWord bs).bind fun w bs =>
    .ok (w ++ b0) bs := by
  funext bs
  rcases bs with _ | ⟨b0, _ | ⟨b1, _ | ⟨b2, bs⟩⟩⟩ <;> rfl

theorem takeLong_eq : takeLong = fun bs => (takeByte bs).bind fun b0 bs => (take24 bs).bind fun w bs =>
    .ok (w ++ b0) bs := by
  funext bs
  rcases bs with _ | ⟨b0, _ | ⟨b1, _ | ⟨b2, _ | ⟨b3, bs⟩⟩⟩⟩ <;> rfl

theorem extract_append_low {m n : Nat} (w : BitVec m) (b : BitVec n) (i : Nat) :
    (w ++ b).extractLsb' (n + i) 8 = w.extractLsb' i 8 := by
  rw [BitVec.extractLsb'_append_eq_of_le (Nat.le_add_right n i), Nat.add_sub_cancel_left]

theorem wordBytes_append (b1 b0 : Byte) : wordBytes (b1 ++ b0) = [b0, b1] :=
  congrArg₂ (fun x y => [x, y]) BitVec.extractLsb'_append_eq_right BitVec.extractLsb'_append_eq_left

theorem bytes24_append (w : Word) (b : Byte) : bytes24 (w ++ b) = b :: wordBytes w :=
  congr (congrArg₂ (fun x y z => [x, y, z]) BitVec.extractLsb'_append_eq_right (extract_append_low w b 0))
    (extract_append_low w b 8)

theorem longBytes_append (w : BitVec 24) (b : Byte) : longBytes (w ++ b) = b :: bytes24 w :=
  congr (congr (congrArg₂ (fun x y z u => [x, y, z, u]) BitVec.extractLsb'_append_eq_right (extract_append_low w b 0))
    (extract_append_low w b 8)) (extract_append_low w b 16)

theorem takeWord_reads : Reads [] 2 wordBytes (fun _ => True) takeWord :=
  takeWord_eq ▸ takeByte_reads.bind (by decide) fun b0 _ => takeByte_reads.bind (by decide) fun b1 _ =>
    .ok trivial (wordBytes_append b1 b0).symm

theorem take24_reads : Reads [] 3 bytes24 (fun _ => True) take24 :=
  take24_eq ▸ takeByte_reads.bind (by decide) fun b _ => takeWord_reads.bind (by decide) fun w _ =>
    .ok trivial (bytes24_append w b).symm

theorem takeLong_reads : Reads [] 4 longBytes (fun _ => True) takeLong :=
  takeLong_eq ▸ takeByte_reads.bind (by decide) fun b _ => take24_reads.bind (by decide) fun w _ =>
    .ok trivial (longBytes_append w b).symm

@[simp] theorem takeByte_cons (b : Byte) (rest : List Byte) : takeByte (b :: rest) = .ok b rest := rfl

@[simp] theorem takeWord_wordBytes (v : Word) (rest : List Byte) : takeWord (wordBytes v ++ rest) = .ok v rest := by
  have hv : v.extractLsb' 8 8 ++ v.extractLsb' 0 8 = v :=
    (BitVec.extractLsb'_append_extractLsb'_eq_extractLsb' rfl).trans BitVec.extractLsb'_eq_self
  exact congrArg (Parsed.ok · rest) hv

@[simp] theorem take24_bytes24 (v : BitVec 24) (rest : List Byte) : take24 (bytes24 v ++ rest) = .ok v rest := by
  have hv : v.extractLsb' 16 8 ++ v.extractLsb' 8 8 ++ v.extractLsb' 0 8 = v := by
    rw [BitVec.extractLsb'_append_extractLsb'_eq_extractLsb' (show 16 = 8 + 8 from rfl)]
    exact (BitVec.extractLsb'_append_extractLsb'_eq_extractLsb' rfl).trans BitVec.extractLsb'_eq_self
  exact congrArg (Parsed.ok · rest) hv

@[simp] theorem takeLong_longBytes (v : Long) (rest : List Byte) : takeLong (longBytes v ++ rest) = .ok v rest := by
  have hv : v.extractLsb' 24 8 ++ v.extractLsb' 16 8 ++ v.extractLsb' 8 8 ++ v.extractLsb' 0 8 = v := by
    rw [BitVec.extractLsb'_append_extractLsb'_eq_extractLsb' (show 24 = 16 + 8 from rfl),
      BitVec.extractLsb'_append_extractLsb'_eq_extractLsb' (show 16 = 8 + 8 from rfl)]
    exact (BitVec.extractLsb'_append_extractLsb'_eq_extractLsb' rfl).trans BitVec.extractLsb'_eq_self
  exact congrArg (Parsed.ok · rest) hv

/-! ## Immediates, numbers and codes -/

theorem takeImm_reads (sz : Size) : Reads [] 4 Imm.bytes (fun v => v.size = sz) (takeImm sz) := by
  cases sz with
  | byte => exact takeByte_reads.bind (by decide) fun _ _ => .ok rfl rfl
  | word => exact takeWord_reads.bind (by decide) fun _ _ => .ok rfl rfl
  | long => exact takeLong_reads.bind (by decide) fun _ _ => .ok rfl rfl

theorem takeImmBW_reads (sz : BW) : Reads [] 2 ImmBW.bytes (fun v => v.bw = sz) (takeImmBW sz) := by
  cases sz with
  | byte => exact takeByte_reads.bind (by decide) fun _ _ => .ok rfl rfl
  | word => exact takeWord_reads.bind (by decide) fun _ _ => .ok rfl rfl

theorem takeBitNumber_reads : Reads [] 1 (fun n => [0#4 ++ n]) (fun _ => True) takeBitNumber :=
  takeByte_reads.bind (by decide) fun b _ =>
    .ite (fun h => .ok trivial (by rw [← h, hi4_append_lo4]; rfl)) fun _ => .refuse _

theorem takeNumber3_reads : Reads [] 1 (fun n => [0#5 ++ n]) (fun _ => True) takeNumber3 :=
  takeByte_reads.bind (by decide) fun b _ =>
    .ite (fun h => .ok trivial (by rw [← h, hi5_append_lo3]; rfl)) fun _ => .refuse _

theorem takeCReg_reads (sz : Size) : Reads [] 1 (fun c => [codeOfCReg c]) (fun c => c.size = sz) (takeCReg sz) :=
  takeByte_reads.bind (by decide) fun b _ => by
    cases h : cregOfCode sz b with
    | some c => exact .ok (cregOfCode_eq_some h).1 (by rw [(cregOfCode_eq_some h).2]; rfl)
    | none => exact .refuse _

theorem takeReg_reads (sz : Size) : Reads [] 1 (fun c => [codeOfReg c]) (fun c => c.legal sz = true) (takeReg sz) :=
  takeByte_reads.bind (by decide) fun b _ => by
    cases h : regOfCode b with
    | some c => exact .ite (fun hc => .ok hc (by rw [regOfCode_eq_some h]; rfl)) fun _ => .refuse _
    | none => exact .refuse _

@[simp] theorem takeImm_bytes (v : Imm) (rest : List Byte) : takeImm v.size (v.bytes ++ rest) = .ok v rest := by
  cases v <;> simp [takeImm, Imm.bytes]

@[simp] theorem takeImmBW_bytes (v : ImmBW) (rest : List Byte) : takeImmBW v.bw (v.bytes ++ rest) = .ok v rest := by
  cases v <;> simp [takeImmBW, ImmBW.bytes]

@[simp] theorem takeBitNumber_cons (n : BitVec 4) (rest : List Byte) :
    takeBitNumber ((0#4 ++ n) :: rest) = .ok n rest := by
  simp [takeBitNumber]

@[simp] theorem takeNumber3_cons (n : BitVec 3) (rest : List Byte) :
    takeNumber3 ((0#5 ++ n) :: rest) = .ok n rest := by
  simp [takeNumber3]

@[simp] theorem takeCReg_cons (c : CReg) (rest : List Byte) : takeCReg c.size (codeOfCReg c :: rest) = .ok c rest := by
  simp [takeCReg]

theorem takeReg_cons {sz : Size} {c : RegCode} (h : c.legal sz = true) (rest : List Byte) :
    takeReg sz (codeOfReg c :: rest) = .ok c rest := by
  simp [takeReg, h]

/-! ## Addressing modes -/

theorem RegCode.legal_long_iff (c : RegCode) : c.legal .long = true ↔ c.off = 0#2 := beq_iff_eq

theorem takeBase_reads : Reads [] 1 (fun r => [codeOfRow r ++ 0#2]) (fun _ => True) takeBase :=
  (takeReg_reads .long).bind (by decide) fun c hc =>
    .ok trivial (by rw [← (RegCode.legal_long_iff c).1 hc]; rfl)

@[simp] theorem takeBase_cons (r : Row) (rest : List Byte) :
    takeBase ((codeOfRow r ++ 0#2) :: rest) = .ok r rest := by
  have h : takeReg .long (codeOfReg ⟨r, 0#2⟩ :: rest) = .ok ⟨r, 0#2⟩ rest := takeReg_cons rfl rest
  rw [takeBase, show codeOfRow r ++ 0#2 = codeOfReg ⟨r, 0#2⟩ from rfl, h]
  rfl

theorem takeMode3_reads : Reads [] 3 modeExt (fun x => modeBits x = (1#1, 3#4) ∧ x.legal = true) takeMode3 :=
  takeByte_reads.bind (by decide) fun b _ => by
    rw [← hi6_append_lo2 b]
    generalize hi6 b = c
    generalize lo2 b = z
    simp only [hi6_append, lo2_append]
    split
    · cases h : rowOfCode c with
      | some r => exact .ok ⟨rfl, rfl⟩ (by rw [← rowOfCode_eq_some h]; rfl)
      | none => exact .refuse _
    · cases h : rowOfCode c with
      | some r =>
        exact takeWord_reads.bind (by decide) fun d _ => .ok ⟨rfl, rfl⟩ (by rw [← rowOfCode_eq_some h]; rfl)
      | none => exact .refuse _
    · exact .refuse _
    · next h0 h1 h2 =>
      obtain rfl : z = 3#2 := by revert z; decide
      split
      · exact takeBase_reads.bind (by decide) fun r _ => (takeReg_reads .byte).bind (by decide) fun i _ =>
          .ok ⟨rfl, rfl⟩ rfl
      · exact takeBase_reads.bind (by decide) fun r _ => (takeReg_reads .word).bind (by decide) fun i hi =>
          .ok ⟨rfl, hi⟩ rfl
      · exact .refuse _

theorem takeStepping_reads {mk : Row → Step → Mode} {x : BitVec 4}
    (hmk : ∀ r z, (modeBits (mk r z) = (1#1, x) ∧ (mk r z).legal = true) ∧
      modeExt (mk r z) = [codeOfRow r ++ codeOfStep z]) :
    Reads [] 3 modeExt (fun m => modeBits m = (1#1, x) ∧ m.legal = true) (takeStepping mk) :=
  takeByte_reads.bind (by decide) fun b _ => by
    cases hr : rowOfCode (hi6 b) with
    | none => exact .refuse _
    | some r =>
      cases hz : stepOfCode (lo2 b) with
      | none => exact .refuse _
      | some z =>
        refine .ok (hmk r z).1 ?_
        rw [(hmk r z).2, rowOfCode_eq_some hr, stepOfCode_eq_some hz, hi6_append_lo2]
        rfl

/-- Either row of the mode table's first bit, by the low bits `x` (rule R88). -/
theorem takeMode_reads (b6 : BitVec 1) (x : BitVec 4) :
    Reads [] 3 modeExt (fun m => modeBits m = (b6, x) ∧ m.legal = true) (takeMode b6 x) := by
  have bit : ∀ b : BitVec 1, b = 0#1 ∨ b = 1#1 := by decide
  obtain rfl | rfl := bit b6
  · obtain ⟨b3, k, rfl⟩ : ∃ (b : BitVec 1) (k : BitVec 3), x = b ++ k := ⟨_, _, (bit3_append_low3 x).symm⟩
    unfold takeMode
    simp only [bit3_append, low3_append, if_true]
    obtain rfl | rfl := bit b3
    · exact .ok ⟨rfl, rfl⟩ rfl
    · exact takeByte_reads.bind (by decide) fun d _ => .ok ⟨rfl, rfl⟩ rfl
  · unfold takeMode
    refine .ite (fun h => absurd h (by decide)) fun _ => ?_
    split
    · exact takeByte_reads.bind (by decide) fun a _ => .ok ⟨rfl, rfl⟩ rfl
    · exact takeWord_reads.bind (by decide) fun a _ => .ok ⟨rfl, rfl⟩ rfl
    · exact take24_reads.bind (by decide) fun a _ => .ok ⟨rfl, rfl⟩ rfl
    · exact takeMode3_reads
    · exact takeStepping_reads fun _ _ => ⟨⟨rfl, rfl⟩, rfl⟩
    · exact takeStepping_reads fun _ _ => ⟨⟨rfl, rfl⟩, rfl⟩
    · exact .refuse _

theorem takeMode3_index8 (r : Row) (i : RegCode) (rest : List Byte) :
    takeMode3 (modeExt (.index8 r i) ++ rest) = .ok (.index8 r i) rest := by
  change (takeBase ((codeOfRow r ++ 0#2) :: codeOfReg i :: rest)).bind _ = _
  rw [takeBase_cons, Parsed.bind_ok, takeReg_cons rfl, Parsed.bind_ok]

theorem takeMode3_index16 (r : Row) {i : RegCode} (h : i.legal .word = true) (rest : List Byte) :
    takeMode3 (modeExt (.index16 r i) ++ rest) = .ok (.index16 r i) rest := by
  change (takeBase ((codeOfRow r ++ 0#2) :: codeOfReg i :: rest)).bind _ = _
  rw [takeBase_cons, Parsed.bind_ok, takeReg_cons h, Parsed.bind_ok]

theorem takeMode_modeExt {m : Mode} (h : m.legal = true) (rest : List Byte) :
    takeMode (modeBits m).1 (modeBits m).2 (modeExt m ++ rest) = .ok m rest := by
  cases m with
  | ind k | disp8 k d => simp [takeMode, modeBits, modeExt]
  | abs8 a | abs16 a | abs24 a => simp [takeMode, modeBits, modeExt]
  | ind32 r | disp16 r d => simp [takeMode, modeBits, modeExt, takeMode3]
  | index8 r i => exact takeMode3_index8 r i rest
  | index16 r i => exact takeMode3_index16 r h rest
  | preDec r z | postInc r z => simp [takeMode, modeBits, modeExt, takeStepping]

end Sys2Proof
end

section
/-! PROOFS. Bytes that decode (30_encoding.md R80 to R103, R112): each opcode map reads encodings, and so does the
decoder. -/

namespace Sys2Proof

/-! ## Slots of an opcode map -/

namespace Reads

variable {pre : List Byte} {n : Nat} {e : Instr → List Byte} {P : Instr → Prop}

theorem atBW {sz : Size} {k : BW → List Byte → Parsed Instr}
    (h : ∀ z, sz = z.size → Reads pre n e P (k z)) : Reads pre n e P fun bs => atBW sz fun z => k z bs := by
  cases sz with
  | byte => exact h .byte rfl
  | word => exact h .word rfl
  | long => exact refuse _

theorem atWL {sz : Size} {k : WL → List Byte → Parsed Instr}
    (h : ∀ z, sz = z.size → Reads pre n e P (k z)) : Reads pre n e P fun bs => atWL sz fun z => k z bs := by
  cases sz with
  | byte => exact refuse _
  | word => exact h .word rfl
  | long => exact h .long rfl

theorem okIf {c : Bool} {i : Instr} (hP : c = true → P i) (he : pre = e i) : Reads pre n e P fun bs => okIf c i bs :=
  ite (fun hc => ok (hP hc) he) fun _ => refuse _

/-- One operand, and the instruction that has it. -/
theorem operand {β : Type} {m : Nat} {d : β → List Byte} {Q : β → Prop} {g : List Byte → Parsed β} {v : β → Instr}
    (hg : Reads [] m d Q g) (hm : m ≤ n) (hP : ∀ b, Q b → P (v b)) (he : ∀ b, Q b → pre ++ d b = e (v b)) :
    Reads pre n e P fun bs => (g bs).bind fun b rest => .ok (v b) rest :=
  hg.bind hm fun b hb => .ok (hP b hb) (he b hb)

end Reads

/-! ### Class S (rule R97) -/

/-- What the last slot of a row of eight, reached by default, knows of its code. -/
theorem eq_seven (k : BitVec 3) : (k = 0#3 → False) → (k = 1#3 → False) → (k = 2#3 → False) → (k = 3#3 → False) →
    (k = 4#3 → False) → (k = 5#3 → False) → (k = 6#3 → False) → k = 7#3 := by
  revert k; decide

theorem eiDi_reads : Reads [0x06#8] 4 encode WellFormed fun bs =>
    (takeNumber3 bs).bind fun n rest => .ok (if n = 7#3 then .di else .ei n) rest :=
  takeNumber3_reads.bind (by decide) fun n _ => by
    by_cases h : n = 7#3
    · simp only [if_pos h]
      exact .ok rfl (h ▸ rfl)
    · simp only [if_neg h]
      exact .ok (bne_iff_ne.2 h) rfl

/-- A condition in the low four bits of an opcode byte (rule R96). -/
theorem append_codeOfCond {b : Byte} {n : BitVec 4} (hb : hi4 b = n) : n ++ codeOfCond (condOfCode (lo4 b)) = b := by
  rw [codeOfCond_condOfCode, ← hb, hi4_append_lo4]

theorem jr_reads {b : Byte} (hb : hi4 b = 0b0110#4) : Reads [b] 4 encode WellFormed fun bs =>
    (takeByte bs).bind fun d rest => .ok (.jr (condOfCode (lo4 b)) d) rest :=
  takeByte_reads.operand (by decide) (fun _ _ => rfl) fun d _ => by rw [encode, append_codeOfCond hb]; rfl

theorem jrl_reads {b : Byte} (hb : hi4 b = 0b0111#4) : Reads [b] 4 encode WellFormed fun bs =>
    (takeWord bs).bind fun d rest => .ok (.jrl (condOfCode (lo4 b)) d) rest :=
  takeWord_reads.operand (by decide) (fun _ _ => rfl) fun d _ => by rw [encode, append_codeOfCond hb]; rfl

/-- A slot of the map refuses, answers at once, or reads the operands of one form and answers; the alternatives are
these kinds of slot. -/
theorem decodeS_reads (b : Byte) : Reads [b] 4 encode WellFormed (decodeS b) := by
  obtain ⟨h, k, rfl⟩ := exists_append_byte b
  unfold decodeS
  simp only [hi5_append, lo3_append]
  split <;> try split
  all_goals try rw [eq_seven k ‹_› ‹_› ‹_› ‹_› ‹_› ‹_› ‹_›]
  all_goals first
    | exact .refuse _
    | exact .ok rfl rfl
    | exact takeByte_reads.operand (by decide) (fun _ _ => rfl) fun _ _ => rfl
    | exact takeWord_reads.operand (by decide) (fun _ _ => rfl) fun _ _ => rfl
    | exact take24_reads.operand (by decide) (fun _ _ => rfl) fun _ _ => rfl
    | exact takeLong_reads.operand (by decide) (fun _ _ => rfl) fun _ _ => rfl
    | exact takeNumber3_reads.operand (by decide) (fun _ _ => rfl) fun _ _ => rfl
    | exact takeByte_reads.bind (by decide) fun _ _ =>
        takeByte_reads.operand (by decide) (fun _ _ => rfl) fun _ _ => rfl
    | exact takeByte_reads.bind (by decide) fun _ _ =>
        takeWord_reads.operand (by decide) (fun _ _ => rfl) fun _ _ => rfl
    | exact eiDi_reads
    | exact jr_reads (by revert k; decide)
    | exact jrl_reads (by revert k; decide)

/-! ### Class REG (rule R98) -/

section Reg

variable {sz : Size} {r : RegOp}

theorem encodeReg_nil_append {op : Byte} (l : List Byte) : encodeReg sz r op [] ++ l = encodeReg sz r op l := by
  simp [encodeReg]

/-- As in class S, with the sizes a form admits (rule R7) and its dividend or bit number (rules R103, R234). -/
theorem decodeReg_reads (hr : r.legal sz = true) (op : Byte) :
    Reads (encodeReg sz r op []) 4 encode WellFormed (decodeReg sz r op) := by
  obtain ⟨h, k, rfl⟩ := exists_append_byte op
  unfold decodeReg
  simp only [hi5_append, lo3_append]
  split <;> try split
  all_goals try rw [eq_seven k ‹_› ‹_› ‹_› ‹_› ‹_› ‹_› ‹_›]
  all_goals first
    | exact .refuse _
    | exact .ok hr rfl
    | exact .ite (by rintro rfl; exact .ok hr rfl) fun _ => .refuse _
    | exact .atBW (by rintro z rfl; exact .ok hr rfl)
    | exact .atWL (by rintro z rfl; exact .ok hr rfl)
    | exact .atBW (by rintro z rfl; exact .okIf (fun hd => Bool.and_eq_true_iff.2 ⟨hd, hr⟩) rfl)
    | exact (takeImm_reads sz).operand (by decide) (by rintro v rfl; exact hr)
        (by rintro v rfl; exact encodeReg_nil_append _)
    | exact (takeCReg_reads sz).operand (by decide) (by rintro c rfl; exact hr)
        (by rintro v rfl; exact encodeReg_nil_append _)
    | exact .atBW (by
        rintro z rfl
        exact takeByte_reads.operand (by decide) (fun _ _ => hr) fun _ _ => encodeReg_nil_append _)
    | exact .atBW (by
        rintro z rfl
        exact takeBitNumber_reads.operand (by decide) (fun _ _ => hr) fun _ _ => encodeReg_nil_append _)
    | exact .atBW (by
        rintro z rfl
        exact takeBitNumber_reads.bind (by decide) fun _ _ =>
          .okIf (fun hn => Bool.and_eq_true_iff.2 ⟨hr, hn⟩) (encodeReg_nil_append _))
    | exact .atBW (by
        rintro z rfl
        exact .ite (fun hd => (takeImmBW_reads z).operand (by decide) (by rintro v rfl; exact hd)
          (by rintro v rfl; exact encodeReg_nil_append _)) fun _ => .refuse _)

end Reg

/-! ### Classes SRCMEM and DSTMEM (rules R99, R100, R102) -/

section Mem

variable {sz : Size} {m : Mode}

theorem encodeMem_nil_append (zz : BitVec 2) {op : Byte} (l : List Byte) :
    encodeMem zz m op [] ++ l = encodeMem zz m op l := by
  simp [encodeMem]

theorem decodeBlock_reads (k : BitVec 3) :
    Reads (encodeSrc sz m (0b00010#5 ++ k) []) 2 encode WellFormed (decodeBlock sz m k) := by
  refine .atBW ?_
  rintro z rfl
  cases m
  case ind R =>
    dsimp only
    split
    all_goals try rw [eq_seven k ‹_› ‹_› ‹_› ‹_› ‹_› ‹_› ‹_›]
    all_goals first
      | exact .ok rfl rfl
      | exact .ite (by rintro rfl; exact .ok rfl rfl) fun _ =>
          .ite (by rintro rfl; exact .ok rfl rfl) fun _ => .refuse _
  all_goals exact .refuse _

/-- The kinds of slot as in class REG, and the row of block instructions. -/
theorem decodeSrc_reads (hm : m.legal = true) (op : Byte) :
    Reads (encodeSrc sz m op []) 2 encode WellFormed (decodeSrc sz m op) := by
  obtain ⟨h, k, rfl⟩ := exists_append_byte op
  unfold decodeSrc
  simp only [hi5_append, lo3_append]
  split <;> try split
  all_goals try rw [eq_seven k ‹_› ‹_› ‹_› ‹_› ‹_› ‹_› ‹_›]
  all_goals first
    | exact .refuse _
    | exact .ok hm rfl
    | exact decodeBlock_reads _
    | exact .atBW (by rintro z rfl; exact .ok hm rfl)
    | exact .atBW (by rintro z rfl; exact .okIf (fun hd => Bool.and_eq_true_iff.2 ⟨hd, hm⟩) rfl)
    | exact .atBW (by
        rintro z rfl
        exact takeWord_reads.operand (by decide) (fun _ _ => hm) fun _ _ => encodeMem_nil_append _ _)
    | exact .atBW (by
        rintro z rfl
        exact (takeImmBW_reads z).operand (by decide) (fun _ _ => hm)
          (by rintro v rfl; exact encodeMem_nil_append _ _))

theorem ifNotStepping_reads {pre : List Byte} {n : Nat} {i : Instr} (hP : m.steps = false → WellFormed i)
    (he : pre = encode i) : Reads pre n encode WellFormed fun bs => ifNotStepping m (.ok i bs) :=
  .ite (fun _ => .refuse _) fun hs => .ok (hP (Bool.eq_false_iff.2 hs)) he

/-- The kinds of slot as in class S, and those that admit no stepping mode (decision D14). -/
theorem decodeDst_reads (hm : m.legal = true) (op : Byte) :
    Reads (encodeDst m op []) 2 encode WellFormed (decodeDst m op) := by
  obtain ⟨h, k, rfl⟩ := exists_append_byte op
  have plain : m.steps = false → (m.legal && !m.steps) = true := fun hs => by rw [hm, hs]; rfl
  unfold decodeDst
  simp only [hi5_append, lo3_append]
  split <;> try split
  all_goals first
    | exact .refuse _
    | exact .ok hm rfl
    | exact ifNotStepping_reads plain rfl
    | exact ifNotStepping_reads plain (by rw [encode, append_codeOfCond (by revert k; decide)])
    | exact takeByte_reads.operand (by decide) (fun _ _ => hm) fun _ _ => encodeMem_nil_append _ _
    | exact takeWord_reads.operand (by decide) (fun _ _ => hm) fun _ _ => encodeMem_nil_append _ _

theorem decodeLdar_reads : Reads [0xF3#8, 0x13#8] 5 encode WellFormed decodeLdar :=
  takeWord_reads.bind (by decide) fun d _ => takeByte_reads.bind (by decide) fun b _ => by
    obtain ⟨h, k, rfl⟩ := exists_append_byte b
    simp only [hi5_append, lo3_append]
    split
    · exact .ok rfl rfl
    · exact .ok rfl rfl
    · exact .refuse _

end Mem

/-! ### The first byte (rules R81, R84 to R88) -/

theorem memByte_eq {b : Byte} (h7 : b.getLsbD 7 = true) :
    0b1#1 ++ b.extractLsb' 6 1 ++ b.extractLsb' 4 2 ++ lo4 b = b := by
  revert b; decide

theorem regByte_short_eq {b : Byte} (h7 : b.getLsbD 7 = true) (h6 : b.getLsbD 6 = true) (h3 : b.getLsbD 3 = true) :
    0b11#2 ++ b.extractLsb' 4 2 ++ 0b1#1 ++ lo3 b = b := by
  revert b; decide

theorem regByte_ext_eq {b : Byte} (h7 : b.getLsbD 7 = true) (h6 : b.getLsbD 6 = true) (h3 : b.getLsbD 3 = false)
    (hk : lo3 b = 7#3) : 0b11#2 ++ b.extractLsb' 4 2 ++ 0b0111#4 = b := by
  revert b; decide

theorem eq_three_of_sizeOfCode {zz : BitVec 2} (h : sizeOfCode zz = none) : zz = 3#2 := by revert zz; decide

/-- The bytes of a memory class up to the second opcode, from a first byte, a mode read after it and the opcode. -/
theorem memHead_eq {b : Byte} {m : Mode} (h7 : b.getLsbD 7 = true) (hbits : modeBits m = (b.extractLsb' 6 1, lo4 b))
    (op : Byte) : [b] ++ modeExt m ++ [op] = encodeMem (b.extractLsb' 4 2) m op [] := by
  rw [encodeMem, hbits, memByte_eq h7]
  rfl

namespace Reads

variable {α : Type} {pre : List Byte} {n : Nat} {e : α → List Byte} {P : α → Prop} {f g : List Byte → Parsed α}

theorem mono {k : Nat} (h : Reads pre n e P f) (hk : n ≤ k) : Reads pre k e P f where
  sound := h.sound
  takes hbs := (h.takes hbs).trans (Nat.add_le_add_left hk _)
  decides hbs := h.decides (hk.trans hbs)

/-- One reader for the bytes that begin with `c`, another for the rest. -/
theorem head {c : Byte} (hf : Reads (pre ++ [c]) n e P f) (hg : Reads pre (n + 1) e P g) :
    Reads pre (n + 1) e P fun bs => if bs.head? = some c then f bs.tail else g bs := by
  have hcons : ∀ bs, (bs.head? = some c ∧ ∃ tl, bs = c :: tl) ∨ bs.head? ≠ some c := fun bs => by
    cases bs with
    | nil => exact .inr nofun
    | cons b tl =>
      by_cases hb : b = c
      · exact .inl ⟨congrArg some hb, tl, hb ▸ rfl⟩
      · exact .inr fun h => hb (Option.some.inj h)
  constructor
  · intro bs a rest h
    obtain ⟨hc, tl, rfl⟩ | hc := hcons bs
    · rw [if_pos hc] at h
      obtain ⟨hP, hbs⟩ := hf.sound h
      exact ⟨hP, by rw [← hbs, List.append_assoc]; rfl⟩
    · rw [if_neg hc] at h
      exact hg.sound h
  · intro bs a rest h
    obtain ⟨hc, tl, rfl⟩ | hc := hcons bs
    · rw [if_pos hc] at h
      exact Nat.succ_le_succ (hf.takes h)
    · rw [if_neg hc] at h
      exact hg.takes h
  · intro bs hn h
    obtain ⟨hc, tl, rfl⟩ | hc := hcons bs
    · rw [if_pos hc] at h
      exact hf.decides (Nat.le_of_succ_le_succ hn) h
    · rw [if_neg hc] at h
      exact hg.decides hn h

end Reads

theorem decodeMem_reads {b : Byte} (h7 : b.getLsbD 7 = true) : Reads [b] 6 encode WellFormed (decodeMem b) := by
  unfold decodeMem
  cases hz : sizeOfCode (b.extractLsb' 4 2) with
  | some sz =>
    exact (takeMode_reads _ _).bind (by decide) fun m ⟨hbits, hm⟩ => takeByte_reads.bind (by decide) fun op _ => by
      rw [memHead_eq h7 hbits, ← sizeOfCode_eq_some hz]
      exact decodeSrc_reads hm op
  | none =>
    have hdst : Reads [b] 6 encode WellFormed fun bs => (takeMode (b.extractLsb' 6 1) (lo4 b) bs).bind fun m rest =>
        (takeByte rest).bind fun op rest => decodeDst m op rest :=
      (takeMode_reads _ _).bind (by decide) fun m ⟨hbits, hm⟩ => takeByte_reads.bind (by decide) fun op _ => by
        rw [memHead_eq h7 hbits, eq_three_of_sizeOfCode hz]
        exact decodeDst_reads hm op
    by_cases hb : b = 0xF3#8
    · simp only [hb, true_and] at hdst ⊢
      exact decodeLdar_reads.head hdst
    · simpa only [hb, false_and, if_false] using hdst

theorem decode_reads : Reads [] 7 encode WellFormed decode :=
  takeByte_reads.bind (by decide) fun b _ =>
    .ite (fun _ => (decodeS_reads b).mono (by decide)) fun h7 => by
      rw [Bool.not_eq_false] at h7
      refine .ite (fun _ => decodeMem_reads h7) fun h6 => ?_
      rw [Bool.not_eq_false] at h6
      cases hz : sizeOfCode (b.extractLsb' 4 2) with
      | some sz =>
        refine .ite (fun h3 => ?short) fun h3 => .ite (fun hk => ?ext) fun _ => decodeMem_reads h7
        case short =>
          refine takeByte_reads.bind (by decide) fun op _ => ?_
          have hb : [] ++ [b] ++ [op] = encodeReg sz (.short (lo3 b)) op [] := by
            rw [encodeReg, encodeReg1, sizeOfCode_eq_some hz, regByte_short_eq h7 h6 h3]; rfl
          rw [hb]
          exact (decodeReg_reads rfl op).mono (by decide)
        case ext =>
          refine (takeReg_reads sz).bind (by decide) fun c hc => takeByte_reads.bind (by decide) fun op _ => ?_
          have hb : [] ++ [b] ++ [codeOfReg c] ++ [op] = encodeReg sz (.ext c) op [] := by
            rw [encodeReg, encodeReg1, sizeOfCode_eq_some hz, regByte_ext_eq h7 h6 (Bool.eq_false_iff.2 h3) hk]; rfl
          rw [hb]
          exact decodeReg_reads (r := .ext c) hc op
      | none => exact .ite (fun _ => .refuse _) fun _ => .ite (fun _ => .refuse _) fun _ => decodeMem_reads h7

/-- Settles O2: the decoder reads encodings. -/
theorem decodedBytesAreTheEncoding : Obligations.DecodedBytesAreTheEncoding := fun _ _ _ h => decode_reads.sound h

end Sys2Proof
end

section
/-! PROOFS. Decoding an encoding (30_encoding.md R80 to R103): the class, the register or mode and the slot come back,
and with them the instruction and its length. -/

namespace Sys2Proof

/-! ## Decoding an encoding -/

theorem decode_classS {b : Byte} (h7 : b.getLsbD 7 = false) (bs : List Byte) : decode (b :: bs) = decodeS b bs := by
  rw [decode, takeByte_cons, Parsed.bind_ok, if_pos h7]

theorem getLsbD_7_append (h : BitVec 5) (k : BitVec 3) : (h ++ k).getLsbD 7 = h.getLsbD 4 := by
  rw [BitVec.getLsbD_append, if_neg (by decide)]

/-- What the decoder looks at in a first byte of class REG with a 3-bit code. -/
theorem regByte_short_fields (zz : BitVec 2) (k : R3) :
    let b : Byte := 0b11#2 ++ zz ++ 0b1#1 ++ k
    b.getLsbD 7 = true ∧ b.getLsbD 6 = true ∧ b.extractLsb' 4 2 = zz ∧ b.getLsbD 3 = true ∧ lo3 b = k := by
  revert zz k; decide

theorem regByte_ext_fields (zz : BitVec 2) :
    let b : Byte := 0b11#2 ++ zz ++ 0b0111#4
    b.getLsbD 7 = true ∧ b.getLsbD 6 = true ∧ b.extractLsb' 4 2 = zz ∧ b.getLsbD 3 = false ∧ lo3 b = 7#3 := by
  revert zz; decide

theorem memByte_fields (b6 : BitVec 1) (zz : BitVec 2) (x : BitVec 4) :
    let b : Byte := 0b1#1 ++ b6 ++ zz ++ x
    b.getLsbD 7 = true ∧ b.getLsbD 6 = b6.getLsbD 0 ∧ b.extractLsb' 6 1 = b6 ∧ b.extractLsb' 4 2 = zz ∧
      b.getLsbD 3 = x.getLsbD 3 ∧ lo3 b = x.extractLsb' 0 3 ∧ lo4 b = x := by
  revert b6 zz x; decide

theorem decode_encodeReg {sz : Size} {r : RegOp} (hr : r.legal sz = true) (op : Byte) (l rest : List Byte) :
    decode (encodeReg sz r op l ++ rest) = decodeReg sz r op (l ++ rest) := by
  cases r with
  | short k =>
    obtain ⟨h7, h6, hz, h3, hk⟩ := regByte_short_fields (codeOfSize sz) k
    simp only [encodeReg, encodeReg1, List.cons_append, List.nil_append, decode, takeByte_cons, Parsed.bind_ok, h7, h6,
      hz, h3, hk, sizeOfCode_codeOfSize, Bool.true_eq_false, if_false, if_true]
  | ext c =>
    obtain ⟨h7, h6, hz, h3, hk⟩ := regByte_ext_fields (codeOfSize sz)
    have hc : takeReg sz (codeOfReg c :: op :: (l ++ rest)) = .ok c (op :: (l ++ rest)) := takeReg_cons hr _
    simp only [encodeReg, encodeReg1, List.cons_append, List.nil_append, decode, takeByte_cons, Parsed.bind_ok, h7, h6,
      hz, h3, hk, hc, sizeOfCode_codeOfSize, Bool.true_eq_false, Bool.false_eq_true, if_false, if_true]

/-- A mode whose first byte has bit 6 set is in the rows 0 to 5 of the mode table. -/
theorem modeBits_row (m : Mode) : (modeBits m).1 = 0#1 ∨
    (modeBits m).1 = 1#1 ∧ (modeBits m).2.getLsbD 3 = false ∧ (modeBits m).2.extractLsb' 0 3 ≠ 7#3 := by
  cases m with
  | ind | disp8 => exact .inl rfl
  | _ => exact .inr ⟨rfl, by simp [modeBits], by simp [modeBits]⟩

theorem decode_encodeMem (zz : BitVec 2) (m : Mode) (op : Byte) (l rest : List Byte) :
    decode (encodeMem zz m op l ++ rest) =
      decodeMem (0b1#1 ++ (modeBits m).1 ++ zz ++ (modeBits m).2) (modeExt m ++ op :: (l ++ rest)) := by
  obtain ⟨h7, h6, -, -, h3, hk, -⟩ := memByte_fields (modeBits m).1 zz (modeBits m).2
  have hl : encodeMem zz m op l ++ rest =
      (0b1#1 ++ (modeBits m).1 ++ zz ++ (modeBits m).2) :: (modeExt m ++ op :: (l ++ rest)) := by simp [encodeMem]
  rw [hl, decode, takeByte_cons, Parsed.bind_ok, if_neg (by rw [h7]; decide)]
  obtain hm | ⟨hm, h3', hk'⟩ := modeBits_row m
  · rw [if_pos (by rw [h6, hm]; rfl)]
  · rw [if_neg (by rw [h6, hm]; decide), h3, h3', hk]
    simp only [Bool.false_eq_true, if_false, if_neg hk']
    split <;> rfl

theorem decode_encodeSrc {m : Mode} (hm : m.legal = true) (sz : Size) (op : Byte) (l rest : List Byte) :
    decode (encodeSrc sz m op l ++ rest) = decodeSrc sz m op (l ++ rest) := by
  obtain ⟨-, -, h6, hz, -, -, h4⟩ := memByte_fields (modeBits m).1 (codeOfSize sz) (modeBits m).2
  simp only [encodeSrc, decode_encodeMem, decodeMem, h6, hz, h4, sizeOfCode_codeOfSize, takeMode_modeExt hm,
    takeByte_cons, Parsed.bind_ok]

/-- The byte after F3H tells the modes from LDAR (rule R88). -/
theorem modeExt_head_ne (m : Mode) (h : modeBits m = (1#1, 3#4)) (bs : List Byte) :
    (modeExt m ++ bs).head? ≠ some 0x13#8 := by
  have hlo : ∀ (r : Row) (z : BitVec 2), z ≠ 3#2 → some (codeOfRow r ++ z) ≠ some 0x13#8 := fun r z hz h =>
    hz ((lo2_append _ z).symm.trans (congrArg lo2 (Option.some.inj h)))
  cases m with
  | ind32 r => exact hlo r 0#2 (by decide)
  | disp16 r d => exact hlo r 1#2 (by decide)
  | index8 | index16 => simp [modeExt]
  | _ => simp [modeBits] at h

theorem sizeOfCode_three : sizeOfCode 3#2 = none := rfl

theorem decode_encodeDst {m : Mode} (hm : m.legal = true) (op : Byte) (l rest : List Byte) :
    decode (encodeDst m op l ++ rest) = decodeDst m op (l ++ rest) := by
  obtain ⟨-, -, h6, hz, -, -, h4⟩ := memByte_fields (modeBits m).1 3#2 (modeBits m).2
  have hldar : ¬ ((0b1#1 ++ (modeBits m).1 ++ 3#2 ++ (modeBits m).2 : Byte) = 0xF3#8 ∧
      (modeExt m ++ op :: (l ++ rest)).head? = some 0x13#8) := fun ⟨hb, hh⟩ =>
    modeExt_head_ne m (Prod.ext (h6.symm.trans (hb ▸ rfl)) (h4.symm.trans (hb ▸ rfl))) _ hh
  simp only [encodeDst, decode_encodeMem, decodeMem, h6, hz, h4, sizeOfCode_three, if_neg hldar, takeMode_modeExt hm,
    takeByte_cons, Parsed.bind_ok]

@[simp] theorem atBW_size (z : BW) (k : BW → Parsed Instr) : atBW z.size k = k z := by cases z <;> rfl

@[simp] theorem atWL_size (z : WL) (k : WL → Parsed Instr) : atWL z.size k = k z := by cases z <;> rfl

theorem okIf_pos {c : Bool} (h : c = true) (i : Instr) (rest : List Byte) : okIf c i rest = .ok i rest := if_pos h

/-- A dividend has a code at the divisor's size too (rules R25, R103). -/
theorem RegOp.legal_of_dividend {z : BW} {r : RegOp} (h : r.dividend z = true) : r.legal z.size = true := by
  cases r with
  | short => rfl
  | ext c =>
    cases z with
    | byte => rfl
    | word =>
      rw [RegOp.legal, RegCode.legal, (RegCode.legal_long_iff c).1 h]
      rfl

theorem ifNotStepping_of_plain {m : Mode} (h : (!m.steps) = true) (p : Parsed Instr) : ifNotStepping m p = p :=
  if_neg (by simpa using h)

/-- A condition fills two rows of an opcode map (rule R96). -/
theorem hi5_condition (n c : BitVec 4) : hi5 (n ++ c) = n ++ 0#1 ∨ hi5 (n ++ c) = n ++ 1#1 := by
  revert n c; decide

theorem decode_jr (cc : Cond) (d : Byte) (rest : List Byte) :
    decode (encode (.jr cc d) ++ rest) = .ok (.jr cc d) rest := by
  rw [encode, List.cons_append, decode_classS (by cases cc <;> rfl)]
  obtain h | h := hi5_condition 0b0110#4 (codeOfCond cc) <;> simp [decodeS, h]

theorem decode_jrl (cc : Cond) (d : Word) (rest : List Byte) :
    decode (encode (.jrl cc d) ++ rest) = .ok (.jrl cc d) rest := by
  rw [encode, List.cons_append, decode_classS (by cases cc <;> rfl)]
  obtain h | h := hi5_condition 0b0111#4 (codeOfCond cc) <;> simp [decodeS, h]

theorem decodeDst_jp {m : Mode} (hs : (!m.steps) = true) (cc : Cond) (rest : List Byte) :
    decodeDst m (0b1101#4 ++ codeOfCond cc) rest = .ok (.jpMem cc m) rest := by
  obtain h | h := hi5_condition 0b1101#4 (codeOfCond cc) <;> simp [decodeDst, h, ifNotStepping_of_plain hs]

theorem decodeDst_call {m : Mode} (hs : (!m.steps) = true) (cc : Cond) (rest : List Byte) :
    decodeDst m (0b1110#4 ++ codeOfCond cc) rest = .ok (.callMem cc m) rest := by
  obtain h | h := hi5_condition 0b1110#4 (codeOfCond cc) <;> simp [decodeDst, h, ifNotStepping_of_plain hs]

theorem decode_ldar (sz : WL) (R : R3) (d : Word) (rest : List Byte) :
    decode (encode (.ldar sz R d) ++ rest) = .ok (.ldar sz R d) rest := by
  have hfront : decode (encode (.ldar sz R d) ++ rest) = decodeLdar (wordBytes d ++
      ((match sz with | .word => 0b00100#5 | .long => 0b00110#5) ++ R) :: rest) := rfl
  rw [hfront]
  cases sz <;> simp [decodeLdar]

/-- Settles O1: the first bytes choose the class, the mode or register and the slot of the opcode map, and the slot's
operand reader gives the operands back. -/
theorem decodeEncode : Obligations.DecodeEncode := by
  unfold Obligations.DecodeEncode
  intro i rest hi
  cases i with
  -- class S
  | halt | di | incf | decf | ccf | exFF | ldDir8B => rfl
  | ldDir8W | jp16 | jp24 | call16 | call24 | calr | ldf =>
    rw [encode, List.cons_append, decode_classS (by decide)]
    simp [decodeS, hi5, lo3]
  | ei n =>
    rw [encode, List.cons_append, decode_classS (by decide)]
    simp [decodeS, hi5, lo3, bne_iff_ne.1 hi]
  | ldRImmB | ldRImmW | ldRImmL =>
    rw [encode, List.cons_append, decode_classS (by rw [getLsbD_7_append]; decide)]
    simp [decodeS]
  | jr cc d => exact decode_jr cc d rest
  | jrl cc d => exact decode_jrl cc d rest
  -- class REG, an opcode with a 3-bit field and an opcode without
  | inc3r | dec3r | addRr | ldRr | adcRr | ldrR | ldr3 | andRr | cpRr | exRr | cpr3 =>
    rw [encode, decode_encodeReg hi]
    simp [decodeReg]
  | divRr | divsRr =>
    obtain ⟨hd, hr⟩ := Bool.and_eq_true_iff.1 hi
    rw [encode, decode_encodeReg hr]
    simp [decodeReg, okIf_pos hd]
  | cpl | extz | exts | andcfAr | ldcfAr | bs1b | daa | ldrImm | addrImm | adcrImm | andrImm | cprImm | andcf4r |
      ldcf4r | djnz | ldcCrR | ldcRCr =>
    rw [encode, decode_encodeReg hi]
    simp [decodeReg, hi5, lo3]
  | chg4r | bit4r =>
    obtain ⟨hr, hn⟩ := Bool.and_eq_true_iff.1 hi
    rw [encode, decode_encodeReg hr]
    simp [decodeReg, hi5, lo3, okIf_pos hn]
  | divrImm rr v | divsrImm rr v =>
    have hd : rr.dividend v.bw = true := hi
    rw [encode, decode_encodeReg (RegOp.legal_of_dividend hd)]
    simp [decodeReg, hi5, lo3, hd]
  -- class SRCMEM
  | ldiDE | ldiIX | ldirDE | ldirIX | lddDE | lddIX | lddrDE | lddrIX | cpi | cpir | cpd | cpdr =>
    rw [encode, encodeBlock, decode_encodeSrc rfl]
    simp [decodeSrc, decodeBlock, hi5, lo3]
  | ldRMem | exMemR | inc3Mem | dec3Mem | addRMem | addMemR | adcRMem | adcMemR | andRMem | andMemR | cpRMem |
      cpMemR =>
    rw [encode, decode_encodeSrc hi]
    simp [decodeSrc]
  | divRMem | divsRMem =>
    obtain ⟨hd, hm⟩ := Bool.and_eq_true_iff.1 hi
    rw [encode, decode_encodeSrc hm]
    simp [decodeSrc, okIf_pos hd]
  | ldDir16Mem | addMemImm | adcMemImm | andMemImm | cpMemImm =>
    rw [encode, decode_encodeSrc hi]
    simp [decodeSrc, hi5, lo3]
  -- class DSTMEM
  | ldMemRB | ldMemRW | ldMemRL | andcf3Mem | ldcf3Mem | chg3Mem | bit3Mem =>
    rw [encode, decode_encodeDst hi]
    simp [decodeDst]
  | ldMemImmB | ldMemImmW | ldMemDir16B | ldMemDir16W | andcfAMem | ldcfAMem =>
    rw [encode, decode_encodeDst hi]
    simp [decodeDst, hi5, lo3]
  | ldaW | ldaL =>
    obtain ⟨hm, hs⟩ := Bool.and_eq_true_iff.1 hi
    rw [encode, decode_encodeDst hm]
    simp [decodeDst, ifNotStepping_of_plain hs]
  | jpMem cc m =>
    obtain ⟨hm, hs⟩ := Bool.and_eq_true_iff.1 hi
    rw [encode, decode_encodeDst hm, List.nil_append, decodeDst_jp hs]
  | callMem cc m =>
    obtain ⟨hm, hs⟩ := Bool.and_eq_true_iff.1 hi
    rw [encode, decode_encodeDst hm, List.nil_append, decodeDst_call hs]
  | ldar sz R d => exact decode_ldar sz R d rest

/-- Settles O3: the decoder takes at most seven bytes, decides on seven, and gives each encoding back. -/
theorem instructionLength : Obligations.InstructionLength := by
  unfold Obligations.InstructionLength
  refine ⟨fun i hi => ?_, fun _ => decode_reads.decides⟩
  have hdec : decode (encode i ++ []) = .ok i [] := decodeEncode i [] hi
  rw [List.append_nil] at hdec
  refine ⟨List.length_pos_iff.2 fun hnil => ?_, (decode_reads.takes hdec).trans_eq (Nat.zero_add 7)⟩
  rw [hnil] at hdec
  cases hdec

/-- Settles O4. -/
theorem exampleWords : Obligations.ExampleWords := by
  unfold Obligations.ExampleWords
  decide

end Sys2Proof
end

section
/-! PROOFS. The condition codes after a comparison and the jumps that test them (30_encoding.md R96; 49_jump_call.md
R290 to R294). -/

namespace Sys2Proof.Machine

/-! ## Conditions after a comparison (rule R96) -/

/-- A difference reduced into the signed range is negative exactly when the true one is, unless that lies outside the
range. -/
theorem bmod_neg_xor_outside {M : Nat} {d : Int} (hlo : -(2 * M) < d) (hhi : d < 2 * M) :
    (decide (d.bmod (2 * M) < 0) ^^ !(decide (-(M : Int) ≤ d) && decide (d < M))) = decide (d < 0) := by
  obtain hlow | hhigh | ⟨hge, hlt⟩ : d < -M ∨ M ≤ d ∨ -M ≤ d ∧ d < M := by omega
  · have hb : d.bmod (2 * M) = d + (2 * M : Nat) := by
      rw [← Int.add_bmod_right, Int.bmod_eq_of_le_mul_two (by omega) (by omega)]
    rw [hb, decide_eq_false (by omega), decide_eq_false (p := -(M : Int) ≤ d) (by omega),
      decide_eq_true (p := d < 0) (by omega)]
    rfl
  · have hb : d.bmod (2 * M) = d - (2 * M : Nat) := by
      rw [← Int.sub_bmod_right, Int.bmod_eq_of_le_mul_two (by omega) (by omega)]
    rw [hb, decide_eq_true (by omega), decide_eq_false (p := d < M) (by omega), decide_eq_false (p := d < 0) (by omega),
      Bool.and_false]
    rfl
  · rw [Int.bmod_eq_of_le_mul_two (by omega) (by omega), decide_eq_true hge, decide_eq_true hlt]
    exact Bool.xor_false _

/-- The sign and the overflow of a difference together tell which value is the less. -/
theorem msb_xor_diffOverflow {m : Nat} (a b : BitVec (m + 1)) :
    ((a - b).msb ^^ diffOverflow a b) = decide (a.toInt < b.toInt) := by
  have ha := a.toInt_lt
  have ha' := a.le_toInt
  have hb := b.toInt_lt
  have hb' := b.le_toInt
  have hM : (2 : Int) ^ m = (2 ^ m : Nat) := by push_cast; rfl
  simp only [Nat.add_sub_cancel, hM] at ha ha' hb hb'
  rw [BitVec.msb_eq_toInt, BitVec.toInt_sub, diffOverflow, fitsSigned, Nat.add_sub_cancel, hM, Nat.pow_succ',
    bmod_neg_xor_outside (by omega) (by omega), decide_eq_decide]
  omega

theorem msb_xor_diffOverflow_size (sz : Size) (a b : BitVec sz.bits) :
    ((a - b).msb ^^ diffOverflow a b) = decide (a.toInt < b.toInt) := by
  obtain ⟨m, hm⟩ := size_bits_succ sz
  revert a b
  rw [hm]
  exact msb_xor_diffOverflow

/-- Settles O58: the rows are read off the table; after a comparison S and V tell the signed order, C the unsigned one
and Z equality. -/
theorem conditionsAfterCompare : Obligations.ConditionsAfterCompare := by
  unfold Obligations.ConditionsAfterCompare
  refine ⟨fun f => ?rows, ?orders⟩
  case rows => simp [condOfCode, condTrue]
  case orders =>
    rintro sz a b f ⟨h, -, rfl⟩
    have hlt := msb_xor_diffOverflow_size sz a b
    have hle : (decide (a = b) || decide (a.toInt < b.toInt)) = decide (a.toInt ≤ b.toInt) := by
      rw [← Bool.decide_or, decide_eq_decide, ← BitVec.toInt_inj, le_iff_eq_or_lt]
    have hule : (decide (a.toNat < b.toNat) || decide (a = b)) = decide (a.toNat ≤ b.toNat) := by
      rw [← Bool.decide_or, decide_eq_decide, ← BitVec.toNat_inj, le_iff_lt_or_eq]
    simp only [condTrue, beq_eq_decide, hlt, hle, hule, ← decide_not, not_lt, not_le, ne_eq, and_self]

/-! ## Jumps (rules R290 to R294) -/

theorem jumpTo_or_advance (taken : Bool) (target : Long) (len : Nat) (s : State) :
    (if taken then jumpTo target s else advance len s) =
      { s with pc := if taken then target else s.pc + BitVec.ofNat 32 len } := by
  cases taken <;> rfl

/-- Settles O52: an absolute jump runs its definition, and the condition of a relative one chooses `pc`. -/
theorem directJumps : Obligations.DirectJumps := by
  unfold Obligations.DirectJumps
  intro s
  simp only [BitVec.ofNat_toNat, ← pc_add_sext32]
  exact ⟨fun _ => rfl, fun _ => rfl, fun cc d => congrArg _ (jumpTo_or_advance (condTrue cc s.f) _ 2 s),
    fun cc d => congrArg _ (jumpTo_or_advance (condTrue cc s.f) _ 3 s)⟩

end Sys2Proof.Machine
end

section
/-! PROOFS. LD into a register, and the stepping modes that LDA, JP and CALL refuse (41_transfer.md R120 to R124, R131,
R133; 49_jump_call.md R292, R297; decision D14). -/

namespace Sys2Proof

/-! ## What the decoder answers to a stepping mode (decision D14) -/

theorem ifNotStepping_of_steps {m : Mode} (h : m.steps = true) (p : Parsed Instr) :
    ifNotStepping m p = .refuse .notAdmitted := if_pos h

/-- Only an index register can make a mode illegal, and a stepping mode has none (rules R65, R66). -/
theorem Mode.legal_of_steps {m : Mode} (h : m.steps = true) : m.legal = true := by
  cases m with
  | index16 => cases h
  | _ => rfl

theorem decodeDst_lda_of_steps {m : Mode} (hs : m.steps = true) (R : R3) (rest : List Byte) :
    decodeDst m (0b00100#5 ++ R) rest = .refuse .notAdmitted ∧
      decodeDst m (0b00110#5 ++ R) rest = .refuse .notAdmitted := by
  constructor <;> simp [decodeDst, ifNotStepping_of_steps hs]

theorem decodeDst_jp_of_steps {m : Mode} (hs : m.steps = true) (cc : Cond) (rest : List Byte) :
    decodeDst m (0b1101#4 ++ codeOfCond cc) rest = .refuse .notAdmitted := by
  obtain h | h := hi5_condition 0b1101#4 (codeOfCond cc) <;> simp [decodeDst, h, ifNotStepping_of_steps hs]

theorem decodeDst_call_of_steps {m : Mode} (hs : m.steps = true) (cc : Cond) (rest : List Byte) :
    decodeDst m (0b1110#4 ++ codeOfCond cc) rest = .refuse .notAdmitted := by
  obtain h | h := hi5_condition 0b1110#4 (codeOfCond cc) <;> simp [decodeDst, h, ifNotStepping_of_steps hs]

end Sys2Proof

namespace Sys2Proof.Machine

/-! ## LD into a register (rules R120 to R124) -/

/-- A transfer into a register writes that register and no flag (rule R133). -/
theorem exec_ldReg {i : Instr} {s : State} {sz : Size} {c : RegCode} {v : BitVec sz.bits} {n : Nat}
    (hc : c.legal sz = true) (hx : exec i s = .next (advance n (writeReg sz c v s)))
    (hl : (encode i).length = n) :
    ∃ t, exec i s = .next t ∧ RegOnly sz c v s t ∧ t.f = s.f ∧ Past i s t :=
  exec_regOnly hc (FlagsStep.refl s) rfl hx hl

/-- Settles O21: each form is one register write, and its encoding has the length that `exec` goes past. -/
theorem ldIntoRegister : Obligations.LdIntoRegister := by
  unfold Obligations.LdIntoRegister
  simp only [BitVec.ofNat_toNat]
  refine fun s => ⟨?ldRr, ?ldrR, ?ldr3, ?ldRImmB, ?ldRImmW, ?ldRImmL, ?ldrImm⟩
  case ldRr => exact fun sz R _ => exec_ldReg (code3_legal sz R) rfl (by simp [encode])
  case ldrR | ldr3 => exact fun _ _ _ hwf => exec_ldReg (codeOf_legal hwf) rfl (by simp [encode])
  case ldRImmB | ldRImmW | ldRImmL => exact fun R _ => exec_ldReg (code3_legal _ R) rfl rfl
  case ldrImm => exact fun _ _ hwf => exec_ldReg (codeOf_legal hwf) rfl (by simp [encode])

/-! ## LDA, JP and CALL in a stepping mode (rules R131, R292, R297) -/

/-- Settles O57: `exec` asks for a plain mode first of all, and so do their slots of the opcode map, which the
decoder reaches because a stepping mode is legal. -/
theorem steppingModesNotAdmitted : Obligations.SteppingModesNotAdmitted := by
  unfold Obligations.SteppingModesNotAdmitted
  intro m R cc s hs
  refine ⟨ifPlain_of_steps hs _, ifPlain_of_steps hs _, ifPlain_of_steps hs _, ifPlain_of_steps hs _, fun rest => ?_⟩
  have hdst : ∀ op, decode (encodeDst m op [] ++ rest) = decodeDst m op rest := fun op =>
    decode_encodeDst (Mode.legal_of_steps hs) op [] rest
  obtain ⟨hldaW, hldaL⟩ := decodeDst_lda_of_steps hs R rest
  exact ⟨(hdst _).trans hldaW, (hdst _).trans hldaL, (hdst _).trans (decodeDst_jp_of_steps hs cc rest),
    (hdst _).trans (decodeDst_call_of_steps hs cc rest)⟩

end Sys2Proof.Machine
end

section
/-! PROOFS. EX F,F' (42_exchange.md R140). -/

namespace Sys2Proof.Machine

/-- EX F,F' hands each flag register the old value of the other and goes past its one byte (rule R140). -/
theorem exec_exFF (s : State) : exec .exFF s = .next (advance 1 { s with f := s.fAlt, fAlt := s.f }) := rfl

/-- Settles O26: the encoding is the one byte that `exec` goes past, and the exchange reads both registers before it
writes either. -/
theorem exchangeFlags : Obligations.ExchangeFlags := by
  unfold Obligations.ExchangeFlags
  refine ⟨?byte, ?legal, exec_exFF⟩
  case byte | legal => rfl

end Sys2Proof.Machine
end

section
/-! PROOFS. Block transfer and block search (43_block.md R150 to R159): the pc rule of an element that is done once or
repeated, one element of a transfer, one element of a search, and the three statements. -/

namespace Sys2Proof.Machine

/-! ## An element is done: past the instruction, or once more (rule R159)

`t` is the state that the element leaves at the pc of `s`, and `Q` what it says of every state that differs from `t` in
`pc` alone. -/

section Repetition

variable {i : Instr} {s t : State} {r : Res State} {Q : State → Prop}

theorem exec_once (hr : r = .next t) (hpc : t.pc = s.pc) (hQ : ∀ p, Q { t with pc := p })
    (hx : exec i s = andThen r fun u => .next (advance 2 u)) (hl : (encode i).length = 2) :
    ∃ u, exec i s = .next u ∧ Q u ∧ Past i s u := by
  rw [hr, andThen_next] at hx
  exact ⟨_, hx, hQ _, past_of_pc hl (by rw [advance_pc, hpc])⟩

theorem repeatWhile_eq (again : State → Bool) (t : State) :
    repeatWhile again t = { t with pc := if again t then t.pc else t.pc + 2#32 } := by
  unfold repeatWhile
  split
  · rfl
  · rfl

/-- The repetition is decided in the state that the element leaves, whatever its pc. -/
theorem exec_repeated {again : State → Bool} (hr : r = .next t) (hpc : t.pc = s.pc) (hQ : ∀ p, Q { t with pc := p })
    (hagain : ∀ p, again { t with pc := p } = again t)
    (hx : exec i s = andThen r fun u => .next (repeatWhile again u)) :
    ∃ u, exec i s = .next u ∧ Q u ∧ u.pc = if again u then s.pc else s.pc + 2#32 := by
  rw [hr, andThen_next, repeatWhile_eq] at hx
  have hsame := hagain (if again t then t.pc else t.pc + 2#32)
  exact ⟨_, hx, hQ _, by rw [hsame, ← hpc]⟩

end Repetition

/-! ## Pointer step and counter (rule R150) -/

theorem blockStep_up (sz : BW) : blockStep sz false = elementBytes sz := rfl

theorem blockStep_down (sz : BW) : blockStep sz true = -elementBytes sz := BitVec.zero_sub _

theorem counting_eq (s : State) : counting s = (bc s != 0#16) := rfl

theorem ite_counting {α : Type} (s : State) (x y : α) :
    (if counting s then x else y) = if bc s = 0 then y else x := by
  by_cases h : bc s = 0 <;> simp [counting_eq, h]

theorem onlyReg_countDown (s : State) : OnlyReg .word codeBC (bc s - 1#16) s (countDown s) :=
  onlyReg_writeReg rfl _ s

theorem readRow_countDown {r : Row} {s : State} (h : placeOf s r ≠ placeOf s codeBC.row) :
    readRow r (countDown s) = readRow r s :=
  readReg_writeReg_other (c' := ⟨r, 0#2⟩) h _

@[simp] theorem placeOf_writeRow (r q : Row) (x : Long) (s : State) : placeOf (writeRow r x s) q = placeOf s q :=
  placeOf_writeReg .long ⟨r, 0#2⟩ x s q

theorem readRow_writeRow_same (r : Row) (x : Long) (s : State) : readRow r (writeRow r x s) = x :=
  readReg_writeReg_same (row_legal r) x s

theorem readRow_writeRow_other {r q : Row} {s : State} (h : placeOf s q ≠ placeOf s r) (x : Long) :
    readRow q (writeRow r x s) = readRow q s :=
  readReg_writeReg_other (sz := .long) (sz' := .long) (c' := ⟨q, 0#2⟩) h x

theorem bc_writeRow {r : Row} {s : State} (h : placeOf s codeBC.row ≠ placeOf s r) (x : Long) :
    bc (writeRow r x s) = bc s :=
  readReg_writeReg_other (sz := .long) h x

theorem regByte_writeRow_other {r : Row} {s : State} {p : Place} {o : BitVec 2}
    (h : ¬ InPart s .long ⟨r, 0#2⟩ p o) (x : Long) : regByte (writeRow r x s) p o = regByte s p o :=
  regByte_writeReg_other (row_legal r) h x

/-! ## Transfer (rules R151 to R154) -/

/-- The two pointers of a transfer and its counter are three registers. -/
structure TransferPair (dst src : Row) : Prop where
  apart (s : State) : placeOf s dst ≠ placeOf s src
  dst_ne_bc (s : State) : placeOf s dst ≠ placeOf s codeBC.row
  src_ne_bc (s : State) : placeOf s src ≠ placeOf s codeBC.row

theorem transferPair_de_hl : TransferPair (.bank .cur .xde) (.bank .cur .xhl) where
  apart _ := by simp [placeOf]
  dst_ne_bc _ := by simp [placeOf, codeBC]
  src_ne_bc _ := by simp [placeOf, codeBC]

theorem transferPair_ix_iy : TransferPair .xix .xiy where
  apart _ := nofun
  dst_ne_bc _ := nofun
  src_ne_bc _ := nofun

section Transfer

variable {i : Instr} {sz : BW} {dst src : Row} {down : Bool} {v : BitVec sz.size.bits} {s : State}

/-- Three registers written one after another, none of them over another. -/
theorem transfer_registers (h : TransferPair dst src) {x y : Long} {t : State}
    (ht : t = countDown (writeRow src y (writeRow dst x s))) :
    readRow dst t = x ∧ readRow src t = y ∧ bc t = bc s - 1#16 ∧
      ∀ p o, ¬ InPart s .long ⟨dst, 0#2⟩ p o → ¬ InPart s .long ⟨src, 0#2⟩ p o → ¬ InPart s .word codeBC p o →
        regByte t p o = regByte s p o := by
  subst ht
  have hplace : ∀ r, placeOf (writeRow src y (writeRow dst x s)) r = placeOf s r := by simp
  refine ⟨?dst, ?src, ?counter, fun p o hdst hsrc hcount => ?frame⟩
  case dst =>
    rw [readRow_countDown (h.dst_ne_bc _), readRow_writeRow_other (h.apart _), readRow_writeRow_same]
  case src => rw [readRow_countDown (h.src_ne_bc _), readRow_writeRow_same]
  case counter =>
    have hbc : bc (writeRow src y (writeRow dst x s)) = bc s := by
      rw [bc_writeRow (h.src_ne_bc _).symm, bc_writeRow (h.dst_ne_bc s).symm]
    exact hbc ▸ (onlyReg_countDown _).1
  case frame =>
    rw [(onlyReg_countDown _).2 p o (by rwa [InPart, hplace]),
      regByte_writeRow_other (by rwa [InPart, placeOf_writeRow]), regByte_writeRow_other hdst]

/-- One element of a transfer: both pointers are read first, and the store leaves registers and flags alone. -/
theorem transferElement_next (h : TransferPair dst src) (hv : Readable sz.size (readRow src s) v s)
    (hw : Writable sz.size (readRow dst s) s) (down : Bool) :
    ∃ t, transferElement sz dst src down s = .next t ∧ t.pc = s.pc ∧
      ∀ p, Moved sz dst src (blockStep sz down) v s { t with pc := p } := by
  obtain ⟨m, hstore, hwrote⟩ := store_next_of_writable v hw
  obtain ⟨w, hwdef⟩ : ∃ w, w = countDown (writeRow src (readRow src s + blockStep sz down)
    (writeRow dst (readRow dst s + blockStep sz down) { s with mem := m })) := ⟨_, rfl⟩
  obtain ⟨hdst, hsrc, hbc, hframe⟩ := transfer_registers h hwdef
  have hf : w.f = s.f := by rw [hwdef]; rfl
  have hmem : w.mem = m := by rw [hwdef]; rfl
  have hcontrol : SameControl s w := by rw [hwdef]; exact ⟨rfl, rfl, rfl, rfl, rfl, rfl, rfl⟩
  have helement : transferElement sz dst src down s =
      .next { w with f := { w.f with h := false, n := false, v := counting w } } := by
    rw [transferElement, load_of_readable hv, andThen_next, hstore, andThen_next, ← hwdef]
  refine ⟨_, helement, ?pc, fun p => ⟨hwrote.congr rfl hmem, hdst, hsrc, hbc, hframe, ?flags, ?control⟩⟩
  case pc => rw [hwdef]; rfl
  case flags => rw [← hf]; rfl
  case control => exact hcontrol.trans ⟨rfl, rfl, rfl, rfl, rfl, rfl, rfl⟩

theorem exec_moveOnce (h : TransferPair dst src) (hv : Readable sz.size (readRow src s) v s)
    (hw : Writable sz.size (readRow dst s) s)
    (hx : exec i s = andThen (transferElement sz dst src down s) fun u => .next (advance 2 u))
    (hl : (encode i).length = 2) :
    ∃ t, exec i s = .next t ∧ Moved sz dst src (blockStep sz down) v s t ∧ Past i s t := by
  obtain ⟨_, hr, hpc, hmoved⟩ := transferElement_next h hv hw down
  exact exec_once hr hpc hmoved hx hl

theorem exec_moveRepeated (h : TransferPair dst src) (hv : Readable sz.size (readRow src s) v s)
    (hw : Writable sz.size (readRow dst s) s)
    (hx : exec i s = andThen (transferElement sz dst src down s) fun u => .next (repeatWhile counting u)) :
    ∃ t, exec i s = .next t ∧ Moved sz dst src (blockStep sz down) v s t ∧
      t.pc = if bc t = 0 then s.pc + 2#32 else s.pc := by
  obtain ⟨_, hr, hpc, hmoved⟩ := transferElement_next h hv hw down
  simpa only [ite_counting] using exec_repeated hr hpc hmoved (fun _ => rfl) hx

end Transfer

/-- Settles O28: each form is one transfer element on its pair of pointers, and goes past its two bytes. -/
theorem blockMoveOne : Obligations.BlockMoveOne := by
  unfold Obligations.BlockMoveOne
  intro sz v s
  rw [← blockStep_down, ← blockStep_up]
  refine ⟨fun hv hw => ⟨?ldiDE, ?lddDE⟩, fun hv hw => ⟨?ldiIX, ?lddIX⟩⟩
  case ldiDE | lddDE => exact exec_moveOnce transferPair_de_hl hv hw rfl rfl
  case ldiIX | lddIX => exact exec_moveOnce transferPair_ix_iy hv hw rfl rfl

/-- Settles O29: each form is one transfer element, done once more while it leaves BC other than zero. -/
theorem blockMoveRepeat : Obligations.BlockMoveRepeat := by
  unfold Obligations.BlockMoveRepeat
  intro sz v s
  rw [← blockStep_down, ← blockStep_up]
  refine ⟨fun hv hw => ⟨?ldirDE, ?lddrDE⟩, fun hv hw => ⟨?ldirIX, ?lddrIX⟩⟩
  case ldirDE | lddrDE => exact exec_moveRepeated transferPair_de_hl hv hw rfl
  case ldirIX | lddrIX => exact exec_moveRepeated transferPair_ix_iy hv hw rfl

/-! ## Search (rules R155 to R158) -/

section Search

variable {i : Instr} {sz : BW} {R : R3} {down : Bool} {v : BitVec sz.size.bits} {s : State}

/-- One element of a search: pointer and A or WA are read first, then the pointer is stepped, and last BC is counted
down, so a pointer XBC is stepped before its lower half is counted (decision D13). -/
theorem searchElement_next (hv : Readable sz.size (readR .long R s) v s) (down : Bool) :
    ∃ t, searchElement sz R down s = .next t ∧ t.pc = s.pc ∧
      ∀ p, Compared sz R (blockStep sz down) v s { t with pc := p } := by
  obtain ⟨u, hudef⟩ : ∃ u, u = writeR .long R (readR .long R s + blockStep sz down) s := ⟨_, rfl⟩
  obtain ⟨hpointer, hmem, hcontrol⟩ : RegOnly .long (code3 .long R) (readR .long R s + blockStep sz down) s u :=
    hudef ▸ regOnly_writeReg (code3_legal .long R) _ s
  have hf : u.f = s.f := by rw [hudef, writeR_f]
  have hpc : u.pc = s.pc := by rw [hudef, writeR_pc]
  have helement : searchElement sz R down s = .next { countDown u with
      f := ⟨(readReg sz.size codeA s - v).msb, readReg sz.size codeA s == v, halfBorrow (readReg sz.size codeA s) v,
        counting (countDown u), true, u.f.c⟩ } := by
    rw [← subN_s, ← subN_z, ← subN_h, searchElement, load_of_readable hv, andThen_next, ← hudef]
    rfl
  refine ⟨_, helement, hpc, fun p => ⟨⟨u, hpointer, hcontrol.rfp, ?count⟩, hmem, ?control, ?flags⟩⟩
  case count => exact (onlyReg_countDown u).congr rfl rfl rfl rfl
  case control => exact hcontrol.trans ⟨rfl, rfl, rfl, rfl, rfl, rfl, rfl⟩
  case flags => rw [← hf]; rfl

theorem exec_searchOnce (hv : Readable sz.size (readR .long R s) v s)
    (hx : exec i s = andThen (searchElement sz R down s) fun u => .next (advance 2 u))
    (hl : (encode i).length = 2) :
    ∃ t, exec i s = .next t ∧ Compared sz R (blockStep sz down) v s t ∧ Past i s t := by
  obtain ⟨_, hr, hpc, hcompared⟩ := searchElement_next hv down
  exact exec_once hr hpc hcompared hx hl

/-- After a comparison Z tells a match, so the search goes on while neither end is reached (rules R156, R158). -/
theorem ite_searching {step : Long} {t : State} {α : Type} (h : Compared sz R step v s t) (x y : α) :
    (if searching t then x else y) = if readReg sz.size codeA s = v ∨ bc t = 0 then y else x := by
  obtain ⟨-, -, -, hf⟩ := h
  have hz : t.f.z = (readReg sz.size codeA s == v) := by rw [hf]
  by_cases hmatch : readReg sz.size codeA s = v <;> simp [searching, hz, hmatch, ite_counting]

theorem exec_searchRepeated (hv : Readable sz.size (readR .long R s) v s)
    (hx : exec i s = andThen (searchElement sz R down s) fun u => .next (repeatWhile searching u)) :
    ∃ t, exec i s = .next t ∧ Compared sz R (blockStep sz down) v s t ∧
      t.pc = if readReg sz.size codeA s = v ∨ bc t = 0 then s.pc + 2#32 else s.pc := by
  obtain ⟨_, hr, hpc, hcompared⟩ := searchElement_next hv down
  obtain ⟨t, ht, hc, hpc⟩ := exec_repeated hr hpc hcompared (fun _ => rfl) hx
  exact ⟨t, ht, hc, hpc.trans (ite_searching hc _ _)⟩

end Search

/-- Settles O30: each form is one search element, past its two bytes or done once more. -/
theorem blockSearch : Obligations.BlockSearch := by
  unfold Obligations.BlockSearch
  intro sz R v s hv
  rw [← blockStep_down, ← blockStep_up]
  refine ⟨?cpi, ?cpd, ?cpir, ?cpdr⟩
  case cpi | cpd => exact exec_searchOnce hv rfl rfl
  case cpir | cpdr => exact exec_searchRepeated hv rfl

end Sys2Proof.Machine
end

section
/-! PROOFS. EXTZ, EXTS and DAA (44_arithmetic.md R162, R190 to R192): the extended values, the DAA table against its
closed form, ADC and then DAA as decimal addition, and the three statements. -/

namespace Sys2Proof.Machine

/-! ## EXTZ and EXTS (rules R190, R191) -/

theorem zeroUpper_word (v : Word) : zeroUpper .word v = BitVec.ofNat 16 (v.toNat % 2 ^ 8) := by
  simp [zeroUpper, ← BitVec.toNat_inj]

theorem zeroUpper_long (v : Long) : zeroUpper .long v = BitVec.ofNat 32 (v.toNat % 2 ^ 16) := by
  simp [zeroUpper, ← BitVec.toNat_inj]

theorem signUpper_word (v : Word) : signUpper .word v = BitVec.ofInt 16 (BitVec.ofNat 8 v.toNat).toInt := rfl

theorem signUpper_long (v : Long) : signUpper .long v = BitVec.ofInt 32 (BitVec.ofNat 16 v.toNat).toInt := rfl

/-- Settles O36: the bytes are those of class REG, and each form writes its register over itself, extended. -/
theorem extendForms : Obligations.ExtendForms := by
  unfold Obligations.ExtendForms
  refine ⟨fun k => ⟨rfl, rfl, rfl, rfl⟩, fun c => ⟨rfl, rfl, rfl, rfl⟩, fun r s => ?forms⟩
  simp only [← zeroUpper_word, ← zeroUpper_long, ← signUpper_word, ← signUpper_long]
  refine ⟨fun hwf => ?extzWord, fun hwf => ?extzLong, fun hwf => ?extsWord, fun hwf => ?extsLong⟩
  case extzWord | extzLong | extsWord | extsLong =>
    exact exec_regOnly (codeOf_legal hwf) (FlagsStep.refl s) rfl rfl (by simp [encode])

/-! ## The rows of the DAA table (rule R192) -/

theorem DaaRow.matches_iff {r : DaaRow} {f : Flags} {d : Byte} : r.matches f d = true ↔
    (r.n = f.n ∧ r.c = f.c ∧ r.h = f.h) ∧ (r.uLo ≤ d.toNat / 16 ∧ d.toNat / 16 ≤ r.uHi) ∧
      r.lLo ≤ d.toNat % 16 ∧ d.toNat % 16 ≤ r.lHi := by
  simp [DaaRow.matches, and_assoc]

/-- Two rows differ in a flag, or in the range of a digit. -/
abbrev DaaRow.Apart (p q : DaaRow) : Prop :=
  (p.n ≠ q.n ∨ p.c ≠ q.c ∨ p.h ≠ q.h) ∨ (p.uHi < q.uLo ∨ q.uHi < p.uLo) ∨ p.lHi < q.lLo ∨ q.lHi < p.lLo

theorem DaaRow.Apart.not_both {p q : DaaRow} (h : p.Apart q) (f : Flags) (d : Byte) :
    ¬ (p.matches f d = true ∧ q.matches f d = true) := by
  rintro ⟨hp, hq⟩
  obtain ⟨⟨hpn, hpc, hph⟩, hpu, hpl⟩ := DaaRow.matches_iff.1 hp
  obtain ⟨⟨hqn, hqc, hqh⟩, hqu, hql⟩ := DaaRow.matches_iff.1 hq
  obtain (hn | hc | hh) | hrange := h
  · exact hn (hpn.trans hqn.symm)
  · exact hc (hpc.trans hqc.symm)
  · exact hh (hph.trans hqh.symm)
  · omega

theorem daaTable_pairwise_apart : daaTable.Pairwise DaaRow.Apart := by decide

/-- The inputs with a row are those the closed form lists, for each setting of N, C and H. -/
theorem daaCovers_iff (f : Flags) (d : Byte) : DaaCovers f d = true ↔ ∃ row ∈ daaTable, row.matches f d = true := by
  have hd := d.isLt
  obtain ⟨fs, fz, h, fv, n, c⟩ := f
  cases n <;> cases c <;> cases h
  all_goals simp [DaaCovers, daaTable, DaaRow.matches_iff]
  all_goals omega

/-! ## The closed form -/

/-- What DAA adds: 6 for the lower digit and 60H for the upper, negative after a subtraction. -/
def daaAdjustment (n low high : Bool) : Int :=
  let k : Int := 6 * low.toNat + 0x60 * high.toNat
  if n then -k else k

theorem ofInt_toNat_add {n : Nat} (d : BitVec n) (k : Int) : BitVec.ofInt n (d.toNat + k) = d + BitVec.ofInt n k := by
  rw [BitVec.ofInt_add, BitVec.ofInt_natCast, BitVec.ofNat_toNat, BitVec.setWidth_eq]

theorem daaResult_eq (f : Flags) (d : Byte) :
    daaResult f d = d + BitVec.ofInt 8 (daaAdjustment f.n (daaLow f d) (daaHigh f d)) := by
  rw [← ofInt_toNat_add, daaResult, daaAdjustment]
  cases f.n <;> rfl

/-- `daaLow` at the least byte of a row. -/
abbrev DaaRow.low (r : DaaRow) : Bool := if r.n then r.h else r.h || decide (9 < r.lLo)

/-- `daaHigh` at the least byte of a row. -/
abbrev DaaRow.high (r : DaaRow) : Bool := if r.n then r.c else r.c || decide (0x99 < 16 * r.uLo + r.lLo)

/-- The tests of the closed form have one outcome on all of a row. -/
abbrev DaaRow.Uniform (r : DaaRow) : Prop :=
  (r.n = true ∨ r.h = true ∨ 9 < r.lLo ∨ r.lHi ≤ 9) ∧
    (r.n = true ∨ r.c = true ∨ 0x99 < 16 * r.uLo + r.lLo ∨ 16 * r.uHi + r.lHi ≤ 0x99)

/-- The row adds what the closed form asks for, and leaves its C. -/
abbrev DaaRow.Adjusts (r : DaaRow) : Prop :=
  r.added = BitVec.ofInt 8 (daaAdjustment r.n r.low r.high) ∧
    (r.n = false → r.added.toNat % 16 = 6 * r.low.toNat) ∧ r.cAfter = r.high

theorem daaTable_uniform : ∀ r ∈ daaTable, r.Uniform := by decide

theorem daaTable_adjusts : ∀ r ∈ daaTable, r.Adjusts := by decide

theorem DaaRow.low_eq {r : DaaRow} {f : Flags} {d : Byte} (hr : r ∈ daaTable) (hm : r.matches f d = true) :
    r.low = daaLow f d := by
  obtain ⟨⟨hfn, -, hfh⟩, -, hlower⟩ := DaaRow.matches_iff.1 hm
  obtain ⟨hn | hh | hrange, -⟩ := daaTable_uniform r hr <;> rw [DaaRow.low, daaLow, ← hfn, ← hfh]
  · simp [hn]
  · simp [hh]
  · have htest : 9 < r.lLo ↔ 9 < d.toNat % 16 := by omega
    rw [decide_eq_decide.2 htest]

theorem DaaRow.high_eq {r : DaaRow} {f : Flags} {d : Byte} (hr : r ∈ daaTable) (hm : r.matches f d = true) :
    r.high = daaHigh f d := by
  obtain ⟨⟨hfn, hfc, -⟩, hupper, hlower⟩ := DaaRow.matches_iff.1 hm
  obtain ⟨-, hn | hc | hrange⟩ := daaTable_uniform r hr <;> rw [DaaRow.high, daaHigh, ← hfn, ← hfc]
  · simp [hn]
  · simp [hc]
  · have htest : 0x99 < 16 * r.uLo + r.lLo ↔ 0x99 < d.toNat := by omega
    rw [decide_eq_decide.2 htest]

/-! ## DAA -/

theorem daaOp_n (d : Byte) (s : State) : (daaOp d s).2.f.n = s.f.n := by
  unfold daaOp
  split
  · dsimp only
    split <;> rfl
  · rfl

/-- The flags after DAA where the table has a row; with N = 1 the value of H is free (rule R192, decision D22). -/
def DaaFlags (f : Flags) (d : Byte) (g : Flags) : Prop :=
  ∃ h, (f.n = false → h = decide (15 < d.toNat % 16 + 6 * (daaLow f d).toNat)) ∧
    g = ⟨(daaResult f d).msb, daaResult f d == 0, h, evenOnes (daaResult f d), f.n, daaHigh f d⟩

/-- DAA with the row that the table finds. -/
theorem daaOp_of_find {r : DaaRow} {d : Byte} {s : State} (h : daaTable.find? (·.matches s.f d) = some r) :
    (daaOp d s).1 = d + r.added ∧
      ∃ half, (s.f.n = false → half = decide (15 < d.toNat % 16 + r.added.toNat % 16)) ∧
        (daaOp d s).2.f =
          ⟨(d + r.added).msb, d + r.added == 0, half, parityEven (d + r.added), s.f.n, r.cAfter⟩ := by
  unfold daaOp
  rw [h]
  cases hn : s.f.n with
  | true => exact ⟨rfl, undefBit 0 s, nofun, by simp [hn]⟩
  | false => exact ⟨rfl, _, fun _ => rfl, by simp [hn]⟩

theorem daaOp_of_covers {d : Byte} {s : State} (hd : DaaCovers s.f d = true) :
    (daaOp d s).1 = daaResult s.f d ∧ DaaFlags s.f d (daaOp d s).2.f := by
  obtain ⟨r, hfind⟩ := Option.isSome_iff_exists.1 (List.find?_isSome.2 ((daaCovers_iff s.f d).1 hd))
  have hr := List.mem_of_find?_eq_some hfind
  have hm := List.find?_some (p := fun r : DaaRow => r.matches s.f d) hfind
  obtain ⟨⟨hn, -, -⟩, -, -⟩ := DaaRow.matches_iff.1 hm
  obtain ⟨hadded, hunits, hcarry⟩ := daaTable_adjusts r hr
  obtain ⟨hres, half, hhalf, hflags⟩ := daaOp_of_find hfind
  rw [r.low_eq hr hm] at hadded hunits
  rw [r.high_eq hr hm] at hadded hcarry
  have hsum : d + r.added = daaResult s.f d := by rw [daaResult_eq, hadded, hn]
  rw [hsum, parityEven_eq, hcarry] at hflags
  exact ⟨hres.trans hsum, half, fun hadd => hunits (hn.trans hadd) ▸ hhalf hadd, hflags⟩

theorem exec_daa {r : RegOp} (hwf : WellFormed (.daa r)) (s : State) :
    ∃ t, exec (.daa r) s = .next t ∧ RegOnly .byte (codeOf .byte r) (daaOp (readOp .byte r s) s).1 s t ∧
      t.f = (daaOp (readOp .byte r s) s).2.f ∧ Past (.daa r) s t :=
  exec_regOnly (codeOf_legal hwf) (flagsStep_daaOp _ s) rfl rfl (by simp [encode])

theorem exec_daa_of_covers {r : RegOp} (hwf : WellFormed (.daa r)) {s : State}
    (hd : DaaCovers s.f (readOp .byte r s) = true) :
    ∃ t, exec (.daa r) s = .next t ∧ RegOnly .byte (codeOf .byte r) (daaResult s.f (readOp .byte r s)) s t ∧
      Past (.daa r) s t ∧ DaaFlags s.f (readOp .byte r s) t.f := by
  obtain ⟨t, ht, hreg, hf, hpast⟩ := exec_daa hwf s
  obtain ⟨hres, hflags⟩ := daaOp_of_covers hd
  exact ⟨t, ht, hres ▸ hreg, hpast, hf ▸ hflags⟩

/-- Settles O37: rows are apart by a flag or a digit's range, and the one that matches adjusts as the closed form. -/
theorem daaForm : Obligations.DaaForm := by
  unfold Obligations.DaaForm
  refine ⟨daaTable_pairwise_apart.imp DaaRow.Apart.not_both, daaCovers_iff, fun r s hwf => ⟨?covered, ?free⟩⟩
  case covered => exact exec_daa_of_covers hwf
  case free =>
    obtain ⟨t, ht, hreg, hf, hpast⟩ := exec_daa hwf s
    exact fun _ => ⟨t, ht, ⟨_, hreg⟩, hpast, hf ▸ daaOp_n _ s⟩

/-! ## Decimal addition (rules R162, R192) -/

/-- A number below 100 as two decimal digits. -/
def packed (n : Nat) : Byte := BitVec.ofNat 8 (16 * (n / 10) + n % 10)

theorem packed_toNat {n : Nat} (h : n < 100) : (packed n).toNat = 16 * (n / 10) + n % 10 := by
  rw [packed, BitVec.toNat_ofNat, Nat.mod_eq_of_lt (by omega)]

theorem sumOf_toNat {n : Nat} (a b : BitVec n) (c : Bool) :
    (sumOf a b c).toNat = (a.toNat + b.toNat + c.toNat) % 2 ^ n := by
  simp [sumOf]

/-- With N = 0 only a half carry or a carry bounds a digit. -/
theorem daaCovers_of_add {f : Flags} {d : Byte} (hn : f.n = false) : DaaCovers f d = true ↔
    (f.h = true → d.toNat % 16 ≤ 3) ∧ (f.c = true → d.toNat / 16 ≤ 2 + f.h.toNat) := by
  cases hc : f.c <;> cases hh : f.h <;> simp [DaaCovers, hn, hc, hh, and_comm]

theorem daaResult_toNat_of_add {f : Flags} {d : Byte} (hn : f.n = false) :
    (daaResult f d).toNat = (d.toNat + 6 * (daaLow f d).toNat + 0x60 * (daaHigh f d).toNat) % 2 ^ 8 := by
  have hk : daaAdjustment false (daaLow f d) (daaHigh f d) =
      ((6 * (daaLow f d).toNat + 0x60 * (daaHigh f d).toNat : Nat) : Int) := by simp [daaAdjustment]
  rw [daaResult_eq, hn, hk, BitVec.ofInt_natCast, BitVec.toNat_add, BitVec.toNat_ofNat, Nat.add_mod_mod, Nat.add_assoc]

/-- The byte and the flags after a binary addition of decimal digits: `upper` and `lower` are the sums of the two upper
and the two lower digits, the lower with the carry. -/
structure DigitSums (upper lower : Nat) (f : Flags) (d : Byte) : Prop where
  upper_le : upper ≤ 18
  lower_le : lower ≤ 19
  byte : d.toNat = (16 * upper + lower) % 2 ^ 8
  sub : f.n = false
  half : f.h = decide (16 ≤ lower)
  carry : f.c = decide (2 ^ 8 ≤ 16 * upper + lower)

theorem digitSums_of_addFlags {x y : Nat} (hx : x < 100) (hy : y < 100) {cin : Bool} {f : Flags}
    (hf : AddFlags .byte (packed x) (packed y) cin f) :
    DigitSums (x / 10 + y / 10) (x % 10 + y % 10 + cin.toNat) f (sumOf (packed x) (packed y) cin) := by
  have hcin := cin.toNat_le
  have hsum : (packed x).toNat + (packed y).toNat + cin.toNat =
      16 * (x / 10 + y / 10) + (x % 10 + y % 10 + cin.toNat) := by
    rw [packed_toNat hx, packed_toNat hy]
    omega
  have hlower : (packed x).toNat % 16 + (packed y).toNat % 16 + cin.toNat = x % 10 + y % 10 + cin.toNat := by
    rw [packed_toNat hx, packed_toNat hy]
    omega
  obtain ⟨h, hh, rfl⟩ := hf
  refine ⟨by omega, by omega, ?byte, rfl, ?half, ?carry⟩
  case byte => rw [sumOf_toNat, hsum]
  case half => rw [← hlower]; exact hh nofun
  case carry => rw [← hsum]; rfl

namespace DigitSums

variable {upper lower : Nat} {f : Flags} {d : Byte}

theorem covers (h : DigitSums upper lower f d) : DaaCovers f d = true := by
  obtain ⟨hupper, hlower, hd, hn, hh, hc⟩ := h
  rw [daaCovers_of_add hn, hh, hc, decide_eq_true_iff, decide_eq_true_iff]
  refine ⟨fun _ => by omega, fun _ => ?_⟩
  simp only [Bool.toNat, Bool.cond_decide]
  split <;> omega

/-- The lower digit is adjusted when the sum of the lower digits is no digit. -/
theorem daaLow_eq (h : DigitSums upper lower f d) : daaLow f d = decide (10 ≤ lower) := by
  obtain ⟨hupper, hlower, hd, hn, hh, -⟩ := h
  rw [daaLow, hn, hh, if_neg nofun, ← Bool.decide_or, decide_eq_decide]
  omega

/-- The upper digit is adjusted when the decimal sum has three digits. -/
theorem daaHigh_eq (h : DigitSums upper lower f d) : daaHigh f d = decide (100 ≤ 10 * upper + lower) := by
  obtain ⟨hupper, hlower, hd, hn, -, hc⟩ := h
  rw [daaHigh, hn, hc, if_neg nofun, ← Bool.decide_or, decide_eq_decide]
  omega

/-- The decimal digits of the sum: each adjusted digit hands ten units on as a carry. -/
theorem decimal_digits (h : DigitSums upper lower f d) : ∃ tens units, tens ≤ 9 ∧ units ≤ 9 ∧
    lower = units + 10 * (daaLow f d).toNat ∧ upper + (daaLow f d).toNat = tens + 10 * (daaHigh f d).toNat := by
  refine ⟨upper + (daaLow f d).toNat - 10 * (daaHigh f d).toNat, lower - 10 * (daaLow f d).toNat, ?_⟩
  rw [h.daaLow_eq, h.daaHigh_eq]
  have hupper := h.upper_le
  have hlower := h.lower_le
  simp only [Bool.toNat, Bool.cond_decide]
  split <;> split <;> omega

/-- Ten units of a digit and its adjustment by 6 are the 16 of a binary carry. -/
theorem daaResult_eq (h : DigitSums upper lower f d) : daaResult f d = packed ((10 * upper + lower) % 100) := by
  obtain ⟨tens, units, htens, hunits, hlow, hhigh⟩ := h.decimal_digits
  have hdecimal : (10 * upper + lower) % 100 = 10 * tens + units := by omega
  apply BitVec.eq_of_toNat_eq
  rw [daaResult_toNat_of_add h.sub, h.byte, hdecimal, packed_toNat (by omega)]
  omega

end DigitSums

/-- Settles O38: ADC leaves the sums of the digits in A, H and C, and DAA turns them into the decimal sum. -/
theorem decimalAddition : Obligations.DecimalAddition := by
  unfold Obligations.DecimalAddition
  intro x y s hx hy _ hA hB
  obtain ⟨hadc, -⟩ := adcForms s
  obtain ⟨u, hu, ⟨⟨hsum, -⟩, -, -⟩, hf, -⟩ := hadc .byte 1#3 (.short 2#3)
  have ha : readR .byte 1#3 s = packed x := hA
  have hb : readOp .byte (.short 2#3) s = packed y := hB
  rw [ha, hb] at hf hsum
  have hdigits := digitSums_of_addFlags hx hy hf
  have hd : readOp .byte (.short 1#3) u = sumOf (packed x) (packed y) s.f.c := hsum
  have htotal : 10 * (x / 10 + y / 10) + (x % 10 + y % 10 + s.f.c.toNat) = x + y + s.f.c.toNat := by omega
  obtain ⟨t, ht, ⟨⟨hres, -⟩, -, -⟩, -, h, -, hflags⟩ :=
    exec_daa_of_covers (r := .short 1#3) rfl (hd ▸ hdigits.covers)
  rw [hd, hdigits.daaResult_eq, htotal] at hres
  refine ⟨u, t, hu, ht, hres, ?carry⟩
  rw [hflags, hd, hdigits.daaHigh_eq, htotal]

end Sys2Proof.Machine
end

section
/-! PROOFS. CPL (45_logic.md R215). -/

namespace Sys2Proof.Machine

/-- CPL as a flag update and then one register write: it reads its operand before either (rule R215). -/
theorem exec_cpl (sz : BW) (r : RegOp) (s : State) : exec (.cpl sz r) s =
    .next (advance (regLen r 0) (writeReg sz.size (codeOf sz.size r) (~~~(readOp sz.size r s))
      { s with f := { s.f with h := true, n := true } })) := rfl

/-- Settles O42: the bytes are those of class REG, and CPL writes its register over itself, inverted, and the two
flags. -/
theorem cplForm : Obligations.CplForm := by
  unfold Obligations.CplForm
  refine ⟨fun k => ⟨?byteShort, ?wordShort⟩, fun c => ⟨?byteExt, ?wordExt⟩, fun sz r s hwf => ?effect⟩
  case byteShort | wordShort | byteExt | wordExt => rfl
  case effect =>
    exact exec_regOnly (codeOf_legal hwf) (flagsStep_setFlags _ s) rfl (exec_cpl sz r s) (by simp [encode])

end Sys2Proof.Machine
end

section
/-! PROOFS. LDCF and ANDCF on a register, CCF, BIT, CHG and BS1B (46_bit.md R220, R221, R224, R225, R228 to R234): what
an instruction that only writes flags answers, the bit that CHG inverts, the highest 1 bit, and the five statements. -/

namespace Sys2Proof.Machine

/-! ## Instructions that only write flags -/

section FlagsOnly

variable {i : Instr} {s : State} {n : Nat}

/-- A flag update in the state `e` that the effective address leaves. -/
theorem exec_flagsOnly {e u : State} (hu : FlagsStep e u) (he : e.pc = s.pc)
    (hx : exec i s = .next (advance n u)) (hl : (encode i).length = n) :
    ∃ t, exec i s = .next t ∧ Untouched e t ∧ t.f = u.f ∧ Past i s t :=
  ⟨_, hx, untouched_of_flagsStep hu n, rfl, past_of_pc hl (by rw [advance_pc, hu.pc, he])⟩

/-- LDCF (`keep` false) and ANDCF (`keep` true) of the value `v` of a register. -/
theorem exec_carryFromReg {sz : Size} {v : BitVec sz.bits} {num : Nat} {keep : Bool}
    (hx : exec i s = .next (advance n (carryFromBit sz v num keep s))) (hl : (encode i).length = n) :
    ∃ t, exec i s = .next t ∧ Untouched s t ∧ CarryFrom sz v num keep s.f t.f ∧ Past i s t := by
  obtain ⟨t, ht, hsame, hf, hpast⟩ := exec_flagsOnly (flagsStep_carryFromBit sz v num keep s) rfl hx hl
  exact ⟨t, ht, hsame, hf ▸ carryFrom_carryFromBit sz v num keep s, hpast⟩

/-- The flags of BIT (rules R229, R230). -/
theorem bitFlags_bitFlags {w : Nat} (v : BitVec w) (num : Nat) (s : State) :
    BitFlags (v.getLsbD num) s.f (bitFlags v num s).f :=
  ⟨undefBit 0 s, undefBit 1 s, rfl⟩

/-- A bit test in the state `e` that the effective address leaves. -/
theorem exec_bitTest {e : State} {w : Nat} {v : BitVec w} {num : Nat} (hf : e.f = s.f) (he : e.pc = s.pc)
    (hx : exec i s = .next (advance n (bitFlags v num e))) (hl : (encode i).length = n) :
    ∃ t, exec i s = .next t ∧ Untouched e t ∧ BitFlags (v.getLsbD num) s.f t.f ∧ Past i s t := by
  obtain ⟨t, ht, hsame, hflags, hpast⟩ := exec_flagsOnly (flagsStep_bitFlags v num e) he hx hl
  exact ⟨t, ht, hsame, hf ▸ hflags ▸ bitFlags_bitFlags v num e, hpast⟩

end FlagsOnly

/-! ## LDCF and ANDCF on a register, and CCF (rules R220, R221, R224, R225, R228) -/

/-- Settles O43: each form reads its bit, by a number in the instruction or in A, and writes C alone. -/
theorem carryFromRegisterBit : Obligations.CarryFromRegisterBit := by
  unfold Obligations.CarryFromRegisterBit
  intro sz r s
  rw [← numberInA_eq]
  refine ⟨fun n => ?ldcf4, fun n => ?andcf4, ?ldcfA, ?andcfA⟩
  case ldcf4 | andcf4 | ldcfA | andcfA => exact exec_carryFromReg rfl (by simp [encode])

/-- Settles O45: the value drawn for H is the one that has no stated value. -/
theorem ccfForm : Obligations.CcfForm := by
  unfold Obligations.CcfForm
  refine ⟨rfl, rfl, fun s => ?_⟩
  obtain ⟨t, ht, hsame, hf, hpast⟩ :=
    exec_flagsOnly (i := .ccf) (flagsStep_drawn_setFlags 1 { s.f with c := !s.f.c, n := false, h := undefBit 0 s } s)
      rfl rfl rfl
  exact ⟨t, ht, hsame, ⟨undefBit 0 s, hf⟩, hpast⟩

/-! ## BIT and CHG (rules R229 to R232, R234) -/

theorem bitInside_iff {sz : BW} {n : BitVec 4} : bitInside sz n = true ↔ n.toNat < sz.size.bits := by
  cases sz with
  | byte => exact decide_eq_true_iff
  | word => exact iff_of_true rfl n.isLt

/-- A number of 8 or more lies outside a byte register (decision D23). -/
theorem not_bitInside_byte {n : BitVec 4} (h : 8 ≤ n.toNat) : ¬ bitInside .byte n = true :=
  fun hin => Nat.not_lt_of_le h (bitInside_iff.1 hin)

/-- Settles O46: inside the operand BIT only writes flags, outside a byte register the guard refuses it. -/
theorem bitForms : Obligations.BitForms := by
  unfold Obligations.BitForms
  refine fun s => ⟨fun sz n r hn => ?bit4, fun n r hn => ?outside, fun n m v hv => ?bit3⟩
  case bit4 => exact exec_bitTest rfl rfl (if_pos (bitInside_iff.2 hn)) (by simp [encode])
  case outside => exact if_neg (not_bitInside_byte hn)
  case bit3 =>
    have hx : exec (.bit3Mem n m) s = .next (advance (memLen m 0) (bitFlags v n.toNat (eaState m s))) :=
      withMemByte_next hv
    exact exec_bitTest (eaState_f s m) (eaState_pc s m) hx (by simp [encode])

/-- The mask of one bit: a power of two, truncated, is the shifted 1. -/
theorem ofNat_two_pow_eq_shiftLeft (w k : Nat) : BitVec.ofNat w (2 ^ k) = 1#w <<< k := by
  rw [← BitVec.twoPow_eq, ← BitVec.toNat_inj, BitVec.toNat_ofNat, BitVec.toNat_twoPow]

/-- Settles O47: CHG writes its operand back with one bit inverted and leaves F alone; outside a byte register the
guard refuses it. -/
theorem chgForms : Obligations.ChgForms := by
  unfold Obligations.ChgForms
  simp only [← ofNat_two_pow_eq_shiftLeft]
  refine fun s => ⟨fun sz n r hwf => ?chg4, fun n r hn => ?outside, fun n m v hv hw => ?chg3⟩
  case chg4 =>
    obtain ⟨hr, hin⟩ := Bool.and_eq_true_iff.1 hwf
    exact exec_regOnly (codeOf_legal hr) (FlagsStep.refl s) rfl (if_pos hin) (by simp [encode])
  case outside => exact if_neg (not_bitInside_byte hn)
  case chg3 =>
    have hx : exec (.chg3Mem n m) s =
        andThen (store .byte (eaAddr m s) (v ^^^ BitVec.ofNat 8 (2 ^ n.toNat)) (eaState m s)) fun w =>
          .next (advance (memLen m 0) w) := by
      change execChg3Mem n m s = _
      simp only [execChg3Mem, load_ea hv, andThen_next]
    exact exec_store_ea hw hx (by simp [encode])

/-! ## BS1B (rule R233) -/

/-- The highest 1 bit of a value that has one is at the floor of its logarithm. -/
theorem topOne_of_ne_zero {n : Nat} {v : BitVec n} (hv : v ≠ 0) : topOne v n = some v.toNat.log2 := by
  have hnat : v.toNat ≠ 0 := toNat_eq_zero_iff.not.2 hv
  have hlt : v.toNat.log2 < n := (Nat.log2_lt hnat).2 v.isLt
  have hbit : v.getLsbD v.toNat.log2 = true := by
    rw [← BitVec.testBit_toNat]
    exact Nat.testBit_log2 hnat
  cases htop : topOne v n with
  | none => exact absurd hbit (by simp [topOne_eq_none htop _ hlt])
  | some i =>
    obtain ⟨_, hi, habove⟩ := topOne_eq_some htop
    rw [← BitVec.testBit_toNat] at hi
    have hle : i ≤ v.toNat.log2 := (Nat.le_log2 hnat).2 (Nat.ge_two_pow_of_testBit hi)
    have hge : ¬ i < v.toNat.log2 := fun h => by simp [habove _ h hlt] at hbit
    rw [Nat.le_antisymm hle (Nat.not_lt.1 hge)]

theorem topOne_zero (n k : Nat) : topOne (0#n) k = none := by
  induction k with
  | zero => rfl
  | succ k ih => simp [topOne, ih]

theorem exec_bs1b_of_ne_zero {r : RegOp} {s : State} (h : readOp .word r s ≠ 0#16) : exec (.bs1b r) s =
    .next (advance (regLen r 0) (writeReg .byte codeA (BitVec.ofNat 8 (readOp .word r s).toNat.log2)
      { s with f := { s.f with v := false } })) := by
  have htop : topOne (readOp .word r s) 16 = some (readOp .word r s).toNat.log2 := topOne_of_ne_zero h
  change execBs1b r s = _
  simp only [execBs1b, htop]

theorem exec_bs1b_of_zero {r : RegOp} {s : State} (h : readOp .word r s = 0#16) : exec (.bs1b r) s =
    .next (advance (regLen r 0) (writeReg .byte codeA (undefVal 8 0 s)
      (drawn 1 { s with f := { s.f with v := true } }))) := by
  have htop : topOne (readOp .word r s) 16 = none := h ▸ topOne_zero 16 16
  change execBs1b r s = _
  simp only [execBs1b, htop]

/-- In class REG with a register code byte, a slot that is undefined for every register is undefined for every code
byte: the code is refused with the same answer where it names no register of the size (rules R85, R112). -/
theorem decode_regCode_undefined {sz : Size} {op : Byte} {rest : List Byte}
    (hop : ∀ c : RegCode, decodeReg sz (.ext c) op rest = .refuse .undefined) (b : Byte) :
    decode ((0b11#2 ++ codeOfSize sz ++ 0b0111#4) :: b :: op :: rest) = .refuse .undefined := by
  by_cases hb : ∃ c, regOfCode b = some c ∧ c.legal sz = true
  · obtain ⟨c, hc, hlegal⟩ := hb
    rw [← regOfCode_eq_some hc]
    exact (decode_encodeReg (r := .ext c) hlegal op [] rest).trans (hop c)
  · have hread : takeReg sz (b :: op :: rest) = .refuse .undefined := by
      rw [takeReg, takeByte_cons, Parsed.bind_ok]
      cases hc : regOfCode b with
      | none => rfl
      | some c => exact if_neg fun hlegal => hb ⟨c, hc, hlegal⟩
    obtain ⟨h7, h6, hz, h3, hk⟩ := regByte_ext_fields (codeOfSize sz)
    simp only [decode, takeByte_cons, Parsed.bind_ok, h7, h6, hz, h3, hk, hread, sizeOfCode_codeOfSize,
      Bool.true_eq_false, Bool.false_eq_true, if_false, if_true]
    rfl

/-- Settles O48: the bytes are those of class REG, the slot 0FH is BS1B at word size alone, and BS1B writes V and A by
the outcome of the search. -/
theorem bs1bForm : Obligations.Bs1bForm := by
  unfold Obligations.Bs1bForm
  refine ⟨fun k => rfl, fun c => rfl, fun k rest => ⟨?byteShort, ?longShort⟩, fun b rest => ⟨?byteExt, ?longExt⟩,
    fun r s => ⟨fun hne => ?found, fun hzero => ?noOne⟩⟩
  case byteShort => exact decode_encodeReg (sz := .byte) (r := .short k) rfl 0x0F#8 [] rest
  case longShort => exact decode_encodeReg (sz := .long) (r := .short k) rfl 0x0F#8 [] rest
  case byteExt => exact decode_regCode_undefined (sz := .byte) (fun _ => rfl) b
  case longExt => exact decode_regCode_undefined (sz := .long) (fun _ => rfl) b
  case found =>
    exact exec_regOnly rfl (flagsStep_setFlags _ s) rfl (exec_bs1b_of_ne_zero hne) (by simp [encode])
  case noOne =>
    obtain ⟨t, ht, hreg, hf, hpast⟩ := exec_regOnly (i := .bs1b r) rfl
      (flagsStep_drawn_setFlags 1 { s.f with v := true } s) rfl (exec_bs1b_of_zero hzero) (by simp [encode])
    exact ⟨t, ht, ⟨undefVal 8 0 s, hreg⟩, hf, hpast⟩

end Sys2Proof.Machine
end

section
/-! PROOFS. EI, DI and HALT (47_cpu_control.md R250, R251, R254). -/

namespace Sys2Proof.Machine

/-! ## EI and DI (rules R250, R251) -/

/-- The two bytes of EI n are those of DI when n is 7, and only then. -/
theorem decode_eiBytes (n : BitVec 3) :
    decode [0x06#8, 0#5 ++ n] = .ok (if n.toNat = 7 then .di else .ei n) [] := by
  by_cases hn : n = 7#3
  · subst hn
    exact decodeEncode .di [] rfl
  · have hseven : n.toNat ≠ 7 := fun h => hn (BitVec.eq_of_toNat_eq h)
    rw [if_neg hseven]
    exact decodeEncode (.ei n) [] (bne_iff_ne.2 hn)

theorem exec_ei (n : BitVec 3) (s : State) :
    exec (.ei n) s = .next { s with iff := n, pc := s.pc + 2#32 } := rfl

/-- DI acts as EI 7 (rule R251). -/
theorem exec_di (s : State) : exec .di s = exec (.ei 7#3) s := rfl

/-- Settles O49: the two bytes are read through the round trip of the decoder, and DI acts as EI 7. -/
theorem eiAndDi : Obligations.EiAndDi := by
  unfold Obligations.EiAndDi
  exact ⟨decode_eiBytes, fun s => ⟨fun n => exec_ei n s, (exec_di s).trans (exec_ei 7#3 s)⟩⟩

/-! ## HALT (rule R254) -/

theorem exec_halt (s : State) : exec .halt s = .next { s with halted := true, pc := s.pc + 1#32 } := rfl

/-- Settles O50: HALT moves `pc` past its byte before it halts. -/
theorem haltForm : Obligations.HaltForm := by
  unfold Obligations.HaltForm
  exact ⟨rfl, exec_halt⟩

end Sys2Proof.Machine
end

section
/-! PROOFS. Interrupt entry, and the halted machine (60_exceptions.md R322 to R335): what the stores of an entry leave
in memory, the fields of an entry, which step is an entry, and the two statements. -/

namespace Sys2Proof.Machine

/-! ## The stores of an entry -/

/-- Of the stores to one address, the last is the one that is read back. -/
theorem storeAll_read_last {before after : List (Long × Byte)} {c : Long × Byte} {s t : State}
    (h : storeAll (before ++ c :: after) s = .next t) (hlast : ∀ d ∈ after, d.1 ≠ c.1) :
    t.mem.read c.1.toNat = some c.2 := by
  induction before generalizing s with
  | nil =>
    obtain ⟨u, hc, hafter⟩ := andThen_eq_next h
    obtain ⟨-, -, -, rfl⟩ := storeByte_eq_next hc
    rw [storeAll_read_other hafter fun d hd => mt BitVec.eq_of_toNat_eq (hlast d hd)]
    exact Memory.read_write_same _ _ _
  | cons b rest ih =>
    obtain ⟨u, -, hrest⟩ := andThen_eq_next h
    exact ih hrest

/-! ## Entry (rules R325, R328) -/

/-- Settles O60: an entry is its stores, made one after another, and then the fields from the parameter. -/
theorem interruptEntry : Obligations.InterruptEntry := by
  unfold Obligations.InterruptEntry
  intro r s e hw
  obtain ⟨t, ht⟩ := takeInterrupt_of_writable hw
  obtain ⟨u, hstores, -, rfl⟩ := takeInterrupt_eq_next ht
  refine ⟨_, ht, rfl, rfl, rfl, rfl, rfl, rfl, rfl, rfl, rfl, rfl, fun x hx => ?other,
    fun before c after he hlast => ?last⟩
  case other => exact storeAll_read_other hstores hx
  case last =>
    rw [he] at hstores
    exact storeAll_read_last (t := u) hstores hlast

/-! ## Acceptance (rules R322, R323, R335) -/

/-- When some pending request passes the mask, the step is the entry of such a request. -/
theorem step_eq_takeInterrupt {s : State} (h : interruptAccepted s = true) :
    ∃ r ∈ s.pending, s.iff.toNat ≤ r.level.toNat ∧ step s = takeInterrupt r s := by
  cases hr : acceptedRequest s with
  | none => exact absurd (h.symm.trans (acceptedRequest_eq_none.1 hr)) Bool.noConfusion
  | some r =>
    obtain ⟨hmem, hlevel⟩ := acceptedRequest_eq_some hr
    exact ⟨r, hmem, hlevel, step_of_accepted hr⟩

theorem takeInterrupt_halted {r : Request} {s t : State} (h : takeInterrupt r s = .next t) : t.halted = false := by
  obtain ⟨u, -, -, rfl⟩ := takeInterrupt_eq_next h
  rfl

theorem interruptAccepted_eq_false_iff {s : State} :
    interruptAccepted s = false ↔ ∀ r ∈ s.pending, r.level.toNat < s.iff.toNat := by
  simp only [← Bool.not_eq_true, interruptAccepted_iff, not_exists, not_and, not_le]

/-! ## The halted machine (rule R335) -/

/-- A state that is its own next state runs on for ever. -/
theorem safeRun_of_step_eq_self {s : State} (h : step s = .next s) (k : Nat) : State.SafeRun k s := by
  induction k with
  | zero => trivial
  | succ k ih => exact ⟨s, h, ih⟩

/-- Settles O7: the acceptance test decides between the entry of a request and the rest of a halted machine. -/
theorem interruptsAndHalt : Obligations.InterruptsAndHalt := by
  unfold Obligations.InterruptsAndHalt
  refine fun s => ⟨fun hpass => ?accepted, fun hmasked hhalted => ?resting⟩
  case accepted =>
    obtain ⟨r, hmem, hlevel, hstep⟩ := step_eq_takeInterrupt (interruptAccepted_iff.2 hpass)
    exact ⟨⟨r, hmem, hlevel, hstep⟩, fun t ht => takeInterrupt_halted (hstep ▸ ht)⟩
  case resting =>
    have hself := step_of_halted (interruptAccepted_eq_false_iff.2 hmasked) hhalted
    exact ⟨hself, safeRun_of_step_eq_self hself⟩

end Sys2Proof.Machine
end

section
/-! PROOFS. JP cc,mem and DJNZ (49_jump_call.md R292, R299). -/

namespace Sys2Proof.Machine

/-! ## JP cc,mem (rule R292) -/

/-- In a plain mode the condition chooses between the address and the next instruction, and `pc` alone moves. -/
theorem exec_jpMem (cc : Cond) {m : Mode} (hm : m.steps = false) (s : State) : exec (.jpMem cc m) s =
    .next { s with pc := if condTrue cc s.f then eaAddr m s else s.pc + BitVec.ofNat 32 (memLen m 0) } :=
  (ifPlain_of_plain hm _).trans (congrArg _ (jumpTo_or_advance _ _ _ s))

/-- Settles O53: a plain mode goes on to the jump, whose condition chooses `pc`. -/
theorem jpMemory : Obligations.JpMemory := by
  unfold Obligations.JpMemory
  intro cc m s hm
  rw [exec_jpMem cc hm s]
  refine ⟨fun hcc => ?taken, fun hcc => ?untaken⟩
  case taken => rw [if_pos hcc]
  case untaken =>
    rw [if_neg (Bool.eq_false_iff.1 hcc)]
    exact ⟨_, rfl, rfl, past_of_pc (by simp [encode]) rfl⟩

/-! ## DJNZ (rule R299) -/

/-- DJNZ as one register write, after which the written value chooses `pc`. -/
theorem exec_djnz (sz : BW) (r : RegOp) (d : Byte) (s : State) :
    let v := readOp sz.size r s - 1#sz.size.bits
    let after := s.pc + BitVec.ofNat 32 (regLen r 1)
    exec (.djnz sz r d) s = .next (jumpTo (if v = 0 then after else after + sext32 d)
      (writeReg sz.size (codeOf sz.size r) v s)) := by
  intro v after
  by_cases hv : v = 0
  · rw [if_pos hv]
    exact congrArg _ (if_pos hv)
  · rw [if_neg hv]
    exact congrArg _ (if_neg hv)

/-- A jump after a register write. -/
theorem regOnly_write_jumpTo {sz : Size} {c : RegCode} (hc : c.legal sz = true) (v : BitVec sz.bits) (a : Long)
    (s : State) : RegOnly sz c v s (jumpTo a (writeReg sz c v s)) :=
  ⟨(onlyReg_writeReg hc v s).congr rfl rfl rfl rfl, rfl, ⟨rfl, rfl, rfl, rfl, rfl, rfl, rfl⟩⟩

/-- Settles O56: the bytes are those of class REG, and the counted value is written before it chooses `pc`. -/
theorem djnzForm : Obligations.DjnzForm := by
  unfold Obligations.DjnzForm
  refine ⟨fun k d => ⟨?byteShort, ?wordShort⟩, fun c d => ⟨?byteExt, ?wordExt⟩, fun sz r d s hwf => ?effect⟩
  case byteShort | wordShort | byteExt | wordExt => rfl
  case effect =>
    have hl : (encode (.djnz sz r d)).length = regLen r 1 := by simp [encode]
    simp only [hl, ← add_sext32]
    exact ⟨_, exec_djnz sz r d s, regOnly_write_jumpTo (codeOf_legal hwf) _ _ s, rfl, rfl⟩

end Sys2Proof.Machine
end
